-- ==== Sys2Proof/Word.lean ====
section
/-! DEFINITION. The byte and its plainest arithmetic (spec 00_scope.md R7). -/

namespace Sys2Proof

/-- A byte is 8 bits, unsigned (R7). -/
abbrev Byte := BitVec 8

/-- `zext_8(b)` of one bit (R7). -/
def bitByte (b : Bool) : Byte := if b then 1#8 else 0#8

end Sys2Proof
end

