-- ==== Sys2Proof/Config.lean ====
section
/-! DEFINITION. The parameters of spec 00_scope.md R6: the constants the source gives, the record of the
named parameters it leaves open, and the free values of the model, which have no body. -/

namespace Sys2Proof

/-- A physical line identifier. R6 leaves the type open and N16 forbids a numeric range; a natural number is a
plain name here, never computed with. DESIGN CHOICE (log 3), safe. -/
abbrev PinId := Nat

/-- FREE VALUE: pin predicates of which nothing can be proved, one for each number (R6 leaves `configurable : PinId ->
Bool` open; log 7), safe. -/
opaque Config.freePins : Nat → PinId → Bool

/-- A predicate on pins as plain data: finitely many pins, all but finitely many, or one that nothing constrains. The
three forms are the model's own (log 7), safe. -/
inductive PinSet where
  | only (l : List PinId)
  | allBut (l : List PinId)
  | free (k : Nat)
  deriving DecidableEq, Repr, Inhabited

/-- Does the predicate hold of the pin? -/
def PinSet.has (q : PinSet) (p : PinId) : Bool :=
  match q with
  | .only l => l.contains p
  | .allBut l => !l.contains p
  | .free k => Config.freePins k p

/-- `Params` (10_state.md R20): the open parameters of R6, which no step writes. -/
structure Params where
  /-- `SEG`, bits 6:0 of each entry. Bit 7 of every entry is 0 (R32), so seven bits are held. -/
  seg7 : Vector (BitVec 7) 10
  /-- The pins for which `configurable` is true (92_eei_decisions.md D10): any predicate on pins (log 7). -/
  gpio : PinSet
  /-- `T_DELAY` is positive (70_reset_and_hazards.md R180): it is this number plus one. That it is a whole number of an
  unnamed unit is the model's choice: R6 and R180 give neither a type nor a unit. DESIGN CHOICE (log 21), unsafe. -/
  delayPred : Nat
  /-- The premise `TimingMet` (42_wire_commands.md R130, 93_implementation_defined.md I16). -/
  timingMet : Bool
  deriving DecidableEq, Repr, Inhabited

/-- `SEG(d)` (10_state.md R31): the 7-segment pattern of a decimal digit, bit 7 clear (R32). -/
def Params.seg (p : Params) (d : Fin 10) : Byte := (p.seg7[d]).zeroExtend 8

/-- `configurable(p)` (R6, D10). -/
def Params.configurable (p : Params) (pin : PinId) : Bool := p.gpio.has pin

/-- `T_DELAY` (R6, R180), a whole number of the model's unnamed unit of time. DESIGN CHOICE (log 21), unsafe. -/
def Params.tDelay (p : Params) : Nat := p.delayPred + 1

/-- The datapath registers of 10_state.md R25 and R26, which are not host-visible. -/
structure Datapath where
  /-- `TXB`, the byte `writeByte` is sending. -/
  txb : Byte
  /-- `RXB`, the byte `readByte` is assembling. -/
  rxb : Byte
  /-- `BITI`, the index of the current bit. -/
  biti : Fin 8
  /-- `b` of `readByte` (40_bit_transport.md R91): the bit last sampled, until RXB takes it. R25 names no register for
  it; 60_exceptions.md R160 puts steps between the two, so the model holds it (log 12). -/
  sampled : Bool
  /-- `KB[0..3]`, the bytes of a key-scan reply. -/
  kb : Vector Byte 4
  /-- `KACC`, the key-mask accumulator. -/
  kacc : BitVec 11
  /-- `POS`, the output digit-position counter, 0..8. -/
  pos : Fin 9
  /-- `TIDX`, the index of the next input character. -/
  tidx : Nat
  /-- `LAST_ADDR` and `LAST_SEG`, the pair most recently transacted for a digit or a space. -/
  lastAddr : Byte
  lastSeg : Byte
  deriving DecidableEq, Repr, Inhabited

namespace Config

/-- R6: the number of lines CLK, DIO, STB. -/
def nLines : Nat := 3
/-- R6: bits per transferred byte. -/
def byteWidth : Nat := 8
/-- R6: Device display addresses 0x00 to 0x0F. -/
def dispBytes : Nat := 16
/-- R6: digit positions. -/
def digits : Nat := 8
/-- R6: discrete LEDs. -/
def leds : Nat := 8
/-- R6: bytes of a key-scan reply. -/
def keyBytes : Nat := 4
/-- R6: buttons. -/
def buttons : Nat := 8
/-- R6: the highest host brightness level. -/
def brightMax : Nat := 8

/-- The parameters the machine is built with: open (R6), so no value can be proved of them (log 7), safe. -/
opaque params : Params

/-- FREE VALUE: the Device's answer to a sample (42_wire_commands.md R142) when the list of answers in the state
is used up; applied to the counter `Env.fresh` (log 8), safe. -/
opaque freeDraw : Nat → Bool

/-- FREE VALUE: the datapath registers after a completed operation, which 10_state.md R25, R26 and R38 leave
unspecified; applied to the counter `Env.fresh` (log 6), safe. -/
opaque freeRegs : Nat → Datapath

end Config
end Sys2Proof
end

