-- ==== Sys2Proof/Syntax.lean ====
section
/-! DEFINITION. The instructions: one constructor of `Instr` per row of spec/opcode_table.json, and what stands
at the host command port (spec 30_encoding.md R70, R71). -/

namespace Sys2Proof

/-- The 14 rows of the opcode table: six host operations (R70), three transport primitives
(40_bit_transport.md R90 to R92) and five wire command bytes (R73). -/
inductive Instr where
  /-- INIT, `initialize(clk, dio, stb)`: 41_command_layer.md R101. -/
  | init (clk dio stb : PinId)
  /-- CLEAR, `clear()`: R102. -/
  | clear
  /-- SET_BRIGHTNESS, `setBrightness(level)`: R103. -/
  | setBrightness (level : Byte)
  /-- SET_LEDS, `setDiscreteLEDs(mask)`: R104. -/
  | setLeds (mask : Byte)
  /-- READ_KEYS, `readKeys()`: R105. -/
  | readKeys
  /-- SHOW_DIGITS, `showDigits(text)`: R112. -/
  | showDigits (text : List Byte)
  /-- WRITE_BYTE, `writeByte(v)`: 40_bit_transport.md R90. -/
  | writeByte (v : Byte)
  /-- READ_BYTE, `readByte()`: R91. -/
  | readByte
  /-- TRANSACT, `transact(bs)`: R92. -/
  | transact (bs : List Byte)
  /-- DATA_WRITE_AUTOINC, byte 0x40: 42_wire_commands.md R131. -/
  | dataWriteAutoinc
  /-- READ_KEYS_CMD, byte 0x42: R132. -/
  | readKeysCmd
  /-- DISPLAY_OFF, byte 0x80: R136. -/
  | displayOff
  /-- DISPLAY_ON, byte 0x88 + b: R137. -/
  | displayOn (b : BitVec 3)
  /-- SET_ADDRESS, byte 0xC0 + n: R134. -/
  | setAddress (n : BitVec 4)
  deriving DecidableEq, Repr

/-- A host operation with its operands: what CUR holds and what `Issue` reports (10_state.md R27, R29). -/
inductive HostOp where
  | init (clk dio stb : PinId)
  | clear
  | setBrightness (level : Byte)
  | setLeds (mask : Byte)
  | readKeys
  | showDigits (text : List Byte)
  deriving DecidableEq, Repr

/-- A wire command byte as the Device understands it (R73). -/
inductive WireCmd where
  | dataWriteAutoinc
  | readKeysCmd
  | displayOff
  | displayOn (b : BitVec 3)
  | setAddress (n : BitVec 4)
  deriving DecidableEq, Repr

/-- The instruction a host operation is. -/
def HostOp.instr : HostOp → Instr
  | .init c d s => .init c d s
  | .clear => .clear
  | .setBrightness l => .setBrightness l
  | .setLeds m => .setLeds m
  | .readKeys => .readKeys
  | .showDigits t => .showDigits t

/-- The instruction a wire command byte is. -/
def WireCmd.instr : WireCmd → Instr
  | .dataWriteAutoinc => .dataWriteAutoinc
  | .readKeysCmd => .readKeysCmd
  | .displayOff => .displayOff
  | .displayOn b => .displayOn b
  | .setAddress n => .setAddress n

/-- INIT is the one operation allowed while `BIND = none` (41_command_layer.md R100, R101). -/
def HostOp.isInit : HostOp → Bool
  | .init _ _ _ => true
  | .clear | .setBrightness _ | .setLeds _ | .readKeys | .showDigits _ => false

/-- What stands at the host command port: the 3-bit tag OP and the operand fields of R71, each in a field of its
own. An operation reads its own fields and ignores the others. DESIGN CHOICE (log 2), safe. -/
structure Command where
  tag : BitVec 3
  clk : PinId := 0
  dio : PinId := 0
  stb : PinId := 0
  level : Byte := 0
  mask : Byte := 0
  text : List Byte := []
  deriving DecidableEq, Repr

/-- Where an encoded instruction is found: at the host command port, or as the first byte of a frame on the
wire. The transport primitives have no encoding (R70). -/
inductive Code where
  | port (c : Command)
  | wire (v : Byte)
  deriving DecidableEq, Repr

/-- Why a code is no instruction. -/
inductive DecodeError where
  /-- Tags 0b110 and 0b111 do not decode (R72). -/
  | reservedTag (tag : BitVec 3)
  /-- The byte is none of the five forms of R73 (R80, R138). -/
  | unknownWireByte (v : Byte)
  deriving DecidableEq, Repr

end Sys2Proof
end

