-- ==== Sys2Proof/WellFormed.lean ====
section
/-! DEFINITION. Which instructions are well formed. Operand widths are in the types; what is left to check is
the operand of `transact`. -/

namespace Sys2Proof

/-- `transact` takes a non-empty sequence (spec 40_bit_transport.md R92: "non-empty in every use"; 30_encoding.md
R79: the empty one "is never issued"). Every other operand of every width is allowed (R71, R73). -/
def Instr.wf : Instr → Bool
  | .transact bs => !bs.isEmpty
  | .init _ _ _ | .clear | .setBrightness _ | .setLeds _ | .readKeys | .showDigits _ => true
  | .writeByte _ | .readByte => true
  | .dataWriteAutoinc | .readKeysCmd | .displayOff | .displayOn _ | .setAddress _ => true

end Sys2Proof
end

