-- ==== Sys2Proof/Decode.lean ====
section
/-! DEFINITION. The decoder of the two encodings of spec 30_encoding.md (the host command port R70 to R72, the
wire command bytes R73 to R75), total and rejecting by name, and after it the encoder. -/

namespace Sys2Proof

/-- The host operation of a command (R70), or the reserved tag (R72). -/
def decodePort (c : Command) : Except DecodeError HostOp :=
  if c.tag = 0b000#3 then .ok (.init c.clk c.dio c.stb)
  else if c.tag = 0b001#3 then .ok .clear
  else if c.tag = 0b010#3 then .ok (.setBrightness c.level)
  else if c.tag = 0b011#3 then .ok (.setLeds c.mask)
  else if c.tag = 0b100#3 then .ok .readKeys
  else if c.tag = 0b101#3 then .ok (.showDigits c.text)
  else .error (.reservedTag c.tag)

/-- The wire command of a byte, by the match and mask columns of R73; none for every other byte (R80). -/
def decodeWire (v : Byte) : Option WireCmd :=
  if v = 0x40#8 then some .dataWriteAutoinc
  else if v = 0x42#8 then some .readKeysCmd
  else if v = 0x80#8 then some .displayOff
  else if v &&& 0xF8#8 = 0x88#8 then some (.displayOn (v.extractLsb' 0 3))
  else if v &&& 0xF0#8 = 0xC0#8 then some (.setAddress (v.extractLsb' 0 4))
  else none

/-- The decoder. -/
def decode : Code → Except DecodeError Instr
  | .port c => (decodePort c).map HostOp.instr
  | .wire v =>
    match decodeWire v with
    | some w => .ok w.instr
    | none => .error (.unknownWireByte v)

/-- The byte of a wire command (R73, R74, R75). -/
def encodeWire : WireCmd → Byte
  | .dataWriteAutoinc => 0x40#8
  | .readKeysCmd => 0x42#8
  | .displayOff => 0x80#8
  | .displayOn b => 0x88#8 ||| b.zeroExtend 8
  | .setAddress n => 0xC0#8 ||| n.zeroExtend 8

/-- The command of a host operation (R70); the fields the operation does not read are zero. -/
def encodePort : HostOp → Command
  | .init c d s => { tag := 0b000#3, clk := c, dio := d, stb := s }
  | .clear => { tag := 0b001#3 }
  | .setBrightness l => { tag := 0b010#3, level := l }
  | .setLeds m => { tag := 0b011#3, mask := m }
  | .readKeys => { tag := 0b100#3 }
  | .showDigits t => { tag := 0b101#3, text := t }

/-- The encoder. The transport primitives have no encoding (R70: they "have no host tag, because the source makes
the transport layer private"). -/
def encode : Instr → Option Code
  | .init c d s => some (.port (encodePort (.init c d s)))
  | .clear => some (.port (encodePort .clear))
  | .setBrightness l => some (.port (encodePort (.setBrightness l)))
  | .setLeds m => some (.port (encodePort (.setLeds m)))
  | .readKeys => some (.port (encodePort .readKeys))
  | .showDigits t => some (.port (encodePort (.showDigits t)))
  | .writeByte _ => none
  | .readByte => none
  | .transact _ => none
  | .dataWriteAutoinc => some (.wire (encodeWire .dataWriteAutoinc))
  | .readKeysCmd => some (.wire (encodeWire .readKeysCmd))
  | .displayOff => some (.wire (encodeWire .displayOff))
  | .displayOn b => some (.wire (encodeWire (.displayOn b)))
  | .setAddress n => some (.wire (encodeWire (.setAddress n)))

/-- The code a table word stands for. The table numbers two encodings from bit 0: a host tag is one of the words
0 to 7 with its operand fields zero, every other word is a wire byte (no wire command byte is below 0x40).
DESIGN CHOICE (log 2), safe. -/
def tableCode (nbits w : Nat) : Code :=
  let v := w % 2 ^ nbits
  if v < 8 then .port { tag := BitVec.ofNat 3 v } else .wire (BitVec.ofNat 8 v)

/-- The instruction the decoder reads from a word of spec/opcode_table.json; no instruction is longer than a byte. -/
def decodeTableWord (nbits w : Nat) : Option Instr :=
  if 256 ≤ w % 2 ^ nbits then none
  else
    match decode (tableCode nbits w) with
    | .ok i => some i
    | .error _ => none

end Sys2Proof
end

