-- ==== Sys2Proof/Machine/State.lean ====
section
/-! DEFINITION. The state of the machine (spec 10_state.md), as plain data, and the state at power-on. -/

namespace Sys2Proof.Machine

/-- A line level: low, high or unknown (00_scope.md R8). -/
inductive Level where
  | low
  | high
  | x
  deriving DecidableEq, Repr

/-- The data line's direction (R8). -/
inductive Dir where
  | out
  | inp
  deriving DecidableEq, Repr

/-- The pins bound to the roles CLOCK, DATA and STROBE (10_state.md R21). -/
structure Pins where
  clk : PinId
  dio : PinId
  stb : PinId
  deriving DecidableEq, Repr

/-- The fault codes of 10_state.md R28. -/
inductive FaultCode where
  | notInitialized
  | badPin
  | busy
  | reservedOp
  | contention
  deriving DecidableEq, Repr

/-- `FAULT`, the set of sticky fault bits (R28). -/
structure FaultSet where
  notInitialized : Bool
  badPin : Bool
  busy : Bool
  reservedOp : Bool
  contention : Bool
  deriving DecidableEq, Repr

/-- A command as the envelope sees it: an operation, or a reserved tag (41_command_layer.md R100). -/
inductive Request where
  | op (o : HostOp)
  | reserved (tag : BitVec 3)
  deriving DecidableEq, Repr

/-- A line event that a primitive refused (60_exceptions.md R152). -/
inductive RefusedEvent where
  | dio (b : Bool)
  | sample
  deriving DecidableEq, Repr

/-- The value a fault records (60_exceptions.md R151 to R155). -/
inductive FaultRecord where
  /-- R151: the operation. -/
  | notInitialized (o : HostOp)
  /-- R153: the three pins. -/
  | badPin (clk dio stb : PinId)
  /-- R154: the second command. -/
  | busy (second : Request)
  /-- R155: the tag. -/
  | reservedOp (tag : BitVec 3)
  /-- R152: the event that was refused. -/
  | contention (ev : RefusedEvent)
  deriving DecidableEq, Repr

/-- The events of the trace (10_state.md R29). -/
inductive Event where
  | issue (o : HostOp)
  | mode (p : PinId)
  | clk (b : Bool)
  | stb (b : Bool)
  | dio (b : Bool)
  | dirIn
  | dirOut
  | sample (b : Bool)
  | wait
  | done (r : Option Byte)
  deriving DecidableEq, Repr

/-- An item of the byte-level view (20_memory.md R55): a byte sent or a byte received. -/
inductive Item where
  | out (v : Byte)
  | inp (v : Byte)
  deriving DecidableEq, Repr

/-- A frame of the byte-level view: the items between `Stb(0)` and `Stb(1)` (R55). -/
abbrev Frame := List Item

/-- The Device's command mode (10_state.md R34). -/
inductive DMode where
  | writeAutoinc
  | readKeys
  | unknown
  deriving DecidableEq, Repr

/-- The display memory `DISP` (R33): the known bytes, addresses strictly rising. An unlisted address is UNKNOWN,
the spec's own value (R38), so no listed byte equals what an unlisted address reads as. -/
abbrev Memory := List Host.Cell

/-- The engine (10_state.md R21 to R30). -/
structure Engine where
  /-- `BIND` (R21). -/
  bind : Option Pins
  /-- `PINMODE` (R24): the pins in mode OUTPUT, strictly rising. -/
  pinmode : List PinId
  /-- Pins of an earlier binding that are not bound now, with the level they keep (R24, D11), strictly rising. -/
  released : List (PinId × Level)
  /-- `CLK_LVL`, `STB_LVL` (R22). -/
  clk : Level
  stb : Level
  /-- `DIO_LVL`, `DIO_DIR` (R23). -/
  dio : Level
  dir : Dir
  /-- The datapath registers (R25, R26). -/
  regs : Datapath
  /-- `BUSY`, `CUR`, `SEQ` (R27). -/
  busy : Bool
  cur : Option HostOp
  seq : Nat
  /-- `FAULT` (R28). -/
  fault : FaultSet
  /-- The recorded value of the last fault (60_exceptions.md R151 to R155). -/
  record : Option FaultRecord
  /-- `TRACE`, oldest event first (R29). -/
  trace : List Event
  /-- The byte-level view of TRACE, kept by the engine's own sequencing (20_memory.md R55): the closed frames,
  oldest first, and the frame now open. -/
  frames : List Frame
  openFrame : Option Frame
  /-- `KEYMASK`; none: no value, as R30 demands before the first `readKeys`. -/
  keymask : Option Byte
  deriving DecidableEq, Repr

/-- The Device (10_state.md R33 to R36). `none` is the spec's own value UNKNOWN. -/
structure Device where
  /-- `DISP` (R33). -/
  disp : Memory
  /-- `DMODE`, `DADDR` (R34). -/
  dmode : DMode
  daddr : Option (BitVec 4)
  /-- `DON`, `DBRIGHT` (R35). -/
  don : Option Bool
  dbright : Option (BitVec 3)
  /-- The items of the frame the Device is receiving; none: no frame is open (30_encoding.md R78). -/
  frame : Option Frame
  /-- The byte that has arrived and on which the Device acts next (42_wire_commands.md R130). -/
  rx : Option Byte
  deriving DecidableEq, Repr

/-- The environment. -/
structure Env where
  /-- `BTN[1..8]` (10_state.md R37): bit k is button k + 1. -/
  btn : BitVec 8
  /-- The Device's answers to the coming samples, the next one first (42_wire_commands.md R142). -/
  draws : List Bool
  /-- The MODEL's own counter of free values drawn (log 8); no statement rests on its value. -/
  fresh : Nat
  deriving DecidableEq, Repr

/-- An act of the host or the environment. `due = none`: when the engine is idle (the host that waits for `Done`,
70_reset_and_hazards.md R184); `due = some k`: also when the running operation has reached SEQ = k. -/
inductive HostAct where
  /-- Put a command on the port (30_encoding.md R81). -/
  | call (due : Option Nat) (c : Command)
  /-- Set the buttons (10_state.md R37). -/
  | buttons (due : Option Nat) (b : BitVec 8)
  /-- Power off and on (70_reset_and_hazards.md R170); always due for a stopped engine. -/
  | powerOn (due : Option Nat)
  deriving DecidableEq, Repr

/-- The host's side of the command port. -/
structure HostSide where
  /-- The command at the port, which the engine takes at its next step. -/
  port : Option Command
  /-- The acts still to come, the next one first. -/
  script : List HostAct
  deriving DecidableEq, Repr

/-- The whole model state (10_state.md R20), with the environment and the host of 00_scope.md R5. -/
structure State where
  engine : Engine
  device : Device
  env : Env
  host : HostSide
  params : Params
  deriving DecidableEq, Repr

/-- Why the machine stops. -/
inductive Fault where
  /-- A step or an engine instruction in a state whose FAULT is not empty: "No further engine step is enabled"
  (60_exceptions.md R150). Raised by `step`, the host operations and the transport primitives. Safe. -/
  | engineStopped
  /-- A busy engine with no event left to perform: no run reaches such a state. Raised by `step`. The spec gives
  it no meaning (log 11). Safe. -/
  | badSequence
  deriving DecidableEq, Repr

/-- Why an instruction has no meaning. -/
inductive Refusal where
  /-- Not modelled yet, by the mnemonic of the opcode table; raised by an arm of `exec` only. Safe. -/
  | notModelled (mnemonic : String)
  deriving DecidableEq, Repr

/-- The empty FAULT set. -/
def FaultSet.empty : FaultSet :=
  { notInitialized := false, badPin := false, busy := false, reservedOp := false, contention := false }

/-- The datapath registers at power-on: unspecified by 10_state.md R38, zero here. DESIGN CHOICE (log 6), unsafe. -/
def zeroRegs : Datapath :=
  { txb := 0, rxb := 0, biti := 0, sampled := false, kb := Vector.replicate 4 0, kacc := 0, pos := 0, tidx := 0, lastAddr := 0, lastSeg := 0 }

/-- The engine at power-on (10_state.md R38). -/
def Engine.reset : Engine :=
  { bind := none, pinmode := [], released := [], clk := .x, stb := .x, dio := .x, dir := .out
    regs := zeroRegs, busy := false, cur := none, seq := 0, fault := FaultSet.empty, record := none
    trace := [], frames := [], openFrame := none, keymask := none }

/-- The Device at power-on: everything UNKNOWN (R38), no frame open, nothing received. -/
def Device.reset : Device :=
  { disp := [], dmode := .unknown, daddr := none, don := none, dbright := none, frame := none, rx := none }

/-- The environment at power-on: no button pressed (log 6), no answers listed, no free value drawn (log 8).
DESIGN CHOICE, unsafe for BTN. -/
def Env.reset : Env := { btn := 0, draws := [], fresh := 0 }

/-- Nothing at the port, no program (log 5). -/
def HostSide.reset : HostSide := { port := none, script := [] }

/-- The machine at power-on (10_state.md R38, 70_reset_and_hazards.md R170), with the open parameters. -/
def State.reset : State :=
  { engine := Engine.reset, device := Device.reset, env := Env.reset, host := HostSide.reset, params := Config.params }

end Sys2Proof.Machine
end

