-- ==== Sys2Proof/Machine/Flags.lean ====
section
/-! DEFINITION. The engine has no condition flags (spec 10_state.md R20). Its only flag bits are the sticky fault
bits of R28. -/

namespace Sys2Proof.Machine

/-- Adds a code to FAULT; no bit is ever cleared (R28, 60_exceptions.md R150). -/
def FaultSet.add (f : FaultSet) : FaultCode → FaultSet
  | .notInitialized => { f with notInitialized := true }
  | .badPin => { f with badPin := true }
  | .busy => { f with busy := true }
  | .reservedOp => { f with reservedOp := true }
  | .contention => { f with contention := true }

/-- Membership in FAULT. -/
def FaultSet.has (f : FaultSet) : FaultCode → Bool
  | .notInitialized => f.notInitialized
  | .badPin => f.badPin
  | .busy => f.busy
  | .reservedOp => f.reservedOp
  | .contention => f.contention

/-- FAULT is not empty. -/
def FaultSet.any (f : FaultSet) : Bool :=
  f.notInitialized || f.badPin || f.busy || f.reservedOp || f.contention

/-- The code a recorded value belongs to (R151 to R155). -/
def FaultRecord.code : FaultRecord → FaultCode
  | .notInitialized _ => .notInitialized
  | .badPin _ _ _ => .badPin
  | .busy _ => .busy
  | .reservedOp _ => .reservedOp
  | .contention _ => .contention

/-- The engine is stopped: FAULT is not empty (R150). -/
def State.stopped (s : State) : Bool := s.engine.fault.any

end Sys2Proof.Machine
end

