-- ==== Sys2Proof/Machine/Operands.lean ====
section
/-! DEFINITION. Operand assembly: every value the engine computes for the wire and from it (spec 30_encoding.md
R74 to R77, 41_command_layer.md R103, R104, R110, R114 to R117). -/

namespace Sys2Proof.Machine

/-- The display-control byte of a brightness level (R103): the level is clamped to 8; 0 is display off, otherwise
`0x88 | (L - 1)[2:0]`. -/
def brightnessByte (level : Byte) : Byte :=
  let l := min level.toNat Config.brightMax
  if l = 0 then 0x80#8 else 0x88#8 ||| (BitVec.ofNat 3 (l - 1)).zeroExtend 8

/-- The address byte of digit position `pos`, `0xC0 + 2*POS` (R77, R114). -/
def digitAddr (pos : Nat) : Byte := 0xC0#8 + BitVec.ofNat 8 (2 * pos)

/-- The address byte of discrete LED `i`, `0xC1 + 2*i` (R77, R104). -/
def ledAddr (i : Nat) : Byte := 0xC1#8 + BitVec.ofNat 8 (2 * i)

/-- The value byte of discrete LED `i`, `zext_8(mask[i])` (R77, R104). -/
def ledByte (mask : Byte) (i : Nat) : Byte := bitByte (mask.getLsbD i)

/-- A segment byte with the decimal point overlaid (R77, R116). -/
def pointByte (seg : Byte) : Byte := seg ||| 0x80#8

/-- The contribution of reply byte `i` to the key mask, `zext_11(KB[i]) << i` (R110). -/
def keyTerm (v : Byte) (i : Nat) : BitVec 11 := v.zeroExtend 11 <<< i

/-- What `showDigits` does with a character (R112, R114 to R117). -/
inductive CharClass where
  | digit (d : Fin 10)
  | space
  | point
  | other
  deriving DecidableEq, Repr

/-- The class of a character code: '0'..'9', ' ', '.', or any other (R83, R112). -/
def charClass (c : Byte) : CharClass :=
  if h : 0x30 ≤ c.toNat ∧ c.toNat - 0x30 < 10 then .digit ⟨c.toNat - 0x30, h.2⟩
  else if c = 0x20#8 then .space
  else if c = 0x2E#8 then .point
  else .other

end Sys2Proof.Machine
end

