-- ==== Sys2Proof/Machine/Ops.lean ====
section
/-! DEFINITION. The named operations over memory, pins, faults and lines that every meaning is written with. -/

namespace Sys2Proof.Machine

/-! ### Display memory (spec 10_state.md R33) -/

/-- Reads one byte of display memory; none: UNKNOWN. -/
def Memory.read : Memory → Nat → Option Byte
  | [], _ => none
  | (b, v) :: m, a => if a = b then some v else Memory.read m a

/-- `MemWrite(a, 1, v)` (42_wire_commands.md R133), keeping the addresses strictly rising. -/
def Memory.write : Memory → Nat → Byte → Memory
  | [], a, v => [(a, v)]
  | (b, w) :: m, a, v =>
    if a < b then (a, v) :: (b, w) :: m
    else if a = b then (a, v) :: m
    else (b, w) :: Memory.write m a v

/-- The addresses are strictly rising, each at least `lo`, and inside the 16 bytes of R33. -/
def Memory.wfFrom (lo : Nat) : Memory → Bool
  | [] => true
  | (a, _) :: m => decide (lo ≤ a) && decide (a < Config.dispBytes) && Memory.wfFrom (a + 1) m

/-- The canonical form of display memory. -/
def Memory.wf (m : Memory) : Bool := Memory.wfFrom 0 m

/-! ### Pins (R24) -/

/-- Adds a pin to a strictly rising list. -/
def insertPin (p : PinId) : List PinId → List PinId
  | [] => [p]
  | q :: l => if p < q then p :: q :: l else if p = q then q :: l else q :: insertPin p l

/-- Records the level a pin keeps, in a strictly rising list. -/
def putLevel (p : PinId) (v : Level) : List (PinId × Level) → List (PinId × Level)
  | [] => [(p, v)]
  | (q, w) :: l =>
    if p < q then (p, v) :: (q, w) :: l
    else if p = q then (p, v) :: l
    else (q, w) :: putLevel p v l

/-- Forgets the kept level of a pin. -/
def dropLevel (p : PinId) (l : List (PinId × Level)) : List (PinId × Level) :=
  l.filter fun e => e.1 != p

/-- Is the pin one of the three bound ones? -/
def Pins.has (b : Pins) (p : PinId) : Bool := p == b.clk || p == b.dio || p == b.stb

/-- Keeps the level of a pin of the old binding unless the new binding has the pin too (R24, D11). -/
def releasePin (new : Pins) (p : PinId) (v : Level) (l : List (PinId × Level)) : List (PinId × Level) :=
  if new.has p then l else putLevel p v l

/-- The pins left by a rebinding, with the levels they keep, and none of the newly bound ones (R24, D11). -/
def releasedAfter (e : Engine) (new : Pins) : List (PinId × Level) :=
  let kept :=
    match e.bind with
    | none => e.released
    | some old => releasePin new old.clk e.clk (releasePin new old.dio e.dio (releasePin new old.stb e.stb e.released))
  dropLevel new.clk (dropLevel new.dio (dropLevel new.stb kept))

/-! ### Raising a fault (60_exceptions.md R150) -/

/-- `raise Fault(code)`: the sticky bit is set and the value recorded. Nothing else changes: BUSY keeps its value,
the lines keep the levels of the last event, no `Done` is emitted. A non-empty FAULT is the stopped state. There is
no handler and no return (R159); the way on is `State.powerOn`. -/
def raiseFault (r : FaultRecord) (s : State) : State :=
  { s with engine := { s.engine with fault := s.engine.fault.add r.code, record := some r } }

/-- Power-on (70_reset_and_hazards.md R170): the engine at its power-on values, FAULT and TRACE empty, the Device
UNKNOWN. The environment, the parameters and the rest of the script are no part of the powered machine. -/
def State.powerOn (s : State) : State :=
  { s with engine := Engine.reset, device := Device.reset, host := { s.host with port := none } }

/-! ### Events -/

/-- Appends an event to TRACE (10_state.md R29). -/
def State.log (ev : Event) (s : State) : State :=
  { s with engine := { s.engine with trace := s.engine.trace ++ [ev] } }

/-- Performs a line event: appends it and advances SEQ by 1 (R27). -/
def State.emit (ev : Event) (s : State) : State :=
  { s with engine := { s.engine with trace := s.engine.trace ++ [ev], seq := s.engine.seq + 1 } }

/-- The level of a driven bit. -/
def Level.ofBool (b : Bool) : Level := if b then .high else .low

/-- The next data-line sample: the Device's answer (42_wire_commands.md R142), from the list of answers, or a free
value when the list is used up (log 8). -/
def Env.draw (v : Env) : Bool × Env :=
  match v.draws with
  | b :: rest => (b, { v with draws := rest })
  | [] => (Config.freeDraw v.fresh, { v with fresh := v.fresh + 1 })

end Sys2Proof.Machine
end

