-- ==== Sys2Proof/Machine/Device.lean ====
section
/-! DEFINITION. The Device: the meaning of the five wire command bytes, of data bytes and of the end of a frame
(spec 42_wire_commands.md), and how the engine's frames reach it (R130). -/

namespace Sys2Proof.Machine

/-- All Device state becomes UNKNOWN (R130, R138). -/
def Device.forget (d : Device) : Device :=
  { d with disp := [], dmode := .unknown, daddr := none, don := none, dbright := none }

/-- A command byte arrives as the first byte of the frame. -/
def Device.opened (v : Byte) (d : Device) : Device := { d with frame := some [.out v] }

/-- 0x40 DATA_WRITE_AUTOINC (R131): `DMODE <- WRITE_AUTOINC`. -/
def execDataWriteAutoinc (s : State) : Host.Outcome State Fault Refusal :=
  .next { s with device := { s.device.opened (encodeWire .dataWriteAutoinc) with dmode := .writeAutoinc } }

/-- 0x42 READ_KEYS_CMD (R132): `DMODE <- READ_KEYS`; the reply comes through the samples that follow. -/
def execReadKeysCmd (s : State) : Host.Outcome State Fault Refusal :=
  .next { s with device := { s.device.opened (encodeWire .readKeysCmd) with dmode := .readKeys } }

/-- 0x80 DISPLAY_OFF (R136): `DON <- false`; DBRIGHT and DISP are unchanged. -/
def execDisplayOff (s : State) : Host.Outcome State Fault Refusal :=
  .next { s with device := { s.device.opened (encodeWire .displayOff) with don := some false } }

/-- 0x88 + b DISPLAY_ON (R137): `DON <- true; DBRIGHT <- b`; DISP is unchanged. -/
def execDisplayOn (b : BitVec 3) (s : State) : Host.Outcome State Fault Refusal :=
  .next { s with device := { s.device.opened (encodeWire (.displayOn b)) with don := some true, dbright := some b } }

/-- 0xC0 + n SET_ADDRESS (R134): `DADDR <- n`. -/
def execSetAddress (n : BitVec 4) (s : State) : Host.Outcome State Fault Refusal :=
  .next { s with device := { s.device.opened (encodeWire (.setAddress n)) with daddr := some n } }

/-- The meaning of a wire command. -/
def execWire (w : WireCmd) (s : State) : Host.Outcome State Fault Refusal :=
  match w with
  | .dataWriteAutoinc => execDataWriteAutoinc s
  | .readKeysCmd => execReadKeysCmd s
  | .displayOff => execDisplayOff s
  | .displayOn b => execDisplayOn b s
  | .setAddress n => execSetAddress n s

/-- DADDR after a write at `a`: the next address, UNKNOWN past 15 (R133, R135). -/
def nextAddr (a : BitVec 4) : Option (BitVec 4) := if a = 15#4 then none else some (a + 1#4)

/-- A data byte in a frame whose first byte is SET_ADDRESS (R133, R135): written at DADDR in write mode; a byte at
UNKNOWN DADDR or outside write mode makes DISP UNKNOWN. -/
def Device.data (v : Byte) (d : Device) : Device :=
  if d.dmode = .writeAutoinc then
    match d.daddr with
    | some a => { d with disp := Memory.write d.disp a.toNat v, daddr := nextAddr a }
    | none => { d with disp := [] }
  else { d with disp := [] }

/-- Is the byte a SET_ADDRESS command (R73)? -/
def isSetAddress (v : Byte) : Bool := v &&& 0xF0#8 == 0xC0#8

/-- Is the byte a display-control command (R73)? -/
def isDisplayControl (v : Byte) : Bool := v == 0x80#8 || v &&& 0xF8#8 == 0x88#8

/-- A byte arrives that is not a command opening a frame: a data byte of a SET_ADDRESS frame (R133), or a byte for
which the source states no effect (R138: a first byte of no form of R73, a byte after another command). -/
def Device.other (v : Byte) (d : Device) : Device :=
  match d.frame with
  | some (.out first :: rest) =>
    if isSetAddress first then { d.data v with frame := some (.out first :: rest ++ [.out v]) }
    else { d.forget with frame := some (.out first :: rest ++ [.out v]) }
  | some f => { d.forget with frame := some (f ++ [.out v]) }
  | none => d

/-- The byte the Device acts on next is the command that opens a frame. -/
def Device.command (d : Device) (v : Byte) : Option WireCmd := if d.frame = some [] then decodeWire v else none

/-- The Device acts on the byte that has arrived (R130). -/
def deviceStep (v : Byte) (s : State) : Host.Outcome State Fault Refusal :=
  let s1 := { s with device := { s.device with rx := none } }
  match s.device.command v with
  | some w => execWire w s1
  | none => .next { s1 with device := s1.device.other v }

/-- The Device acts on a pending byte, if there is one. The Device never stops the machine. -/
def settle (s : State) : State :=
  match s.device.rx with
  | none => s
  | some v =>
    match deviceStep v s with
    | .next s1 => s1
    | .fault _ => s
    | .refused _ => s

/-- The frame shapes F1 to F6 (30_encoding.md R78). F3, address only, is read with any address (log 9). -/
def Frame.known : Frame → Bool
  | [.out v] => v == 0x40#8 || isDisplayControl v || isSetAddress v
  | [.out a, .out _] => isSetAddress a
  | [.out v, .inp _, .inp _, .inp _, .inp _] => v == 0x42#8
  | .out a :: rest => a == 0xC0#8 && rest == List.replicate Config.dispBytes (.out 0x00#8)
  | _ => false

/-! ### What the Device sees of the engine's events (R130, 20_memory.md R55) -/

/-- The Device sees the strobe go low: a frame opens. With a frame already open it begins again as a new one, the effects
of the bytes received so far kept. DESIGN CHOICE (log 22), unsafe. -/
def Device.frameOpens (d : Device) : Device := { d with frame := some [] }

/-- The Device sees the strobe go high: the frame closes. After a frame of no known shape, and after any frame
without TimingMet, all Device state is UNKNOWN (R130, R138). -/
def Device.frameCloses (timingMet : Bool) (d : Device) : Device :=
  match d.frame with
  | none => d
  | some f =>
    if timingMet && f.known then { d with frame := none } else { d.forget with frame := none }

/-- The engine has completed a `writeByte` of v inside a frame: under TimingMet the Device receives v; without it
all Device state is UNKNOWN (R130). -/
def Device.receives (timingMet : Bool) (v : Byte) (d : Device) : Device :=
  if timingMet then { d with rx := some v } else d.forget

/-- The engine has completed a `readByte` of v inside a frame. Reading changes no other Device state (R141). -/
def Device.supplied (timingMet : Bool) (v : Byte) (d : Device) : Device :=
  if timingMet then { d with frame := d.frame.map (· ++ [.inp v]) } else d.forget

end Sys2Proof.Machine
end

