-- ==== Sys2Proof/Machine/Transport.lean ====
section
/-! DEFINITION. The Bit Transport layer (spec 40_bit_transport.md): the event sequences of its primitives, the
performing of one event, and the meanings of WRITE_BYTE, READ_BYTE and TRANSACT. -/

namespace Sys2Proof.Machine

/-- Where `writeByte` takes its byte from: a literal of the operation, or a register of R26. -/
inductive Src where
  | lit (v : Byte)
  | lastAddr
  | lastSeg
  deriving DecidableEq, Repr

/-- A register update without an event. It happens within the step that emits the next event
(60_exceptions.md R160). -/
inductive RegOp where
  /-- The pin check and `BIND <- (clk, dio, stb)` of INIT (41_command_layer.md R101). -/
  | bindPins (clk dio stb : PinId)
  /-- `DIO_DIR <- OUT; DIO_LVL <- X` of INIT (R101). -/
  | dioReset
  /-- `TXB <- v` (40_bit_transport.md R90). -/
  | loadTx (src : Src)
  /-- `BITI <- i` (R90, R91). -/
  | bit (i : Fin 8)
  /-- `RXB <- 0x00` (R91). -/
  | clearRx
  /-- `RXB <- RXB | (zext_8(b) << i)` (R91). -/
  | orRx
  /-- `KB[i] <- RXB` (41_command_layer.md R108). -/
  | storeKb (i : Fin 4)
  /-- `KACC <- 0` (R110). -/
  | clearAcc
  /-- `KACC <- KACC | (zext_11(KB[i]) << i)` (R110). -/
  | accKb (i : Fin 4)
  /-- `KEYMASK <- KACC[7:0]` (R110). -/
  | latchMask
  /-- `POS <- 0; TIDX <- 0` (R112). -/
  | clearPos
  /-- `TIDX <- TIDX + 1` (R112). -/
  | nextChar
  /-- `LAST_ADDR <- 0xC0 + 2*POS; LAST_SEG <- SEG(d)` (R114). -/
  | digit (d : Fin 10)
  /-- `LAST_ADDR <- 0xC0 + 2*POS; LAST_SEG <- 0x00` (R115). -/
  | space
  /-- `LAST_SEG <- LAST_SEG | 0x80` (R116). -/
  | point
  /-- `POS <- POS + 1` (R114, R115). -/
  | advance
  deriving DecidableEq, Repr

/-- An event to perform (00_scope.md R9). -/
inductive LineOp where
  /-- `Mode(p, OUT)`. -/
  | mode (p : PinId)
  /-- `Drive(CLK, b)`. -/
  | clk (b : Bool)
  /-- `Drive(STB, b)`. -/
  | stb (b : Bool)
  /-- `Drive(DIO, TXB[BITI])`. -/
  | dioTx
  /-- `SetDir(IN)`. -/
  | dirIn
  /-- `SetDir(OUT)`. -/
  | dirOut
  /-- `b <- Sample()`. -/
  | sample
  /-- `Wait()`. -/
  | wait
  /-- `Done(r)`, which ends the operation. -/
  | done
  deriving DecidableEq, Repr

/-- Whether an event is the last one of a `writeByte` or `readByte` (20_memory.md R55). -/
inductive Mark where
  | none
  | byteOut
  | byteIn
  deriving DecidableEq, Repr

/-- One element of an operation's event sequence (10_state.md R27): the register updates before it, the event, and
whether it completes a byte. -/
structure Micro where
  pre : List RegOp
  op : LineOp
  mark : Mark := .none
  deriving DecidableEq, Repr

/-- An event with no register update and no byte completed. -/
def Micro.plain (o : LineOp) : Micro := { pre := [], op := o }

/-- The same sequence with register updates before its first event. -/
def withPre (pre : List RegOp) : List Micro → List Micro
  | [] => []
  | m :: ms => { m with pre := pre ++ m.pre } :: ms

/-! ### Event sequences -/

/-- One bit period of `writeByte` (R90). -/
def writeBit (i : Fin 8) : List Micro :=
  [{ pre := [.bit i], op := .clk false }, .plain .dioTx, .plain .wait, .plain (.clk true),
   { pre := [], op := .wait, mark := if i = 7 then .byteOut else .none }]

/-- `writeByte(v)` (R90): 40 events, least significant bit first. -/
def writeByteSeq (src : Src) : List Micro :=
  withPre [.loadTx src] ((List.finRange 8).flatMap writeBit)

/-- One bit period of `readByte` (R91). RXB is cleared before the first; R91 writes RXB at the end of each period, after
its last `Wait`, so that update stands before the first event of the next (60_exceptions.md R160). -/
def readBit (i : Fin 8) : List Micro :=
  [{ pre := [if i = 0 then .clearRx else .orRx, .bit i], op := .clk false }, .plain .sample, .plain .wait, .plain (.clk true),
   { pre := [], op := .wait, mark := if i = 7 then .byteIn else .none }]

/-- `readByte()` (R91): 40 events, least significant bit first. The write of RXB that ends it has no event of its own:
it is `readByteEnd`, before the next event (R160). -/
def readByteSeq : List Micro := (List.finRange 8).flatMap readBit

/-- The register update of `readByte` after its last event (R91). -/
def readByteEnd : List RegOp := [.orRx]

/-- A byte of `transact` and the delay after it (R92). -/
def sendSeq (src : Src) : List Micro := writeByteSeq src ++ [.plain .wait]

/-- `transact(bs)` (R92). -/
def transactSeq (srcs : List Src) : List Micro :=
  [.plain (.stb false), .plain .wait] ++ srcs.flatMap sendSeq ++ [.plain (.stb true), .plain .wait]

/-! ### Performing one event -/

/-- The value of a source. -/
def Src.value (r : Datapath) : Src → Byte
  | .lit v => v
  | .lastAddr => r.lastAddr
  | .lastSeg => r.lastSeg

/-- The pins are three distinct configurable ones (41_command_layer.md R101). -/
def pinsGood (p : Params) (clk dio stb : PinId) : Bool :=
  clk != dio && dio != stb && clk != stb && p.configurable clk && p.configurable dio && p.configurable stb

/-- Changes the datapath registers. -/
def State.setRegs (r : Datapath) (s : State) : State := { s with engine := { s.engine with regs := r } }

/-- The pin check and the binding of INIT (R101, 60_exceptions.md R153). -/
def bindOp (clk dio stb : PinId) (s : State) : State :=
  if pinsGood s.params clk dio stb then
    let new : Pins := { clk := clk, dio := dio, stb := stb }
    { s with engine := { s.engine with bind := some new, released := releasedAfter s.engine new } }
  else raiseFault (.badPin clk dio stb) s

/-- `RXB | (zext_8(b) << i)` (R91): RXB with the sampled bit at BITI. -/
def receivedByte (r : Datapath) : Byte := r.rxb ||| (bitByte r.sampled <<< r.biti.val)

/-- Performs a register update. -/
def regOp (o : RegOp) (s : State) : State :=
  let r := s.engine.regs
  match o with
  | .bindPins c d t => bindOp c d t s
  | .dioReset => { s with engine := { s.engine with dir := .out, dio := .x } }
  | .loadTx src => s.setRegs { r with txb := src.value r }
  | .bit i => s.setRegs { r with biti := i }
  | .clearRx => s.setRegs { r with rxb := 0 }
  | .orRx => s.setRegs { r with rxb := receivedByte r }
  | .storeKb i => s.setRegs { r with kb := r.kb.set i r.rxb }
  | .clearAcc => s.setRegs { r with kacc := 0 }
  | .accKb i => s.setRegs { r with kacc := r.kacc ||| keyTerm r.kb[i] i }
  | .latchMask => { s with engine := { s.engine with keymask := some (r.kacc.extractLsb' 0 8) } }
  | .clearPos => s.setRegs { r with pos := 0, tidx := 0 }
  | .nextChar => s.setRegs { r with tidx := r.tidx + 1 }
  | .digit d => s.setRegs { r with lastAddr := digitAddr r.pos.val, lastSeg := s.params.seg d }
  | .space => s.setRegs { r with lastAddr := digitAddr r.pos.val, lastSeg := 0 }
  | .point => s.setRegs { r with lastSeg := pointByte r.lastSeg }
  | .advance => s.setRegs { r with pos := if h : r.pos.val < 8 then ⟨r.pos.val + 1, by omega⟩ else r.pos }

/-- `Mode(p, OUT)` (10_state.md R23, R24): the pin is an output; the level of the data line becomes X when the pin
is the data pin. -/
def modeOp (p : PinId) (s : State) : State :=
  let e := s.engine
  let dio := if (e.bind.map Pins.dio) = some p then Level.x else e.dio
  State.emit (.mode p) { s with engine := { e with pinmode := insertPin p e.pinmode, dio := dio } }

/-- `Drive(CLK, b)`. -/
def driveClk (b : Bool) (s : State) : State :=
  State.emit (.clk b) { s with engine := { s.engine with clk := .ofBool b } }

/-- `Drive(STB, 0)`: a frame opens (20_memory.md R55). With a frame already open, which only TRANSACT on its own can meet
(R185: frames do not nest), the open frame's items leave the view. DESIGN CHOICE (log 22), unsafe. -/
def strobeLow (s : State) : State :=
  State.emit (.stb false)
    { s with engine := { s.engine with stb := .low, openFrame := some [] }, device := s.device.frameOpens }

/-- `Drive(STB, 1)`: the open frame, if there is one, closes (R55). -/
def strobeHigh (s : State) : State :=
  State.emit (.stb true)
    { s with engine := { s.engine with stb := .high, openFrame := none, frames := s.engine.frames ++ s.engine.openFrame.toList }
             device := s.device.frameCloses s.params.timingMet }

/-- `Drive(DIO, b)`: needs direction OUT (00_scope.md R9, 60_exceptions.md R152). -/
def driveDio (b : Bool) (s : State) : State :=
  match s.engine.dir with
  | .out => State.emit (.dio b) { s with engine := { s.engine with dio := .ofBool b } }
  | .inp => raiseFault (.contention (.dio b)) s

/-- `b <- Sample()`: needs direction IN (R9, R152); the Device supplies b (42_wire_commands.md R142). -/
def sampleOp (s : State) : State :=
  match s.engine.dir with
  | .inp =>
    let d := s.env.draw
    State.emit (.sample d.1)
      { s with env := d.2, engine := { s.engine with regs := { s.engine.regs with sampled := d.1 } } }
  | .out => raiseFault (.contention .sample) s

/-- `SetDir(IN)`. -/
def dirIn (s : State) : State := State.emit .dirIn { s with engine := { s.engine with dir := .inp } }

/-- `SetDir(OUT)`: the level of the data line becomes X (10_state.md R23). -/
def dirOut (s : State) : State := State.emit .dirOut { s with engine := { s.engine with dir := .out, dio := .x } }

/-- The result of the operation that completes: KEYMASK for READ_KEYS, none otherwise (41_command_layer.md R100). -/
def doneResult (e : Engine) : Option Byte := if e.cur = some .readKeys then e.keymask else none

/-- `Done(r)`, then `BUSY <- false` (R100); CUR and SEQ as before an operation (10_state.md R38), and the datapath
registers unspecified from here on (R25, R26, R38). -/
def finish (s : State) : State :=
  let s1 := State.log (.done (doneResult s.engine)) s
  { s1 with
    engine := { s1.engine with busy := false, cur := none, seq := 0, regs := Config.freeRegs s.env.fresh }
    env := { s.env with fresh := s.env.fresh + 1 } }

/-- Performs an event. -/
def lineOp (o : LineOp) (s : State) : State :=
  match o with
  | .mode p => modeOp p s
  | .clk b => driveClk b s
  | .stb b => if b then strobeHigh s else strobeLow s
  | .dioTx => driveDio (s.engine.regs.txb.getLsbD s.engine.regs.biti.val) s
  | .dirIn => dirIn s
  | .dirOut => dirOut s
  | .sample => sampleOp s
  | .wait => State.emit .wait s
  | .done => finish s

/-- A completed byte inside a frame enters the byte-level view and reaches, or comes from, the Device (R55, R130). The
view is one of the trace, so a byte read enters it with its last event, as the value R91 gives it (log 12). -/
def completed (m : Mark) (s : State) : State :=
  match m, s.engine.openFrame with
  | .byteOut, some f =>
    let v := s.engine.regs.txb
    { s with engine := { s.engine with openFrame := some (f ++ [.out v]) }, device := s.device.receives s.params.timingMet v }
  | .byteIn, some f =>
    let v := receivedByte s.engine.regs
    { s with engine := { s.engine with openFrame := some (f ++ [.inp v]) }, device := s.device.supplied s.params.timingMet v }
  | _, _ => s

/-- One engine step: the register updates, the event, the byte it completes. A fault raised on the way ends it. -/
def perform (m : Micro) (s : State) : State :=
  let s1 := m.pre.foldl (fun t o => regOp o t) s
  if s1.stopped then s1
  else
    let s2 := lineOp m.op s1
    if s2.stopped then s2 else completed m.mark s2

/-- Performs a sequence, the Device acting on each byte as it arrives; a fault stops it where it stands. -/
def runMicros : List Micro → State → State
  | [], s => s
  | m :: ms, s =>
    let s1 := settle (perform m s)
    if s1.stopped then s1 else runMicros ms s1

/-- A transport primitive on its own: its events, then the register updates after its last event, which no other event
follows here. A stopped engine performs nothing (60_exceptions.md R150). -/
def runTransport (ms : List Micro) (post : List RegOp) (s : State) : Host.Outcome State Fault Refusal :=
  if s.stopped then .fault .engineStopped
  else
    let s1 := runMicros ms s
    .next (if s1.stopped then s1 else post.foldl (fun t o => regOp o t) s1)

/-! ### Meanings -/

/-- WRITE_BYTE (R90). -/
def execWriteByte (v : Byte) (s : State) : Host.Outcome State Fault Refusal := runTransport (writeByteSeq (.lit v)) [] s

/-- READ_BYTE (R91); the result is in RXB. -/
def execReadByte (s : State) : Host.Outcome State Fault Refusal := runTransport readByteSeq readByteEnd s

/-- TRANSACT (R92). -/
def execTransact (bs : List Byte) (s : State) : Host.Outcome State Fault Refusal := runTransport (transactSeq (bs.map .lit)) [] s

end Sys2Proof.Machine
end

