-- ==== Sys2Proof/Machine/Command.lean ====
section
/-! DEFINITION. The Command Layer (spec 41_command_layer.md): the envelope, the event sequence each host operation
denotes, and the meanings of the six host operations. -/

namespace Sys2Proof.Machine

/-! ### Event sequences (10_state.md R27) -/

/-- `Done`, after register updates that no event follows (60_exceptions.md R160). -/
def doneSeq (pre : List RegOp) : List Micro := [{ pre := pre, op := .done }]

/-- CLEAR_BODY (R102): frame F1, then frame F5. -/
def clearBody : List Micro :=
  transactSeq [.lit 0x40#8] ++ transactSeq (.lit 0xC0#8 :: List.replicate Config.dispBytes (.lit 0x00#8))

/-- INIT (R101). -/
def initSeq (clk dio stb : PinId) : List Micro :=
  [{ pre := [.bindPins clk dio stb], op := .mode clk }, .plain (.mode dio), .plain (.mode stb),
   { pre := [.dioReset], op := .clk true }, .plain (.stb true)] ++ clearBody ++ doneSeq []

/-- CLEAR (R102). -/
def clearSeq : List Micro := clearBody ++ doneSeq []

/-- SET_BRIGHTNESS (R103): one frame F2. -/
def brightnessSeq (level : Byte) : List Micro := transactSeq [.lit (brightnessByte level)] ++ doneSeq []

/-- The frame of discrete LED `i` (R104): frame F4. -/
def ledSeq (mask : Byte) (i : Fin 8) : List Micro := transactSeq [.lit (ledAddr i.val), .lit (ledByte mask i.val)]

/-- SET_LEDS (R104): the mode frame, then the eight LEDs in ascending order. -/
def ledsSeq (mask : Byte) : List Micro :=
  transactSeq [.lit 0x40#8] ++ (List.finRange 8).flatMap (ledSeq mask) ++ doneSeq []

/-- Reading reply byte `i` (R108): `readByte` ends, and KB takes its result, within the step of the `Wait` after it
(60_exceptions.md R160). -/
def keyByteSeq (i : Fin 4) : List Micro := readByteSeq ++ [{ pre := readByteEnd ++ [.storeKb i], op := .wait }]

/-- The key-read frame (R107 to R109): frame F6. -/
def keyFrameSeq : List Micro :=
  [.plain (.stb false), .plain .wait] ++ writeByteSeq (.lit 0x42#8) ++ [.plain .wait, .plain .dirIn]
    ++ (List.finRange 4).flatMap keyByteSeq ++ [.plain .dirOut, .plain (.stb true), .plain .wait]

/-- READ_KEYS (R105): the address frame (R106), the key-read frame, and the combination (R110). -/
def keysSeq : List Micro :=
  transactSeq [.lit 0xC0#8] ++ keyFrameSeq ++ doneSeq ([.clearAcc] ++ (List.finRange 4).map .accKb ++ [.latchMask])

/-- The frame of the pair (LAST_ADDR, LAST_SEG) (R114 to R116): frame F4, after register updates. -/
def placeSeq (pre : List RegOp) : List Micro := withPre pre (transactSeq [.lastAddr, .lastSeg])

/-- The scan of `showDigits` (R112, R117) from position `pos`; `pend` are register updates that wait for the next
event (60_exceptions.md R160). -/
def scanSeq : List Byte → Nat → List RegOp → List Micro
  | [], _, pend => doneSeq pend
  | c :: cs, pos, pend =>
    if c = 0x00#8 ∨ Config.digits ≤ pos then doneSeq pend
    else
      match charClass c with
      | .digit d => placeSeq (pend ++ [.nextChar, .digit d]) ++ scanSeq cs (pos + 1) [.advance]
      | .space => placeSeq (pend ++ [.nextChar, .space]) ++ scanSeq cs (pos + 1) [.advance]
      | .point =>
        if 0 < pos then placeSeq (pend ++ [.nextChar, .point]) ++ scanSeq cs pos []
        else scanSeq cs pos (pend ++ [.nextChar])
      | .other => scanSeq cs pos (pend ++ [.nextChar])

/-- SHOW_DIGITS (R112): the mode frame (R113), then the scan. -/
def showSeq (text : List Byte) : List Micro := transactSeq [.lit 0x40#8] ++ scanSeq text 0 [.clearPos]

/-- The event sequence a host operation denotes, its `Done` the last element (10_state.md R27). -/
def opSeq : HostOp → List Micro
  | .init c d s => initSeq c d s
  | .clear => clearSeq
  | .setBrightness l => brightnessSeq l
  | .setLeds m => ledsSeq m
  | .readKeys => keysSeq
  | .showDigits t => showSeq t

/-! ### The envelope (R100) -/

/-- `Issue(op); BUSY <- true; CUR <- op; SEQ <- 0`. -/
def issueOp (o : HostOp) (s : State) : State :=
  let s1 := State.log (.issue o) s
  { s1 with engine := { s1.engine with busy := true, cur := some o, seq := 0 } }

/-- The checks of the envelope, the first that fails deciding the fault (R100, 60_exceptions.md R156), then the
acceptance of the operation. -/
def envelope (r : Request) (s : State) : State :=
  if s.engine.busy then raiseFault (.busy r) s
  else
    match r with
    | .reserved tag => raiseFault (.reservedOp tag) s
    | .op o => if !o.isInit && s.engine.bind.isNone then raiseFault (.notInitialized o) s else issueOp o s

/-- A host operation from the command's acceptance to its `Done`, or to the fault that stops it. The engine steps of
60_exceptions.md R160 are `Machine.step`; this is what they amount to (log 1). -/
def runHostOp (o : HostOp) (s : State) : Host.Outcome State Fault Refusal :=
  if s.stopped then .fault .engineStopped
  else
    let s1 := envelope (.op o) s
    .next (if s1.stopped then s1 else runMicros (opSeq o) s1)

/-! ### Meanings -/

/-- INIT (R101). -/
def execInit (clk dio stb : PinId) (s : State) : Host.Outcome State Fault Refusal := runHostOp (.init clk dio stb) s

/-- CLEAR (R102). -/
def execClear (s : State) : Host.Outcome State Fault Refusal := runHostOp .clear s

/-- SET_BRIGHTNESS (R103). -/
def execSetBrightness (level : Byte) (s : State) : Host.Outcome State Fault Refusal := runHostOp (.setBrightness level) s

/-- SET_LEDS (R104). -/
def execSetLeds (mask : Byte) (s : State) : Host.Outcome State Fault Refusal := runHostOp (.setLeds mask) s

/-- READ_KEYS (R105 to R111). -/
def execReadKeys (s : State) : Host.Outcome State Fault Refusal := runHostOp .readKeys s

/-- SHOW_DIGITS (R112 to R118). -/
def execShowDigits (text : List Byte) (s : State) : Host.Outcome State Fault Refusal := runHostOp (.showDigits text) s

end Sys2Proof.Machine
end

