-- ==== Sys2Proof/Machine/Dispatch.lean ====
section
/-! DEFINITION. One arm per instruction, each one call of its meaning. -/

namespace Sys2Proof.Machine

def exec (i : Instr) (s : State) : Host.Outcome State Fault Refusal :=
  match i with
  | .init clk dio stb => Sys2Proof.Machine.execInit clk dio stb s
  | .clear => Sys2Proof.Machine.execClear s
  | .setBrightness level => Sys2Proof.Machine.execSetBrightness level s
  | .setLeds mask => Sys2Proof.Machine.execSetLeds mask s
  | .readKeys => Sys2Proof.Machine.execReadKeys s
  | .showDigits text => Sys2Proof.Machine.execShowDigits text s
  | .writeByte v => Sys2Proof.Machine.execWriteByte v s
  | .readByte => Sys2Proof.Machine.execReadByte s
  | .transact bs => Sys2Proof.Machine.execTransact bs s
  | .dataWriteAutoinc => Sys2Proof.Machine.execDataWriteAutoinc s
  | .readKeysCmd => Sys2Proof.Machine.execReadKeysCmd s
  | .displayOff => Sys2Proof.Machine.execDisplayOff s
  | .displayOn b => Sys2Proof.Machine.execDisplayOn b s
  | .setAddress n => Sys2Proof.Machine.execSetAddress n s

end Sys2Proof.Machine
end

