-- ==== Sys2Proof/Machine/Sequencer.lean ====
section
/-! DEFINITION. What one step does for each agent: the engine's sequencer (spec 60_exceptions.md R160), the command
port, and the acts of the host and the environment. -/

namespace Sys2Proof.Machine

/-- A busy engine performs the event of CUR at SEQ (10_state.md R27, 60_exceptions.md R160). -/
def tick (s : State) : Host.Outcome State Fault Refusal :=
  match s.engine.cur with
  | none => .fault .badSequence
  | some o =>
    match (opSeq o)[s.engine.seq]? with
    | none => .fault .badSequence
    | some m => .next (perform m s)

/-- The command at the port, as the envelope sees it (30_encoding.md R70, R72). -/
def Command.request (c : Command) : Request :=
  match decodePort c with
  | .ok o => .op o
  | .error _ => .reserved c.tag

/-- The engine takes the command at the port: it is accepted with `Issue`, or a fault is raised (R100, R160). -/
def accept (c : Command) (s : State) : State := envelope (Command.request c) { s with host := { s.host with port := none } }

/-- Is an act with this time due (70_reset_and_hazards.md R184)? -/
def isDue (due : Option Nat) (e : Engine) : Bool :=
  !e.busy ||
    match due with
    | none => false
    | some k => decide (k ≤ e.seq)

/-- Is the act due? A power-on is always due for a stopped engine, and nothing else is (60_exceptions.md R159). -/
def HostAct.isDue (a : HostAct) (e : Engine) : Bool :=
  match a with
  | .call d _ => !e.fault.any && Machine.isDue d e
  | .buttons d _ => !e.fault.any && Machine.isDue d e
  | .powerOn d => e.fault.any || Machine.isDue d e

/-- The act is one of a host that waits for `Done` (R184). -/
def HostAct.waitsForDone (a : HostAct) : Bool :=
  match a with
  | .call d _ => d.isNone
  | .buttons d _ => d.isNone
  | .powerOn d => d.isNone

/-- Performs the act, the rest of the script left. -/
def hostAct (a : HostAct) (rest : List HostAct) (s : State) : State :=
  match a with
  | .call _ c => { s with host := { port := some c, script := rest } }
  | .buttons _ b => { s with env := { s.env with btn := b }, host := { s.host with script := rest } }
  | .powerOn _ => State.powerOn { s with host := { s.host with script := rest } }

/-- The act that is due now, with the rest of the script. -/
def dueAct (s : State) : Option (HostAct × List HostAct) :=
  match s.host.script with
  | [] => none
  | a :: rest => if a.isDue s.engine then some (a, rest) else none

/-- The engine's or the host's step, when the Device has nothing to act on (log 4). -/
def agentStep (s : State) : Host.Outcome State Fault Refusal :=
  if s.stopped then
    match dueAct s with
    | some (a, rest) => .next (hostAct a rest s)
    | none => .fault .engineStopped
  else
    match s.host.port with
    | some c => .next (accept c s)
    | none =>
      match dueAct s with
      | some (a, rest) => .next (hostAct a rest s)
      | none => if s.engine.busy then tick s else .next s

/-- Places the code where the next step takes it: a command at the port with no byte pending at the Device, or a
byte pending at the Device in a frame that has just opened. -/
def placeCode (c : Code) (s : State) : State :=
  match c with
  | .port c => { s with host := { s.host with port := some c }, device := { s.device with rx := none } }
  | .wire v => { s with device := { s.device with rx := some v, frame := some [] } }

end Sys2Proof.Machine
end

