-- ==== Sys2Proof/Machine/Step.lean ====
section
/-! DEFINITION. One step of the machine, and how a word of the opcode table is placed for it. -/

namespace Sys2Proof.Machine

/-- One step (spec 60_exceptions.md R160, log 4). The Device acts at once on a byte that has arrived; otherwise the
engine or the host moves. -/
def step (s : State) : Host.Outcome State Fault Refusal :=
  match s.device.rx with
  | some v => deviceStep v s
  | none => agentStep s

/-- The state with a word of spec/opcode_table.json placed where the next step takes it. -/
def State.withFetchWord (s : State) (nbits w : Nat) : State := placeCode (tableCode nbits w) s

end Sys2Proof.Machine
end

