-- ==== Sys2Proof/Machine/Display.lean ====
section
/-! DEFINITION. What the display shows (spec 42_wire_commands.md R139). -/

namespace Sys2Proof.Machine

/-- What is shown at one place: nothing is known of it, it is dark, or the Device drives it with a value. -/
inductive Shown (α : Type) where
  | unknown
  | dark
  | lit (a : α)
  deriving DecidableEq, Repr

/-- While DON = false nothing is shown; while DON or the byte is UNKNOWN, what is shown is unknown (R139). -/
def Device.shows (d : Device) (a : Nat) : Shown Byte :=
  match d.don, d.disp.read a with
  | some false, _ => .dark
  | some true, some v => .lit v
  | _, _ => .unknown

/-- The segment pattern, decimal point in bit 7, at digit position `p`: address 2p (R139). -/
def Device.digit (d : Device) (p : Fin 8) : Shown Byte := d.shows (2 * p.val)

/-- Discrete LED `i`: bit 0 of address 2i + 1 (R139). -/
def Device.led (d : Device) (i : Fin 8) : Shown Bool :=
  match d.shows (2 * i.val + 1) with
  | .unknown => .unknown
  | .dark => .dark
  | .lit v => .lit (v.getLsbD 0)

end Sys2Proof.Machine
end

