-- ==== Sys2Proof/Machine/Timing.lean ====
section
/-! DEFINITION. The time model (spec 70_reset_and_hazards.md R180): lower bounds only. -/

namespace Sys2Proof.Machine

/-- Is the event a `Wait`? -/
def Event.isWait (e : Event) : Bool := e == .wait

/-- The number of `Wait` events (R187). -/
def waits (evs : List Event) : Nat := evs.countP Event.isWait

/-- A timing of a list of events: each with its duration, a whole number of an unnamed unit. R180 gives durations neither
a type nor a unit. DESIGN CHOICE (log 21), unsafe. -/
abbrev Timing := List (Event × Nat)

/-- R180: each `Wait` lasts at least T_DELAY; every other event at least 0; no upper bound. -/
def Timing.admissible (p : Params) (t : Timing) : Bool := t.all fun e => !e.1.isWait || decide (p.tDelay ≤ e.2)

/-- The time a timed list of events takes. -/
def Timing.duration (t : Timing) : Nat := (t.map Prod.snd).sum

end Sys2Proof.Machine
end

