-- ==== Sys2Proof/Safety.lean ====
section
/-! DEFINITION. What counts as a safe run, in the terms claims use: the premises the spec names, the state an
operation starts from, and the invariant of the machine. -/

namespace Sys2Proof.Machine

/-- "Every claim takes 'FAULT is empty' as a premise" (spec 60_exceptions.md R150): the run has met no use the source
gives no meaning to. -/
abbrev Safe (s : State) : Prop := s.stopped = false

/-- The premise `TimingMet` (42_wire_commands.md R130). -/
abbrev TimingMet (s : State) : Prop := s.params.timingMet = true

/-- Between operations (10_state.md R22, R23, 70_reset_and_hazards.md R185): no fault, not busy, DIO an output, no
frame open and no byte on its way to the Device. -/
structure Ready (s : State) : Prop where
  safe : Safe s
  idle : s.engine.busy = false
  dirOut : s.engine.dir = .out
  noRx : s.device.rx = none
  noFrame : s.engine.openFrame = none
  noDeviceFrame : s.device.frame = none

/-- The state accepts the operation and the operation completes: between operations, bound for the five operations
other than INIT (41_command_layer.md R100), three distinct configurable pins for INIT (R101). -/
structure Accepts (s : State) (o : HostOp) : Prop extends Ready s where
  bound : o.isInit = false → s.engine.bind.isSome = true
  pins : ∀ c d t, o = .init c d t → pinsGood s.params c d t = true

/-- A host that waits for `Done` (70_reset_and_hazards.md R184): all the acts to come wait for it, and no command stands
at the port of a busy engine. -/
abbrev WaitingHost (s : State) : Prop :=
  (∀ a ∈ s.host.script, a.waitsForDone = true) ∧ (s.host.port.isSome = true → s.engine.busy = false)

/-! ### The event sequences the rules write out -/

/-- The events of one bit period of `writeByte` (40_bit_transport.md R90). -/
def writeBitEvents (b : Bool) : List Event := [.clk false, .dio b, .wait, .clk true, .wait]

/-- The events of one bit period of `readByte` (R91). -/
def readBitEvents (b : Bool) : List Event := [.clk false, .sample b, .wait, .clk true, .wait]

/-- The events of `writeByte(v)` (R90). -/
def writeByteEvents (v : Byte) : List Event := (List.range 8).flatMap fun i => writeBitEvents (v.getLsbD i)

/-- The events of `readByte()` with these samples (R91). -/
def readByteEvents (bs : List Bool) : List Event := bs.flatMap readBitEvents

/-- The events of `transact(bs)` (R92). -/
def transactEvents (bs : List Byte) : List Event :=
  [.stb false, .wait] ++ bs.flatMap (fun v => writeByteEvents v ++ [.wait]) ++ [.stb true, .wait]

/-- The events of the key-read frame (R107 to R109) with these answers. -/
def keyFrameEvents (ans : Nat → Bool) : List Event :=
  [.stb false, .wait] ++ writeByteEvents 0x42#8 ++ [.wait, .dirIn]
    ++ (List.range 4).flatMap (fun i => readByteEvents ((List.range 8).map fun j => ans (8 * i + j)) ++ [.wait])
    ++ [.dirOut, .stb true, .wait]

/-- The items of the key-read frame. -/
def keyFrame (reply : Nat → Byte) : Frame := .out 0x42#8 :: (List.range 4).map fun i => .inp (reply i)

/-! ### The bytes the rules write out -/

/-- The pairs (position, segment byte) that `showDigits` transacts (41_command_layer.md R112 to R117): from position
`pos`, `last` being the segment byte most recently sent. -/
def showPairs (seg : Fin 10 → Byte) : List Byte → Nat → Byte → List (Nat × Byte)
  | [], _, _ => []
  | c :: cs, pos, last =>
    if c = 0x00#8 ∨ 8 ≤ pos then []
    else if h : 48 ≤ c.toNat ∧ c.toNat - 48 < 10 then
      (pos, seg ⟨c.toNat - 48, h.2⟩) :: showPairs seg cs (pos + 1) (seg ⟨c.toNat - 48, h.2⟩)
    else if c = 0x20#8 then (pos, 0x00#8) :: showPairs seg cs (pos + 1) 0x00#8
    else if c = 0x2E#8 ∧ 0 < pos then (pos - 1, last ||| 0x80#8) :: showPairs seg cs pos (last ||| 0x80#8)
    else showPairs seg cs pos last

/-- All the pairs of a text. -/
def textPairs (p : Params) (text : List Byte) : List (Nat × Byte) := showPairs p.seg text 0 0x00#8

/-- The bytes of the frame of a pair: the address byte `0xC0 + 2*position`, the segment byte. -/
def pairBytes (q : Nat × Byte) : List Byte := [0xC0#8 + BitVec.ofNat 8 (2 * q.1), q.2]

/-- The bytes of the frame of LED `i` (R104). -/
def ledBytes (mask : Byte) (i : Nat) : List Byte := [0xC1#8 + BitVec.ofNat 8 (2 * i), if mask.getLsbD i then 0x01#8 else 0x00#8]

/-- The bytes of a full write of zeros (R102). -/
def zeroBytes : List Byte := 0xC0#8 :: List.replicate 16 0x00#8

/-- A frame of sent bytes only. -/
def sentFrame (bs : List Byte) : Frame := bs.map Item.out

/-! ### The Device's answers (42_wire_commands.md R140, R142) -/

/-- The Device's `k`-th answer from here on: from the list of answers, or a free value past its end. -/
def Env.answer (v : Env) (k : Nat) : Bool :=
  match v.draws[k]? with
  | some b => b
  | none => Config.freeDraw (v.fresh + (k - v.draws.length))

/-- The environment after `n` answers. -/
def Env.answered (v : Env) (n : Nat) : Env := { v with draws := v.draws.drop n, fresh := v.fresh + (n - v.draws.length) }

/-- The byte whose bit `j` is `f j`. -/
def byteOf (f : Nat → Bool) : Byte := (List.range 8).foldl (fun r j => r ||| (bitByte (f j) <<< j)) 0#8

/-- Reply byte `i` of a key read that starts here: its bit `j` is answer `8 i + j` (R140). -/
def Env.reply (v : Env) (i : Nat) : Byte := byteOf fun j => v.answer (8 * i + j)

/-! ### The key-scan premise (R143) -/

/-- Reply byte `i` when each byte carries only its two buttons: `zext_8(BTN[i+1]) | (zext_8(BTN[i+5]) << 4)`. -/
def idealReply (btn : BitVec 8) (i : Nat) : Byte :=
  bitByte (btn.getLsbD i) ||| (bitByte (btn.getLsbD (i + 4)) <<< 4)

/-- The 32 sample bits of a reply, in the order they are sampled (R140, 20_memory.md R50). -/
def idealBits (btn : BitVec 8) : List Bool :=
  (List.range 4).flatMap fun i => (List.range 8).map fun j => (idealReply btn i).getLsbD j

/-- The premise `IdealKeyReply(BTN)`: the next 32 answers of the Device are the ideal reply to the buttons. -/
abbrev IdealKeyReply (s : State) : Prop := s.env.draws.take 32 = idealBits s.env.btn

/-! ### The invariant -/

/-- The part of the engine the direction and framing rules speak of (R182, R185). -/
structure Ctl where
  clk : Level
  stb : Level
  dir : Dir
  opened : Bool
  deriving DecidableEq, Repr

/-- Read off the engine. -/
def Engine.ctl (e : Engine) : Ctl := { clk := e.clk, stb := e.stb, dir := e.dir, opened := e.openFrame.isSome }

/-- CLK and STB high, DIO an output, no frame open: the lines between operations (R22, R23). -/
def Ctl.idle : Ctl := { clk := .high, stb := .high, dir := .out, opened := false }

/-- What one element of an event sequence does to it. -/
def Ctl.after (c : Ctl) (m : Micro) : Ctl :=
  let c := if m.pre.contains .dioReset then { c with dir := .out } else c
  match m.op with
  | .clk b => { c with clk := .ofBool b }
  | .stb b => { c with stb := .ofBool b, opened := !b }
  | .dirIn => { c with dir := .inp }
  | .dirOut => { c with dir := .out }
  | .mode _ | .dioTx | .sample | .wait | .done => c

/-- What a sequence does to it. -/
def Ctl.walk (c : Ctl) (ms : List Micro) : Ctl := ms.foldl Ctl.after c

/-- The lines of a busy engine at SEQ: those an operation started between operations has reached. INIT may start from
the levels of power-on. -/
structure MidOp (e : Engine) (o : HostOp) : Prop where
  start : ∃ c : Ctl, c.dir = .out ∧ c.opened = false ∧ (o.isInit = false → c = Ctl.idle) ∧ e.ctl = c.walk ((opSeq o).take e.seq)
  bound : (o.isInit = false ∨ 0 < e.seq) → e.bind.isSome = true

/-- The lines of an idle engine: DIO an output and no frame open; CLK and STB high once bound (R22, R23). -/
structure AtRest (e : Engine) : Prop where
  dir : e.dir = .out
  noFrame : e.openFrame = none
  high : e.bind.isSome = true → e.clk = .high ∧ e.stb = .high

/-- The lines and the sequencer agree. -/
def LinesOk (e : Engine) : Prop :=
  match e.cur with
  | none => AtRest e
  | some o => MidOp e o

/-- The invariant every step keeps. -/
structure Inv (s : State) : Prop where
  /-- Display memory is in canonical form. -/
  disp : Memory.wf s.device.disp = true
  /-- The pin tables are in canonical form. -/
  pinmode : s.engine.pinmode.Pairwise (· < ·)
  released : s.engine.released.Pairwise (fun a b => a.1 < b.1)
  /-- Not busy: no current operation (R27, R38), and no byte on its way. -/
  idle : s.engine.busy = false → s.engine.cur = none ∧ s.engine.seq = 0 ∧ s.device.rx = none
  /-- Busy: SEQ is inside the event sequence of the current operation (R27). -/
  busy : s.engine.busy = true → ∃ o, s.engine.cur = some o ∧ s.engine.seq < (opSeq o).length
  /-- The Device sees a frame exactly while the engine has one open (20_memory.md R55). -/
  frames : s.device.frame.isSome = s.engine.openFrame.isSome
  /-- CONTENTION is never raised (60_exceptions.md R152). -/
  noContention : s.engine.fault.contention = false
  /-- Unless a fault has stopped the engine, the lines are where the sequencer is. -/
  lines : Safe s → LinesOk s.engine

end Sys2Proof.Machine
end

