-- ==== Sys2Proof/Certificates/Slice0/Obligations.lean ====
section
/-! DEFINITION. The statements for the provers: one `def Obligations.<Name> : Prop` each, and the reference
definitions they are written with, which say what the rules of spec/ say without the model's event sequences. -/

open Sys2Proof Sys2Proof.Machine

/-! ### Reference definitions -/

/-- The six frame shapes of spec 30_encoding.md R78. -/
inductive FrameShape : Frame → Prop where
  /-- F1. -/
  | mode : FrameShape [.out 0x40#8]
  /-- F2. -/
  | displayOff : FrameShape [.out 0x80#8]
  | displayOn (b : BitVec 3) : FrameShape [.out (0x88#8 + b.zeroExtend 8)]
  /-- F3. -/
  | addressOnly : FrameShape [.out 0xC0#8]
  /-- F4. -/
  | singleWrite (n : BitVec 4) (v : Byte) : FrameShape [.out (0xC0#8 + n.zeroExtend 8), .out v]
  /-- F5. -/
  | fullWrite : FrameShape (.out 0xC0#8 :: List.replicate 16 (.out 0x00#8))
  /-- F6. -/
  | keyRead (r0 r1 r2 r3 : Byte) : FrameShape [.out 0x42#8, .inp r0, .inp r1, .inp r2, .inp r3]

/-- Every half-period of the clock has a `Wait` (70_reset_and_hazards.md R181). `st`: the last clock level and
whether a `Wait` has come since. -/
def halfPeriods : Option (Bool × Bool) → List Event → Bool
  | _, [] => true
  | st, .clk b :: es =>
    (match st with
      | none => true
      | some q => q.1 == b || q.2) && halfPeriods (some (b, false)) es
  | st, .wait :: es => halfPeriods (st.map fun q => (q.1, true)) es
  | st, _ :: es => halfPeriods st es

/-- The direction rules (a), (b), (c) and (e) of R182, from a direction on. -/
def directions : Dir → List Event → Bool
  | d, [] => d == .out
  | d, .dio _ :: es => d == .out && directions d es
  | d, .sample _ :: es => d == .inp && directions d es
  | d, .done _ :: es => d == .out && directions d es
  | d, .stb true :: es => d == .out && directions d es
  | _, .dirIn :: es => directions .inp es
  | _, .dirOut :: es => directions .out es
  | d, _ :: es => directions d es

/-- Frame integrity (R185), from inside or outside a frame on: frames do not nest, data moves only inside a frame,
and no operation starts or ends inside one. -/
def framed : Bool → List Event → Bool
  | f, [] => !f
  | f, .stb false :: es => !f && framed true es
  | _, .stb true :: es => framed false es
  | f, .issue _ :: es => !f && framed f es
  | f, .done _ :: es => !f && framed f es
  | f, .mode _ :: es => !f && framed f es
  | f, .dio _ :: es => f && framed f es
  | f, .sample _ :: es => f && framed f es
  | f, .dirIn :: es => f && framed f es
  | f, .dirOut :: es => f && framed f es
  | f, _ :: es => framed f es

/-- The counts of R187 without `Issue` and `Done`: frames, events, `Wait` events. -/
def opCounts (p : Params) : HostOp → Nat × Nat × Nat
  | .init _ _ _ => (2, 751, 310)
  | .clear => (2, 746, 310)
  | .setBrightness _ => (1, 45, 19)
  | .setLeds _ => (9, 733, 307)
  | .readKeys => (2, 256, 106)
  | .showDigits t => (1 + (textPairs p t).length, 45 + 86 * (textPairs p t).length, 19 + 36 * (textPairs p t).length)

/-! ### Encodings -/

/-- Decoding and encoding agree (R70, R73 to R75): an instruction that has an encoding is read back from it, at every
operand value; a wire byte that is an instruction is the byte of that instruction, so no byte has two readings; every
instruction but the three transport primitives has an encoding. -/
def Obligations.DecodeOfEncodeIsTheInstruction : Prop :=
  (∀ (i : Instr) (c : Code), encode i = some c → decode c = .ok i) ∧
  (∀ (v : Byte) (i : Instr), decode (.wire v) = .ok i → encode i = some (.wire v)) ∧
  (∀ i : Instr, encode i = none ↔ (∃ v, i = .writeByte v) ∨ i = .readByte ∨ ∃ bs, i = .transact bs)

/-- Words written out from the encodings of R70 and R73. -/
def Obligations.WrittenWordsDecode : Prop :=
  decode (.wire 0b01000000#8) = .ok .dataWriteAutoinc ∧ decode (.wire 0b01000010#8) = .ok .readKeysCmd ∧
  decode (.wire 0b10000000#8) = .ok .displayOff ∧ decode (.wire 0b10001101#8) = .ok (.displayOn 0b101#3) ∧
  decode (.wire 0b11001011#8) = .ok (.setAddress 0b1011#4) ∧
  decode (.port { tag := 0b000#3, clk := 7, dio := 8, stb := 9 }) = .ok (.init 7 8 9) ∧
  decode (.port { tag := 0b001#3 }) = .ok .clear ∧
  decode (.port { tag := 0b010#3, level := 0xC8#8 }) = .ok (.setBrightness 0xC8#8) ∧
  decode (.port { tag := 0b011#3, mask := 0x05#8 }) = .ok (.setLeds 0x05#8) ∧
  decode (.port { tag := 0b100#3 }) = .ok .readKeys ∧
  decode (.port { tag := 0b101#3, text := [0x31#8, 0x2E#8] }) = .ok (.showDigits [0x31#8, 0x2E#8])

/-! ### Steps -/

/-- The Device's step runs the wire command it has received as the first byte of a frame (42_wire_commands.md R130). That
the Device acts in a step of its own, before any other agent, is the model's choice (log entry 4). -/
def Obligations.StepRunsReceivedWireCommand : Prop :=
  ∀ (s : State) (v : Byte) (i : Instr),
    s.device.rx = some v → s.device.frame = some [] → decode (.wire v) = .ok i →
      step s = exec i { s with device := { s.device with rx := none } }

/-- The steps that follow the arrival of a command run the host operation it decodes to, and nothing else: after some
number of steps the machine is where `exec` says. The host's script must hold no act that is due before `Done`. That
`exec` is the whole operation and `step` one event of it (R160) is the model's choice (log entries 1 and 4). -/
def Obligations.StepsRunTheHostOperation : Prop :=
  ∀ (s : State) (c : Command) (o : HostOp),
    Safe s → s.device.rx = none → s.host.port = some c → decodePort c = .ok o →
    (∀ a ∈ s.host.script.head?, a.waitsForDone = true) →
      ∃ n, Host.Core.run Sys2Proof.core n s = exec o.instr { s with host := { s.host with port := none } }

/-- The step that accepts a command emits `Issue` and starts the operation (41_command_layer.md R100, R160). -/
def Obligations.AcceptedCommandIsIssued : Prop :=
  ∀ (s : State) (c : Command) (o : HostOp),
    Safe s → s.device.rx = none → s.engine.busy = false → s.host.port = some c → decodePort c = .ok o →
    (o.isInit = false → s.engine.bind.isSome = true) →
      step s = .next { s with
        engine := { s.engine with busy := true, cur := some o, seq := 0, trace := s.engine.trace ++ [.issue o] }
        host := { s.host with port := none } }

/-- A busy engine performs exactly one event per step and advances SEQ by 1, the last step emitting `Done`; the only
other thing that can happen is that the current operation is an INIT at SEQ 0 whose pins fail its check (R160, 10_state.md
R27; that the check fails in the step after `Issue` is log entry 14). -/
def Obligations.BusyStepPerformsOneEvent : Prop :=
  ∀ s : State, Inv s → Safe s → s.device.rx = none → s.host.port = none → dueAct s = none → s.engine.busy = true →
    ∃ t, step s = .next t ∧
      ((∃ e, t.engine.trace = s.engine.trace ++ [e] ∧ t.engine.busy = true ∧ t.engine.cur = s.engine.cur ∧
          t.engine.seq = s.engine.seq + 1 ∧ Safe t) ∨
       (∃ r, t.engine.trace = s.engine.trace ++ [.done r] ∧ t.engine.busy = false ∧ t.engine.cur = none ∧
          t.engine.seq = 0 ∧ Safe t) ∨
       (∃ c d p, s.engine.cur = some (.init c d p) ∧ pinsGood s.params c d p = false ∧ s.engine.seq = 0 ∧
          t.engine.fault.badPin = true ∧ t.engine.record = some (.badPin c d p) ∧ t.engine.trace = s.engine.trace ∧
          t.engine.busy = true ∧ t.engine.cur = s.engine.cur ∧ t.engine.seq = 0 ∧ t.engine.bind = s.engine.bind))

/-- With nothing to do, the engine waits (70_reset_and_hazards.md R170), at power-on too. That waiting is a step that
changes nothing is the model's choice (log entry 4). -/
def Obligations.IdleEngineWaits : Prop :=
  (∀ s : State, Safe s → s.device.rx = none → s.host.port = none → dueAct s = none → s.engine.busy = false →
    step s = .next s) ∧
  step State.reset = .next State.reset

/-- A host that waits for `Done` has its next call on the port once the engine is idle (R184). That placing a call is a
step of its own is the model's choice (log entry 4). -/
def Obligations.WaitingHostCallsWhenIdle : Prop :=
  ∀ (s : State) (c : Command) (rest : List HostAct),
    Safe s → s.device.rx = none → s.host.port = none → s.host.script = .call none c :: rest →
      (s.engine.busy = false → step s = .next { s with host := { port := some c, script := rest } }) ∧
      (s.engine.busy = true → step s = tick s)

/-! ### Reset and faults -/

/-- The power-on state (10_state.md R38, R170: values the spec itself decides, 92_eei_decisions.md D8), at reset and after
any power-on. -/
def Obligations.PowerOnState : Prop :=
  ∀ s : State, s = State.reset ∨ (∃ s0 : State, s = s0.powerOn) →
    s.engine.bind = none ∧ s.engine.pinmode = [] ∧ s.engine.clk = .x ∧ s.engine.stb = .x ∧ s.engine.dio = .x ∧
    s.engine.dir = .out ∧ s.engine.busy = false ∧ s.engine.cur = none ∧ s.engine.seq = 0 ∧
    (∀ c, s.engine.fault.has c = false) ∧ s.engine.trace = [] ∧ s.engine.keymask = none ∧
    (∀ a, s.device.disp.read a = none) ∧ s.device.dmode = .unknown ∧ s.device.daddr = none ∧
    s.device.don = none ∧ s.device.dbright = none

/-- FAULT is empty at power-on and no step removes an element, but for a power-on (R28, R170). -/
def Obligations.FaultBitsAreSticky : Prop :=
  (∀ c, State.reset.engine.fault.has c = false) ∧
  ∀ (s t : State) (c : FaultCode), step s = .next t → s.engine.fault.has c = true →
    t.engine.fault.has c = true ∨ (∃ d rest, s.host.script = .powerOn d :: rest ∧ t.engine = Engine.reset)

/-- A stopped engine takes no step, and performs neither a host operation nor a transport primitive (60_exceptions.md
R150). -/
def Obligations.StoppedEngineTakesNoStep : Prop :=
  ∀ s : State, s.stopped = true →
    (s.device.rx = none → (∀ d rest, s.host.script ≠ .powerOn d :: rest) → step s = .fault .engineStopped) ∧
    (∀ o : HostOp, exec o.instr s = .fault .engineStopped) ∧
    (∀ v, exec (.writeByte v) s = .fault .engineStopped) ∧ exec .readByte s = .fault .engineStopped ∧
    (∀ bs, exec (.transact bs) s = .fault .engineStopped)

/-- A host operation other than INIT before the first INIT raises NOT_INITIALIZED: no event, the operation recorded
(R151; the fault is the spec's own decision D9). -/
def Obligations.UnboundOperationRaisesNotInitialized : Prop :=
  ∀ (s : State) (o : HostOp), Safe s → s.engine.busy = false → o.isInit = false → s.engine.bind = none →
    exec o.instr s = .next { s with
      engine := { s.engine with
        fault := { s.engine.fault with notInitialized := true }
        record := some (.notInitialized o) } }

/-- INIT with equal pins or a pin that is not configurable is issued and then raises BAD_PIN: no `Mode` event, BIND
unchanged, BUSY kept, the pins recorded (R153). That equal pins fault is the spec's own decision D10; that SEQ is 0 and
nothing else is written is log entry 14. -/
def Obligations.InitWithBadPinsRaisesBadPin : Prop :=
  ∀ (s : State) (c d t : PinId), Safe s → s.engine.busy = false → s.device.rx = none →
    (c = d ∨ d = t ∨ c = t ∨ s.params.configurable c = false ∨ s.params.configurable d = false ∨
      s.params.configurable t = false) →
    exec (.init c d t) s = .next { s with
      engine := { s.engine with
        busy := true, cur := some (.init c d t), seq := 0
        trace := s.engine.trace ++ [.issue (.init c d t)]
        fault := { s.engine.fault with badPin := true }
        record := some (.badPin c d t) } }

/-- A command that arrives while the engine is busy raises BUSY and stops the running operation where it stands, the
command recorded, whatever its tag (R154, R156). -/
def Obligations.CommandWhileBusyRaisesBusy : Prop :=
  ∀ (s : State) (c : Command), Safe s → s.device.rx = none → s.engine.busy = true → s.host.port = some c →
    step s = .next { s with
      engine := { s.engine with
        fault := { s.engine.fault with busy := true }
        record := some (.busy (match decodePort c with | .ok o => .op o | .error _ => .reserved c.tag)) }
      host := { s.host with port := none } }

/-- A host whose acts all wait for `Done` never has a command at the port while the engine is busy, and no step of it
raises BUSY (R154, 70_reset_and_hazards.md R184). -/
def Obligations.WaitingHostNeverRaisesBusy : Prop :=
  ∀ s t : State, WaitingHost s → step s = .next t →
    WaitingHost t ∧ (t.engine.fault.busy = true → s.engine.fault.busy = true)

/-- A host operation issued while the engine is busy raises BUSY and has none of its own effect (R154). -/
def Obligations.OperationWhileBusyRaisesBusy : Prop :=
  ∀ (s : State) (o : HostOp), Safe s → s.engine.busy = true →
    exec o.instr s = .next { s with
      engine := { s.engine with fault := { s.engine.fault with busy := true }, record := some (.busy (.op o)) } }

/-- Tags 0b110 and 0b111 raise RESERVED_OP when the engine is not busy, bound or not: no event, the tag recorded
(30_encoding.md R72, R155, R156). The tags and the fault are the spec's own decision D2. -/
def Obligations.ReservedTagRaisesReservedOp : Prop :=
  ∀ (s : State) (c : Command), Safe s → s.device.rx = none → s.engine.busy = false → s.host.port = some c →
    (c.tag = 0b110#3 ∨ c.tag = 0b111#3) →
    step s = .next { s with
      engine := { s.engine with fault := { s.engine.fault with reservedOp := true }, record := some (.reservedOp c.tag) }
      host := { s.host with port := none } }

/-! ### Transport primitives -/

/-- `writeByte(v)` with DIO an output (40_bit_transport.md R90): 40 events, LSB first, CLK high, DIO at bit 7, and
nothing else of the engine; inside a frame the byte enters the byte-level view (20_memory.md R55) and the Device acts on it
(42_wire_commands.md R130). That without TimingMet the Device is UNKNOWN after one byte, where R130 says after the first
frame, is log entry 10; that the primitive runs on its own is log entry 16. -/
def Obligations.WriteByteEffect : Prop :=
  ∀ (s : State) (v : Byte), Safe s → s.engine.dir = .out → s.device.rx = none →
    ∃ d : Device,
      exec (.writeByte v) s = .next { s with
        engine := { s.engine with
          clk := .high, dio := .ofBool (v.getLsbD 7)
          regs := { s.engine.regs with txb := v, biti := 7 }
          seq := s.engine.seq + 40
          trace := s.engine.trace ++ writeByteEvents v
          openFrame := s.engine.openFrame.map (· ++ [.out v]) }
        device := d } ∧
      (s.engine.openFrame = none → d = s.device) ∧
      (s.engine.openFrame.isSome = true → s.params.timingMet = false → d = s.device.forget) ∧
      (s.engine.openFrame.isSome = true → s.params.timingMet = true →
        step { s with device := { s.device with rx := some v } } = .next { s with device := d })

/-- Bits travel least significant first, whichever side drives the line (20_memory.md R50): `writeByte(v)` drives bit i of
v in the i-th clock period; the bit `readByte` samples in the i-th clock period is bit i of its result. -/
def Obligations.BytesTravelLeastSignificantBitFirst : Prop :=
  (∀ (s : State) (v : Byte), Safe s → s.engine.dir = .out → s.device.rx = none →
    ∃ t, exec (.writeByte v) s = .next t ∧
      t.engine.trace = s.engine.trace ++
        (List.range 8).flatMap fun i => [.clk false, .dio (v.getLsbD i), .wait, .clk true, .wait]) ∧
  (∀ s : State, Safe s → s.engine.dir = .inp → s.device.rx = none →
    ∃ (t : State) (bits : List Bool), exec .readByte s = .next t ∧ bits.length = 8 ∧
      t.engine.trace = s.engine.trace ++ bits.flatMap (fun b => [.clk false, .sample b, .wait, .clk true, .wait]) ∧
      ∀ i b, bits[i]? = some b → t.engine.regs.rxb.getLsbD i = b)

/-- `writeByte(v)` with DIO an input raises CONTENTION at its first `Dio` event; `Clk(0)` stays in the trace, the
refused event is recorded (R152). -/
def Obligations.WriteByteWhileInputRaisesContention : Prop :=
  ∀ (s : State) (v : Byte), Safe s → s.engine.dir = .inp → s.device.rx = none →
    exec (.writeByte v) s = .next { s with
      engine := { s.engine with
        clk := .low
        regs := { s.engine.regs with txb := v, biti := 0 }
        seq := s.engine.seq + 1
        trace := s.engine.trace ++ [.clk false]
        fault := { s.engine.fault with contention := true }
        record := some (.contention (.dio (v.getLsbD 0))) } }

/-- `readByte()` with DIO an input (R91): 40 events, RXB assembled from the Device's eight answers LSB first, CLK high,
DIO_LVL and DIO_DIR unchanged; inside a frame the byte enters the byte-level view (20_memory.md R55) and no Device state
but the frame it is in changes (42_wire_commands.md R130, R141, the spec's decision D18). The answers come from a list (log
entry 8); the last write of RXB and the bit held until then are log entry 12; that without TimingMet the Device is UNKNOWN
after one byte is log entry 10; that the primitive runs on its own is log entry 16. -/
def Obligations.ReadByteEffect : Prop :=
  ∀ s : State, Safe s → s.engine.dir = .inp → s.device.rx = none →
    ∃ (r : Byte) (d : Device),
      exec .readByte s = .next { s with
        engine := { s.engine with
          clk := .high
          regs := { s.engine.regs with rxb := r, biti := 7, sampled := s.env.answer 7 }
          seq := s.engine.seq + 40
          trace := s.engine.trace ++ readByteEvents ((List.range 8).map s.env.answer)
          openFrame := s.engine.openFrame.map (· ++ [.inp r]) }
        device := d
        env := s.env.answered 8 } ∧
      (∀ j, j < 8 → r.getLsbD j = s.env.answer j) ∧
      (s.engine.openFrame = none → d = s.device) ∧
      (s.engine.openFrame.isSome = true → s.params.timingMet = false → d = s.device.forget) ∧
      (s.engine.openFrame.isSome = true → s.params.timingMet = true →
        d = { s.device with frame := s.device.frame.map (· ++ [.inp r]) })

/-- `readByte()` with DIO an output raises CONTENTION at its first `Sample`: no answer is taken, `Clk(0)` stays in the
trace (R152). -/
def Obligations.ReadByteWhileOutputRaisesContention : Prop :=
  ∀ s : State, Safe s → s.engine.dir = .out → s.device.rx = none →
    exec .readByte s = .next { s with
      engine := { s.engine with
        clk := .low
        regs := { s.engine.regs with rxb := 0x00#8, biti := 0 }
        seq := s.engine.seq + 1
        trace := s.engine.trace ++ [.clk false]
        fault := { s.engine.fault with contention := true }
        record := some (.contention .sample) } }

/-- `transact(bs)` (R92): strobe low, each byte with a delay after it, strobe high and the trailing delay; 4 + 41·n
events, 2 + 17·n of them `Wait`; the lines at the last byte's last bit; one frame in the byte-level view. With no bytes
it completes whatever the direction. From inside an open frame it rests on log entry 22, and on its own on log entry 16. -/
def Obligations.TransactEffect : Prop :=
  (∀ (s : State) (bs : List Byte), Safe s → s.device.rx = none → (s.engine.dir = .out ∨ bs = []) →
    ∃ d : Device,
      exec (.transact bs) s = .next { s with
        engine := { s.engine with
          clk := if bs = [] then s.engine.clk else .high
          stb := .high
          dio := match bs.getLast? with
            | none => s.engine.dio
            | some v => .ofBool (v.getLsbD 7)
          regs := match bs.getLast? with
            | none => s.engine.regs
            | some v => { s.engine.regs with txb := v, biti := 7 }
          seq := s.engine.seq + (4 + 41 * bs.length)
          trace := s.engine.trace ++ transactEvents bs
          frames := s.engine.frames ++ [sentFrame bs]
          openFrame := none }
        device := d } ∧
      d.frame = none ∧ (s.params.timingMet = false → d = { s.device.forget with frame := none })) ∧
  ∀ bs : List Byte, (transactEvents bs).length = 4 + 41 * bs.length ∧ waits (transactEvents bs) = 2 + 17 * bs.length

/-- `transact` of at least one byte with DIO an input raises CONTENTION at the first `Dio` event, inside the frame it
has opened (R92, R152; from inside an open frame that new frame is log entry 22). -/
def Obligations.TransactWhileInputRaisesContention : Prop :=
  ∀ (s : State) (v : Byte) (bs : List Byte), Safe s → s.engine.dir = .inp → s.device.rx = none →
    exec (.transact (v :: bs)) s = .next { s with
      engine := { s.engine with
        clk := .low, stb := .low
        regs := { s.engine.regs with txb := v, biti := 0 }
        seq := s.engine.seq + 3
        trace := s.engine.trace ++ [.stb false, .wait, .clk false]
        openFrame := some []
        fault := { s.engine.fault with contention := true }
        record := some (.contention (.dio (v.getLsbD 0))) }
      device := { s.device with frame := some [] } }

/-! ### The Device -/

/-- 0x40 (42_wire_commands.md R131): DMODE becomes WRITE_AUTOINC, nothing else changes but the frame. -/
def Obligations.DataWriteAutoincEffect : Prop :=
  ∀ s : State, exec .dataWriteAutoinc s =
    .next { s with device := { s.device with frame := some [.out 0x40#8], dmode := .writeAutoinc } }

/-- 0x42 (R132): DMODE becomes READ_KEYS, nothing else changes but the frame. -/
def Obligations.ReadKeysCmdEffect : Prop :=
  ∀ s : State, exec .readKeysCmd s =
    .next { s with device := { s.device with frame := some [.out 0x42#8], dmode := .readKeys } }

/-- 0x80 and 0x88 + b (R136, R137): DON, and DBRIGHT for display on; DISP and everything else unchanged. -/
def Obligations.DisplayControlEffect : Prop :=
  (∀ s : State, exec .displayOff s =
    .next { s with device := { s.device with frame := some [.out 0x80#8], don := some false } }) ∧
  (∀ (s : State) (b : BitVec 3), exec (.displayOn b) s =
    .next { s with device := { s.device with
      frame := some [.out (0x88#8 + b.zeroExtend 8)], don := some true, dbright := some b } })

/-- 0xC0 + n (R134): DADDR becomes n, nothing else changes but the frame. -/
def Obligations.SetAddressEffect : Prop :=
  ∀ (s : State) (n : BitVec 4), exec (.setAddress n) s =
    .next { s with device := { s.device with frame := some [.out (0xC0#8 + n.zeroExtend 8)], daddr := some n } }

/-- A data byte in a SET_ADDRESS frame (R133, R135): in write mode it is written at DADDR, every other byte of display
memory kept, and DADDR goes to the next address, UNKNOWN past 15; at UNKNOWN DADDR, or outside write mode, all of
display memory becomes UNKNOWN (the spec's own decision D20). That DMODE and DADDR are kept there is log entry 10. -/
def Obligations.DataByteIsWrittenAtDisplayAddress : Prop :=
  ∀ (s : State) (v : Byte) (n : BitVec 4) (rest : Frame), s.device.rx = some v →
    s.device.frame = some (.out (0xC0#8 + n.zeroExtend 8) :: rest) →
    (∀ a : BitVec 4, s.device.dmode = .writeAutoinc → s.device.daddr = some a →
      ∃ m : Memory,
        step s = .next { s with device := { s.device with
          rx := none, frame := some (.out (0xC0#8 + n.zeroExtend 8) :: rest ++ [.out v]), disp := m
          daddr := if a = 15#4 then none else some (a + 1#4) } } ∧
        m.read a.toNat = some v ∧ ∀ b, b ≠ a.toNat → m.read b = s.device.disp.read b) ∧
    (s.device.dmode ≠ .writeAutoinc ∨ s.device.daddr = none →
      ∃ m : Memory,
        step s = .next { s with device := { s.device with
          rx := none, frame := some (.out (0xC0#8 + n.zeroExtend 8) :: rest ++ [.out v]), disp := m } } ∧
        ∀ b, m.read b = none)

/-- What the frames sent by `transact` leave at the Device under TimingMet (R131 to R138): the shapes F1 to F5 of R78,
single and full write in and out of write mode, and UNKNOWN after a frame of no shape of R78 that is not an address alone.
Rests on the reading of R134 and R138 for an address alone (log entry 9), on DADDR kept by data bytes outside write mode
(log entry 10), from inside an open frame on log entry 22, and on the spec's own decisions D20 (UNKNOWN) and D21
(brightness kept). -/
def Obligations.SentFrameAtDevice : Prop :=
  ∀ (s : State) (bs : List Byte), Safe s → (s.engine.dir = .out ∨ bs = []) → s.device.rx = none → TimingMet s →
    ∃ t, exec (.transact bs) s = .next t ∧
      (bs = [0x40#8] → t.device = { s.device with dmode := .writeAutoinc, frame := none }) ∧
      (bs = [0x80#8] → t.device = { s.device with don := some false, frame := none }) ∧
      (∀ b : BitVec 3, bs = [0x88#8 + b.zeroExtend 8] →
        t.device = { s.device with don := some true, dbright := some b, frame := none }) ∧
      (∀ n : BitVec 4, bs = [0xC0#8 + n.zeroExtend 8] → t.device = { s.device with daddr := some n, frame := none }) ∧
      (∀ (n : BitVec 4) (v : Byte), bs = [0xC0#8 + n.zeroExtend 8, v] → s.device.dmode = .writeAutoinc →
        ∃ m : Memory,
          t.device = { s.device with disp := m, daddr := if n = 15#4 then none else some (n + 1#4), frame := none } ∧
          m.read n.toNat = some v ∧ ∀ b, b ≠ n.toNat → m.read b = s.device.disp.read b) ∧
      (∀ (n : BitVec 4) (v : Byte), bs = [0xC0#8 + n.zeroExtend 8, v] → s.device.dmode ≠ .writeAutoinc →
        ∃ m : Memory, t.device = { s.device with disp := m, daddr := some n, frame := none } ∧ ∀ b, m.read b = none) ∧
      (bs = zeroBytes → s.device.dmode = .writeAutoinc →
        ∃ m : Memory, t.device = { s.device with disp := m, daddr := none, frame := none } ∧
          ∀ a, m.read a = if a < 16 then some 0x00#8 else s.device.disp.read a) ∧
      (bs = zeroBytes → s.device.dmode ≠ .writeAutoinc →
        ∃ m : Memory, t.device = { s.device with disp := m, daddr := some 0, frame := none } ∧ ∀ b, m.read b = none) ∧
      (¬ FrameShape (sentFrame bs) → (∀ n : BitVec 4, bs ≠ [0xC0#8 + n.zeroExtend 8]) →
        t.device = { s.device.forget with frame := none })

/-- Without TimingMet every Device state is UNKNOWN after an operation (R130, the spec's decision D27). -/
def Obligations.WithoutTimingMetDeviceIsUnknown : Prop :=
  ∀ (s : State) (o : HostOp), Accepts s o → s.params.timingMet = false →
    ∃ t, exec o.instr s = .next t ∧ (∀ a, t.device.disp.read a = none) ∧ t.device.dmode = .unknown ∧
      t.device.daddr = none ∧ t.device.don = none ∧ t.device.dbright = none

/-- What is shown (R139): dark after brightness 0; with the display on, after setDiscreteLEDs(m) LED i shows bit i of m and
the digits are as before, and after showDigits(text) digit p shows the last segment byte sent to position p, or what it
showed before, and the LEDs are as before. -/
def Obligations.DisplayShowsWhatWasSent : Prop :=
  ∀ s : State, Accepts s .clear → TimingMet s →
    (∃ t, exec (.setBrightness 0x00#8) s = .next t ∧ ∀ k : Fin 8, t.device.digit k = .dark ∧ t.device.led k = .dark) ∧
    (∀ m : Byte, s.device.don = some true →
      ∃ t, exec (.setLeds m) s = .next t ∧
        ∀ k : Fin 8, t.device.led k = .lit (m.getLsbD k.val) ∧ t.device.digit k = s.device.digit k) ∧
    (∀ text : List Byte, s.device.don = some true →
      ∃ t, exec (.showDigits text) s = .next t ∧
        ∀ k : Fin 8, t.device.led k = s.device.led k ∧
          t.device.digit k =
            match (textPairs s.params text).reverse.find? (fun q => q.1 == k.val) with
            | some q => .lit q.2
            | none => s.device.digit k)

/-! ### Host operations -/

/-- INIT with three distinct configurable pins (R101, 70_reset_and_hazards.md R171): the whole next state. A pin is listed
as released with a level exactly when it is not bound now and was a pin of the old binding with that level on its line, or
no pin of the old binding and listed before (10_state.md R24; the list is the model's form, log entry 13, and in canonical
form in every state of a run). That the Device under new pins goes on as before is PRESUMED (log entry 13). -/
def Obligations.InitEffect : Prop :=
  ∀ (s : State) (c d t : PinId), Ready s → c ≠ d → d ≠ t → c ≠ t →
    s.params.configurable c = true → s.params.configurable d = true → s.params.configurable t = true →
    ∃ (r : Datapath) (f : Nat) (pm : List PinId) (rel : List (PinId × Level)) (m : Memory),
      exec (.init c d t) s = .next { s with
        engine := { s.engine with
          bind := some { clk := c, dio := d, stb := t }, pinmode := pm, released := rel
          clk := .high, stb := .high, dio := .low, dir := .out, regs := r, busy := false, cur := none, seq := 0
          trace := s.engine.trace ++ [.issue (.init c d t), .mode c, .mode d, .mode t, .clk true, .stb true]
            ++ transactEvents [0x40#8] ++ transactEvents zeroBytes ++ [.done none]
          frames := s.engine.frames ++ [sentFrame [0x40#8], sentFrame zeroBytes] }
        env := { s.env with fresh := f }
        device := if s.params.timingMet then { s.device with disp := m, dmode := .writeAutoinc, daddr := none }
          else s.device.forget } ∧
      (∀ p, p ∈ pm ↔ p ∈ s.engine.pinmode ∨ p = c ∨ p = d ∨ p = t) ∧
      (s.engine.pinmode.Pairwise (· < ·) → pm.Pairwise (· < ·)) ∧
      (s.engine.released.Pairwise (fun a b => a.1 < b.1) →
        rel.Pairwise (fun a b => a.1 < b.1) ∧
        ∀ (p : PinId) (l : Level), (p, l) ∈ rel ↔ p ≠ c ∧ p ≠ d ∧ p ≠ t ∧
          match s.engine.bind with
          | none => (p, l) ∈ s.engine.released
          | some old =>
            if p = old.clk then l = s.engine.clk
            else if p = old.dio then l = s.engine.dio
            else if p = old.stb then l = s.engine.stb
            else (p, l) ∈ s.engine.released) ∧
      (∀ a, m.read a = if a < 16 then some 0x00#8 else s.device.disp.read a)

/-- A pin of the old binding that is not in the new one keeps its level (10_state.md R24, R173); no bound pin is
listed as released. -/
def Obligations.RebindingKeepsOldPinLevels : Prop :=
  ∀ (s : State) (old : Pins) (c d t : PinId), Accepts s (.init c d t) → s.engine.bind = some old →
    old.clk ≠ old.dio → old.dio ≠ old.stb → old.clk ≠ old.stb →
    ∃ u, exec (.init c d t) s = .next u ∧
      (∀ p l, (p, l) = (old.clk, s.engine.clk) ∨ (p, l) = (old.dio, s.engine.dio) ∨ (p, l) = (old.stb, s.engine.stb) →
        p ≠ c → p ≠ d → p ≠ t → (p, l) ∈ u.engine.released) ∧
      (∀ e ∈ u.engine.released, e.1 ≠ c ∧ e.1 ≠ d ∧ e.1 ≠ t)

/-- CLEAR (R102): the whole next state; all sixteen bytes of display memory are zero under TimingMet. -/
def Obligations.ClearEffect : Prop :=
  ∀ s : State, Accepts s .clear →
    ∃ (r : Datapath) (f : Nat) (m : Memory),
      exec .clear s = .next { s with
        engine := { s.engine with
          clk := .high, stb := .high, dio := .low, regs := r, busy := false, cur := none, seq := 0
          trace := s.engine.trace ++ [.issue .clear] ++ transactEvents [0x40#8] ++ transactEvents zeroBytes ++ [.done none]
          frames := s.engine.frames ++ [sentFrame [0x40#8], sentFrame zeroBytes] }
        env := { s.env with fresh := f }
        device := if s.params.timingMet then { s.device with disp := m, dmode := .writeAutoinc, daddr := none }
          else s.device.forget } ∧
      (∀ a, m.read a = if a < 16 then some 0x00#8 else s.device.disp.read a)

/-- SET_BRIGHTNESS (R103): the level is clamped to 8; 0 sends 0x80, L in 1..8 sends 0x88 + (L - 1), in one frame of one
byte; the whole next state. -/
def Obligations.SetBrightnessEffect : Prop :=
  ∀ (s : State) (level : Byte), Accepts s (.setBrightness level) →
    ∃ (r : Datapath) (f : Nat) (b : Byte),
      (level = 0x00#8 → b = 0x80#8) ∧ (level ≠ 0x00#8 → b = 0x88#8 + BitVec.ofNat 8 (min level.toNat 8 - 1)) ∧
      exec (.setBrightness level) s = .next { s with
        engine := { s.engine with
          clk := .high, stb := .high, dio := .high, regs := r, busy := false, cur := none, seq := 0
          trace := s.engine.trace ++ [.issue (.setBrightness level)] ++ transactEvents [b] ++ [.done none]
          frames := s.engine.frames ++ [sentFrame [b]] }
        env := { s.env with fresh := f }
        device := if s.params.timingMet = false then s.device.forget
          else if level = 0x00#8 then { s.device with don := some false }
          else { s.device with don := some true, dbright := some (BitVec.ofNat 3 (min level.toNat 8 - 1)) } }

/-- SET_LEDS (R104): the mode frame and eight frames in ascending order; the odd bytes of display memory become 0x01 or
0x00 by the mask, the even ones are kept; the whole next state. -/
def Obligations.SetLedsEffect : Prop :=
  ∀ (s : State) (mask : Byte), Accepts s (.setLeds mask) →
    ∃ (r : Datapath) (f : Nat) (m : Memory),
      exec (.setLeds mask) s = .next { s with
        engine := { s.engine with
          clk := .high, stb := .high, dio := .low, regs := r, busy := false, cur := none, seq := 0
          trace := s.engine.trace ++ [.issue (.setLeds mask)] ++ transactEvents [0x40#8]
            ++ (List.range 8).flatMap (fun i => transactEvents (ledBytes mask i)) ++ [.done none]
          frames := s.engine.frames ++ sentFrame [0x40#8] :: (List.range 8).map (fun i => sentFrame (ledBytes mask i)) }
        env := { s.env with fresh := f }
        device := if s.params.timingMet then { s.device with disp := m, dmode := .writeAutoinc, daddr := none }
          else s.device.forget } ∧
      (∀ i, i < 8 → m.read (2 * i + 1) = some (if mask.getLsbD i then 0x01#8 else 0x00#8)) ∧
      (∀ a, a % 2 = 0 ∨ 16 ≤ a → m.read a = s.device.disp.read a)

/-- READ_KEYS (R105 to R110): the whole next state for every answer the Device gives; bit k of the mask is the OR of bit
k - i of reply byte i; DIO ends as an output at level X; on the Device DADDR = 0 and DMODE = READ_KEYS. Rests on the spec's
own decisions D6 (the Waits), D7 (DIO at X), D17 (eight bits kept) and D18 (no side effect of reading), and on log entry 8
(the answers come from a list). -/
def Obligations.ReadKeysEffect : Prop :=
  ∀ s : State, Accepts s .readKeys →
    ∃ (r : Datapath) (f : Nat) (k : Byte),
      exec .readKeys s = .next { s with
        engine := { s.engine with
          clk := .high, stb := .high, dio := .x, dir := .out, regs := r, busy := false, cur := none, seq := 0
          keymask := some k
          trace := s.engine.trace ++ [.issue .readKeys] ++ transactEvents [0xC0#8] ++ keyFrameEvents s.env.answer
            ++ [.done (some k)]
          frames := s.engine.frames ++ [sentFrame [0xC0#8], keyFrame s.env.reply] }
        env := { s.env with draws := s.env.draws.drop 32, fresh := f }
        device := if s.params.timingMet then { s.device with dmode := .readKeys, daddr := some 0 } else s.device.forget } ∧
      (∀ b, b < 8 → k.getLsbD b = (List.range 4).any fun i => decide (i ≤ b) && s.env.answer (8 * i + (b - i)))

/-- Under IdealKeyReply the key mask is the buttons (R111): KEYMASK, and the `Done` that gives it to the host. -/
def Obligations.IdealKeyReplyGivesButtons : Prop :=
  ∀ s : State, Accepts s .readKeys → IdealKeyReply s →
    ∃ t, exec .readKeys s = .next t ∧ t.engine.keymask = some s.env.btn ∧
      t.engine.trace.getLast? = some (.done (some s.env.btn))

/-- SHOW_DIGITS (R112 to R117): the mode frame, then one frame for each pair of the text, in order; every byte of display
memory is the last one sent to its address, or as before; the whole next state. The characters are ASCII (log entry 18);
that a 0x00 byte ends the text, that a point needs only a placed digit or space, and that the mode byte is a frame of its
own are the spec's own decisions D14, D15 and D19. -/
def Obligations.ShowDigitsEffect : Prop :=
  ∀ (s : State) (text : List Byte), Accepts s (.showDigits text) →
    ∃ (r : Datapath) (f : Nat) (m : Memory),
      exec (.showDigits text) s = .next { s with
        engine := { s.engine with
          clk := .high, stb := .high, regs := r, busy := false, cur := none, seq := 0
          dio := match (textPairs s.params text).getLast? with
            | none => .low
            | some q => .ofBool (q.2.getLsbD 7)
          trace := s.engine.trace ++ [.issue (.showDigits text)] ++ transactEvents [0x40#8]
            ++ (textPairs s.params text).flatMap (fun q => transactEvents (pairBytes q)) ++ [.done none]
          frames := s.engine.frames ++ sentFrame [0x40#8] :: (textPairs s.params text).map (fun q => sentFrame (pairBytes q)) }
        env := { s.env with fresh := f }
        device := if s.params.timingMet then
            { s.device with
              disp := m, dmode := .writeAutoinc
              daddr := match (textPairs s.params text).getLast? with
                | none => s.device.daddr
                | some q => some (BitVec.ofNat 4 (2 * q.1 + 1)) }
          else s.device.forget } ∧
      (∀ a, m.read a =
        match (textPairs s.params text).reverse.find? (fun q => 2 * q.1 == a) with
        | some q => some q.2
        | none => s.device.disp.read a)

/-- The frames of one `showDigits` are the mode frame and at most one for each character, at positions 0 to 7 (R118,
R114). -/
def Obligations.ShowDigitsFrameBound : Prop :=
  ∀ (s : State) (text : List Byte), Accepts s (.showDigits text) →
    (textPairs s.params text).length ≤ text.length ∧ (∀ q ∈ textPairs s.params text, q.1 < 8) ∧
    ∃ t, exec (.showDigits text) s = .next t ∧
      t.engine.frames.length = s.engine.frames.length + (1 + (textPairs s.params text).length)

/-- The key reply (20_memory.md R52): the sampled bits of a `readKeys` are those of R[0] to R[3] in order, each byte least
significant bit first; the i-th `readByte` of the read frame returns R[i]; the mask has R[i] shifted left by i. -/
def Obligations.KeyReplyBytesArriveInOrder : Prop :=
  ∀ s : State, Accepts s .readKeys →
    ∃ (t : State) (R : Nat → Byte) (k : Byte), exec .readKeys s = .next t ∧
      (t.engine.trace.drop s.engine.trace.length).filterMap (fun e => match e with | .sample b => some b | _ => none) =
        (List.range 4).flatMap (fun i => (List.range 8).map fun j => (R i).getLsbD j) ∧
      t.engine.frames.getLast? = some [.out 0x42#8, .inp (R 0), .inp (R 1), .inp (R 2), .inp (R 3)] ∧
      t.engine.keymask = some k ∧
      ∀ b, b < 8 → k.getLsbD b = (List.range 4).any fun i => decide (i ≤ b) && (R i).getLsbD (b - i)

/-- 0x88 + b DISPLAY_ON (42_wire_commands.md R137): DON true, DBRIGHT b, DISP unchanged, for every b; setBrightness(1..255)
sends it with b = min(level, 8) - 1, and no other operation sends it; 0x8A is the one with b = 2. -/
def Obligations.DisplayOnIsSentBySetBrightness : Prop :=
  (∀ (s : State) (b : BitVec 3), ∃ t, exec (.displayOn b) s = .next t ∧ t.device.don = some true ∧
    t.device.dbright = some b ∧ t.device.disp = s.device.disp) ∧
  (∀ (s : State) (level : Byte), Accepts s (.setBrightness level) → level ≠ 0x00#8 →
    ∃ (t : State) (b : BitVec 3), exec (.setBrightness level) s = .next t ∧ b.toNat = min level.toNat 8 - 1 ∧
      t.engine.frames = s.engine.frames ++ [[.out (0x88#8 + b.zeroExtend 8)]]) ∧
  (∀ (s : State) (o : HostOp), Accepts s o → (∀ level, o = .setBrightness level → level = 0x00#8) →
    ∃ t fs, exec o.instr s = .next t ∧ t.engine.frames = s.engine.frames ++ fs ∧
      ∀ f ∈ fs, ∀ (b : BitVec 3) (rest : Frame), f ≠ .out (0x88#8 + b.zeroExtend 8) :: rest) ∧
  decode (.wire 0x8A#8) = .ok (.displayOn 2)

/-! ### Rules about every operation -/

/-- Every frame an operation sends has one of the six shapes (30_encoding.md R78). -/
def Obligations.OperationsSendOnlyTheSixShapes : Prop :=
  ∀ (s : State) (o : HostOp), Accepts s o →
    ∃ t fs, exec o.instr s = .next t ∧ t.engine.frames = s.engine.frames ++ fs ∧ ∀ f ∈ fs, FrameShape f

/-- Every operation's events keep a `Wait` in each half-period of the clock (R181). -/
def Obligations.HalfPeriodsHaveWait : Prop :=
  ∀ (s : State) (o : HostOp), Accepts s o →
    ∃ t evs, exec o.instr s = .next t ∧ t.engine.trace = s.engine.trace ++ evs ∧ halfPeriods none evs = true

/-- Every operation's events keep the five direction rules (R182). -/
def Obligations.DirectionRules : Prop :=
  ∀ (s : State) (o : HostOp), Accepts s o →
    ∃ t evs, exec o.instr s = .next t ∧ t.engine.trace = s.engine.trace ++ evs ∧ directions .out evs = true ∧
      ∀ before after, evs = before ++ .dirIn :: after →
        (∃ early, before = early ++ ([.stb false, .wait] ++ writeByteEvents 0x42#8 ++ [.wait])) ∧ .stb true ∈ after

/-- Every operation's events keep frame integrity, and STB is 1 at its end (R185). -/
def Obligations.FrameIntegrity : Prop :=
  ∀ (s : State) (o : HostOp), Accepts s o →
    ∃ t evs, exec o.instr s = .next t ∧ t.engine.trace = s.engine.trace ++ evs ∧ framed false evs = true ∧
      t.engine.stb = .high

/-- The counts of R187 and the least duration of an operation: its `Wait` events times T_DELAY, under every timing R180
admits. The `Wait` counts rest on the spec's own decisions D5 and D6 (92_eei_decisions.md, log entry 20). -/
def Obligations.OperationCountsAndDuration : Prop :=
  ∀ (s : State) (o : HostOp), Accepts s o →
    ∃ t evs r, exec o.instr s = .next t ∧ t.engine.trace = s.engine.trace ++ .issue o :: evs ++ [.done r] ∧
      t.engine.frames.length = s.engine.frames.length + (opCounts s.params o).1 ∧
      evs.length = (opCounts s.params o).2.1 ∧ waits evs = (opCounts s.params o).2.2 ∧
      ∀ tm : Timing, tm.map Prod.fst = evs → tm.admissible s.params = true →
        (opCounts s.params o).2.2 * s.params.tDelay ≤ tm.duration

/-- `clear`, `setBrightness`, `setDiscreteLEDs` and `showDigits` repeated with the same operand send the same frames and
leave the same Device state (20_memory.md R57). -/
def Obligations.RepeatedOperationIsIdempotent : Prop :=
  ∀ (s : State) (o : HostOp), Accepts s o → Memory.wf s.device.disp = true →
    (o = .clear ∨ (∃ l, o = .setBrightness l) ∨ (∃ m, o = .setLeds m) ∨ (∃ x, o = .showDigits x)) →
    ∃ t u fs, exec o.instr s = .next t ∧ exec o.instr t = .next u ∧ t.engine.frames = s.engine.frames ++ fs ∧
      u.engine.frames = t.engine.frames ++ fs ∧ u.device = t.device

/-- No instruction writes the parameters, the buttons or the host's side (10_state.md R20, R37); only INIT writes BIND,
PINMODE and the released pins (R21, R24), and only READ_KEYS writes KEYMASK (R30, R39). -/
def Obligations.OnlyInitBindsOnlyReadKeysWritesMask : Prop :=
  ∀ (i : Instr) (s t : State), exec i s = .next t →
    t.params = s.params ∧ t.env.btn = s.env.btn ∧ t.host = s.host ∧
    ((∀ c d p, i ≠ .init c d p) →
      t.engine.bind = s.engine.bind ∧ t.engine.pinmode = s.engine.pinmode ∧ t.engine.released = s.engine.released) ∧
    (i ≠ .readKeys → t.engine.keymask = s.engine.keymask)

/-- No step writes the parameters (R20). -/
def Obligations.NoStepWritesParameters : Prop := ∀ s t : State, step s = .next t → t.params = s.params

/-- Every entry of SEG has bit 7 clear, for every parameters (10_state.md R32). -/
def Obligations.SegmentTableHasBit7Clear : Prop := ∀ (p : Params) (d : Fin 10), (p.seg d).getLsbD 7 = false

/-! ### The invariant -/

/-- Every step keeps the invariant: canonical memory and pin tables, the sequencer inside its sequence, the lines where
the sequencer is (so CLK and STB high and DIO an output between operations), CONTENTION never raised. -/
def Obligations.EveryStepKeepsInvariant : Prop := ∀ s t : State, Inv s → step s = .next t → Inv t

/-- The power-on state meets the invariant. -/
def Obligations.InvariantAtReset : Prop := Inv State.reset

/-- A machine that meets the invariant and has met no fault always has a next step. -/
def Obligations.SafeMachineAlwaysSteps : Prop := ∀ s : State, Inv s → Safe s → ∃ t, step s = .next t
end

