-- ==== Sys2Proof/Laws/Memory.lean ====
section
/-! SUPPORT. Display memory and the pin tables: read after write, everything else left alone, canonical form kept. -/

namespace Sys2Proof.Machine

theorem Memory.read_write_same (m : Memory) (a : Nat) (v : Byte) : (m.write a v).read a = some v := by
  induction m with
  | nil => simp [Memory.write, Memory.read]
  | cons c m ih =>
    obtain ⟨b, w⟩ := c
    simp only [Memory.write]
    split
    · simp [Memory.read]
    · split
      · simp [Memory.read]
      · simp [Memory.read, *]

theorem Memory.read_write_other (m : Memory) {a b : Nat} (v : Byte) (h : b ≠ a) : (m.write a v).read b = m.read b := by
  induction m with
  | nil => simp [Memory.write, Memory.read, h]
  | cons c m ih =>
    obtain ⟨c, w⟩ := c
    simp only [Memory.write]
    split
    · simp [Memory.read, h]
    · split
      · subst_vars
        simp [Memory.read, h]
      · simp [Memory.read, ih]

theorem Memory.read_write (m : Memory) (a b : Nat) (v : Byte) :
    (m.write a v).read b = if b = a then some v else m.read b := by
  split
  · subst_vars
    exact read_write_same m _ v
  · exact read_write_other m v ‹_›

theorem Memory.wfFrom_write (m : Memory) (lo a : Nat) (v : Byte) (hm : Memory.wfFrom lo m = true) (hl : lo ≤ a)
    (ha : a < Config.dispBytes) : Memory.wfFrom lo (m.write a v) = true := by
  induction m generalizing lo with
  | nil => simp [Memory.write, Memory.wfFrom, hl, ha]
  | cons c m ih =>
    obtain ⟨b, w⟩ := c
    simp only [Memory.wfFrom, Bool.and_eq_true, decide_eq_true_eq] at hm
    simp only [Memory.write]
    split
    · simp [Memory.wfFrom, hl, ha, hm.1.2, hm.2]
      omega
    · split
      · subst_vars
        simp [Memory.wfFrom, hl, ha, hm.2]
      · simp only [Memory.wfFrom, Bool.and_eq_true, decide_eq_true_eq]
        exact ⟨hm.1, ih _ hm.2 (by omega)⟩

/-- Writing inside the 16 bytes keeps the canonical form. -/
theorem Memory.wf_write (m : Memory) (a : BitVec 4) (v : Byte) (hm : m.wf = true) : (m.write a.toNat v).wf = true :=
  Memory.wfFrom_write m 0 _ v hm (Nat.zero_le _) a.isLt

/-- A canonical memory lists nothing below its lower bound. -/
theorem Memory.read_below (m : Memory) (lo b : Nat) (hm : Memory.wfFrom lo m = true) (hb : b < lo) : m.read b = none := by
  induction m generalizing lo with
  | nil => rfl
  | cons c m ih =>
    obtain ⟨a, w⟩ := c
    simp only [Memory.wfFrom, Bool.and_eq_true, decide_eq_true_eq] at hm
    simp only [Memory.read]
    rw [if_neg (by omega)]
    exact ih _ hm.2 (by omega)

/-- Equal readings are equal memories, in canonical form. -/
theorem Memory.ext_read (m n : Memory) (lo : Nat) (hm : Memory.wfFrom lo m = true) (hn : Memory.wfFrom lo n = true)
    (h : ∀ a, m.read a = n.read a) : m = n := by
  induction m generalizing n lo with
  | nil =>
    cases n with
    | nil => rfl
    | cons d n => simpa [Memory.read] using h d.1
  | cons c m ih =>
    obtain ⟨a, v⟩ := c
    cases n with
    | nil => simpa [Memory.read] using h a
    | cons d n =>
      obtain ⟨b, w⟩ := d
      simp only [Memory.wfFrom, Bool.and_eq_true, decide_eq_true_eq] at hm hn
      have hab : a = b := by
        rcases Nat.lt_trichotomy a b with hlt | heq | hgt
        · have h1 := h a
          simp only [Memory.read, if_true] at h1
          rw [if_neg (by omega), Memory.read_below n (b + 1) a hn.2 (by omega)] at h1
          simp at h1
        · exact heq
        · have h1 := h b
          simp only [Memory.read, if_true] at h1
          rw [if_neg (by omega), Memory.read_below m (a + 1) b hm.2 (by omega)] at h1
          simp at h1
      subst hab
      have hv : v = w := by simpa [Memory.read] using h a
      subst hv
      congr 1
      refine ih n (a + 1) hm.2 hn.2 fun x => ?_
      by_cases hx : x = a
      · subst hx
        rw [Memory.read_below m _ _ hm.2 (by omega), Memory.read_below n _ _ hn.2 (by omega)]
      · simpa [Memory.read, hx] using h x

/-! ### Pin tables -/

theorem mem_insertPin (p q : PinId) (l : List PinId) : q ∈ insertPin p l ↔ q = p ∨ q ∈ l := by
  induction l with
  | nil => simp [insertPin]
  | cons r l ih =>
    simp only [insertPin]
    split
    · simp
    · split
      · subst_vars
        simp
      · simp [ih]
        tauto

theorem insertPin_sorted (p : PinId) (l : List PinId) (h : l.Pairwise (· < ·)) : (insertPin p l).Pairwise (· < ·) := by
  induction l with
  | nil => simp [insertPin]
  | cons q l ih =>
    have hq := List.pairwise_cons.1 h
    simp only [insertPin]
    split
    · rename_i hlt
      refine List.pairwise_cons.2 ⟨fun x hx => ?_, h⟩
      rcases List.mem_cons.1 hx with rfl | hx
      · exact hlt
      · exact Nat.lt_trans hlt (hq.1 x hx)
    · split
      · exact h
      · refine List.pairwise_cons.2 ⟨fun x hx => ?_, ih hq.2⟩
        rcases (mem_insertPin p x l).1 hx with rfl | hx
        · exact Nat.lt_of_le_of_ne (Nat.le_of_not_lt ‹_›) (fun e => ‹¬ x = q› e.symm)
        · exact hq.1 x hx

theorem mem_putLevel_key (p : PinId) (v : Level) (l : List (PinId × Level)) (e : PinId × Level) (h : e ∈ putLevel p v l) :
    e.1 = p ∨ e ∈ l := by
  induction l with
  | nil =>
    rw [putLevel, List.mem_singleton] at h
    exact .inl (by rw [h])
  | cons c l ih =>
    obtain ⟨q, w⟩ := c
    simp only [putLevel] at h
    split at h
    · rcases List.mem_cons.1 h with rfl | h
      · exact .inl rfl
      · exact .inr h
    · split at h
      · rcases List.mem_cons.1 h with rfl | h
        · exact .inl rfl
        · exact .inr (List.mem_cons_of_mem _ h)
      · rcases List.mem_cons.1 h with rfl | h
        · exact .inr (by simp)
        · exact (ih h).imp id (List.mem_cons_of_mem _)

/-- Keeping a level replaces what was kept for the pin and leaves the others. -/
theorem mem_putLevel (p q : PinId) (v w : Level) (l : List (PinId × Level)) (h : l.Pairwise (fun a b => a.1 < b.1)) :
    (q, w) ∈ putLevel p v l ↔ if q = p then w = v else (q, w) ∈ l := by
  induction l with
  | nil => by_cases hq : q = p <;> simp [putLevel, hq]
  | cons e l ih =>
    obtain ⟨r, u⟩ := e
    have hl := List.pairwise_cons.1 h
    have hlow : ∀ {a : PinId} {y : Level}, (a, y) ∈ l → r < a := fun hm => hl.1 _ hm
    unfold putLevel
    by_cases h1 : p < r
    · have hn : (p, w) ∉ l := fun hm => Nat.lt_asymm h1 (hlow hm)
      by_cases hq : q = p
      · subst hq
        simp [h1, hn, Nat.ne_of_lt h1]
      · simp [h1, hq]
    · by_cases h2 : p = r
      · subst h2
        by_cases hq : q = p
        · subst hq
          have hn : (q, w) ∉ l := fun hm => Nat.lt_irrefl _ (hlow hm)
          simp [hn]
        · simp [hq]
      · by_cases hq : q = r
        · subst hq
          simp [h1, h2, ih hl.2, Ne.symm h2]
        · by_cases hqp : q = p
          · subst hqp
            simp [h1, h2, ih hl.2]
          · simp [h1, h2, hq, ih hl.2, hqp]

theorem putLevel_sorted (p : PinId) (v : Level) (l : List (PinId × Level)) (h : l.Pairwise (fun a b => a.1 < b.1)) :
    (putLevel p v l).Pairwise (fun a b => a.1 < b.1) := by
  induction l with
  | nil => simp [putLevel]
  | cons c l ih =>
    obtain ⟨q, w⟩ := c
    have hq := List.pairwise_cons.1 h
    simp only [putLevel]
    split
    · rename_i hlt
      refine List.pairwise_cons.2 ⟨fun x hx => ?_, h⟩
      rcases List.mem_cons.1 hx with rfl | hx
      · exact hlt
      · exact Nat.lt_trans hlt (hq.1 x hx)
    · split
      · subst_vars
        exact List.pairwise_cons.2 hq
      · refine List.pairwise_cons.2 ⟨fun x hx => ?_, ih hq.2⟩
        rcases mem_putLevel_key p v l x hx with hx | hx
        · rw [hx]
          exact Nat.lt_of_le_of_ne (Nat.le_of_not_lt ‹_›) (fun e => ‹¬ p = q› e.symm)
        · exact hq.1 x hx

theorem dropLevel_sorted (p : PinId) (l : List (PinId × Level)) (h : l.Pairwise (fun a b => a.1 < b.1)) :
    (dropLevel p l).Pairwise (fun a b => a.1 < b.1) := h.filter _

theorem releasePin_sorted (b : Pins) (p : PinId) (v : Level) (l : List (PinId × Level))
    (h : l.Pairwise (fun a b => a.1 < b.1)) : (releasePin b p v l).Pairwise (fun a b => a.1 < b.1) := by
  unfold releasePin
  split
  · exact h
  · exact putLevel_sorted p v l h

/-- A rebinding keeps the table of released pins in canonical form. -/
theorem releasedAfter_sorted (e : Engine) (b : Pins) (h : e.released.Pairwise (fun a b => a.1 < b.1)) :
    (releasedAfter e b).Pairwise (fun a b => a.1 < b.1) := by
  unfold releasedAfter
  refine dropLevel_sorted _ _ (dropLevel_sorted _ _ (dropLevel_sorted _ _ ?_))
  cases e.bind with
  | none => exact h
  | some old => exact releasePin_sorted _ _ _ _ (releasePin_sorted _ _ _ _ (releasePin_sorted _ _ _ _ h))

/-- A pin of the old binding is released unless it is bound again. -/
theorem mem_releasePin (b : Pins) (p q : PinId) (v w : Level) (l : List (PinId × Level))
    (h : l.Pairwise (fun a b => a.1 < b.1)) (hq : b.has q = false) :
    (q, w) ∈ releasePin b p v l ↔ if q = p then w = v else (q, w) ∈ l := by
  unfold releasePin
  split
  · rename_i hp
    have : q ≠ p := fun h => by rw [h, hp] at hq; cases hq
    simp [this]
  · exact mem_putLevel p q v w l h

/-- Which pins are released after a binding, and with which levels (10_state.md R24). -/
theorem mem_releasedAfter (e : Engine) (b : Pins) (h : e.released.Pairwise (fun a b => a.1 < b.1)) (p : PinId) (l : Level) :
    (p, l) ∈ releasedAfter e b ↔ p ≠ b.clk ∧ p ≠ b.dio ∧ p ≠ b.stb ∧
      match e.bind with
      | none => (p, l) ∈ e.released
      | some old =>
        if p = old.clk then l = e.clk else if p = old.dio then l = e.dio else if p = old.stb then l = e.stb
        else (p, l) ∈ e.released := by
  have hd : ∀ (r : PinId) (m : List (PinId × Level)), (p, l) ∈ dropLevel r m ↔ (p, l) ∈ m ∧ p ≠ r := by
    intro r m
    simp [dropLevel]
  simp only [releasedAfter, hd]
  by_cases hb : b.has p = true
  · have hn : ¬ (p ≠ b.clk ∧ p ≠ b.dio ∧ p ≠ b.stb) := by
      simp only [Pins.has, Bool.or_eq_true, beq_iff_eq] at hb
      rintro ⟨h1, h2, h3⟩
      rcases hb with (hb | hb) | hb
      · exact h1 hb
      · exact h2 hb
      · exact h3 hb
    constructor
    · rintro ⟨⟨⟨_, h3⟩, h2⟩, h1⟩
      exact absurd ⟨h1, h2, h3⟩ hn
    · rintro ⟨h1, h2, h3, _⟩
      exact absurd ⟨h1, h2, h3⟩ hn
  · have hb' : b.has p = false := by simpa using hb
    cases e.bind with
    | none => tauto
    | some old =>
      have h1 := releasePin_sorted b old.stb e.stb _ h
      have h2 := releasePin_sorted b old.dio e.dio _ h1
      simp only [mem_releasePin b _ p _ l _ h2 hb', mem_releasePin b _ p _ l _ h1 hb', mem_releasePin b _ p _ l _ h hb']
      tauto

end Sys2Proof.Machine
end

