-- ==== Sys2Proof/Laws/State.lean ====
section
/-! SUPPORT. What each state operation does to each part of the state, so that no later proof unfolds a record
update. -/

namespace Sys2Proof.Machine

@[simp] theorem raiseFault_engine (r : FaultRecord) (s : State) : (raiseFault r s).engine = { s.engine with fault := s.engine.fault.add r.code, record := some r } := rfl
@[simp] theorem raiseFault_device (r : FaultRecord) (s : State) : (raiseFault r s).device = s.device := rfl
@[simp] theorem raiseFault_env (r : FaultRecord) (s : State) : (raiseFault r s).env = s.env := rfl
@[simp] theorem raiseFault_host (r : FaultRecord) (s : State) : (raiseFault r s).host = s.host := rfl
@[simp] theorem raiseFault_params (r : FaultRecord) (s : State) : (raiseFault r s).params = s.params := rfl

@[simp] theorem log_engine (ev : Event) (s : State) : (s.log ev).engine = { s.engine with trace := s.engine.trace ++ [ev] } := rfl
@[simp] theorem log_device (ev : Event) (s : State) : (s.log ev).device = s.device := rfl
@[simp] theorem log_env (ev : Event) (s : State) : (s.log ev).env = s.env := rfl
@[simp] theorem log_host (ev : Event) (s : State) : (s.log ev).host = s.host := rfl
@[simp] theorem log_params (ev : Event) (s : State) : (s.log ev).params = s.params := rfl

@[simp] theorem emit_engine (ev : Event) (s : State) : (s.emit ev).engine = { s.engine with trace := s.engine.trace ++ [ev], seq := s.engine.seq + 1 } := rfl
@[simp] theorem emit_device (ev : Event) (s : State) : (s.emit ev).device = s.device := rfl
@[simp] theorem emit_env (ev : Event) (s : State) : (s.emit ev).env = s.env := rfl
@[simp] theorem emit_host (ev : Event) (s : State) : (s.emit ev).host = s.host := rfl
@[simp] theorem emit_params (ev : Event) (s : State) : (s.emit ev).params = s.params := rfl

@[simp] theorem setRegs_engine (r : Datapath) (s : State) : (s.setRegs r).engine = { s.engine with regs := r } := rfl
@[simp] theorem setRegs_device (r : Datapath) (s : State) : (s.setRegs r).device = s.device := rfl
@[simp] theorem setRegs_env (r : Datapath) (s : State) : (s.setRegs r).env = s.env := rfl
@[simp] theorem setRegs_host (r : Datapath) (s : State) : (s.setRegs r).host = s.host := rfl
@[simp] theorem setRegs_params (r : Datapath) (s : State) : (s.setRegs r).params = s.params := rfl

@[simp] theorem powerOn_engine (s : State) : (s.powerOn).engine = Engine.reset := rfl
@[simp] theorem powerOn_device (s : State) : (s.powerOn).device = Device.reset := rfl
@[simp] theorem powerOn_env (s : State) : (s.powerOn).env = s.env := rfl
@[simp] theorem powerOn_host (s : State) : (s.powerOn).host = { s.host with port := none } := rfl
@[simp] theorem powerOn_params (s : State) : (s.powerOn).params = s.params := rfl

@[simp] theorem issueOp_engine (o : HostOp) (s : State) : (issueOp o s).engine = { s.engine with trace := s.engine.trace ++ [.issue o], busy := true, cur := some o, seq := 0 } := rfl
@[simp] theorem issueOp_device (o : HostOp) (s : State) : (issueOp o s).device = s.device := rfl
@[simp] theorem issueOp_env (o : HostOp) (s : State) : (issueOp o s).env = s.env := rfl
@[simp] theorem issueOp_host (o : HostOp) (s : State) : (issueOp o s).host = s.host := rfl
@[simp] theorem issueOp_params (o : HostOp) (s : State) : (issueOp o s).params = s.params := rfl

@[simp] theorem driveClk_engine (b : Bool) (s : State) : (driveClk b s).engine = { s.engine with clk := .ofBool b, trace := s.engine.trace ++ [.clk b], seq := s.engine.seq + 1 } := rfl
@[simp] theorem driveClk_device (b : Bool) (s : State) : (driveClk b s).device = s.device := rfl
@[simp] theorem driveClk_env (b : Bool) (s : State) : (driveClk b s).env = s.env := rfl
@[simp] theorem driveClk_host (b : Bool) (s : State) : (driveClk b s).host = s.host := rfl
@[simp] theorem driveClk_params (b : Bool) (s : State) : (driveClk b s).params = s.params := rfl

@[simp] theorem strobeLow_engine (s : State) : (strobeLow s).engine = { s.engine with stb := .low, openFrame := some [], trace := s.engine.trace ++ [.stb false], seq := s.engine.seq + 1 } := rfl
@[simp] theorem strobeLow_device (s : State) : (strobeLow s).device = s.device.frameOpens := rfl
@[simp] theorem strobeLow_env (s : State) : (strobeLow s).env = s.env := rfl
@[simp] theorem strobeLow_host (s : State) : (strobeLow s).host = s.host := rfl
@[simp] theorem strobeLow_params (s : State) : (strobeLow s).params = s.params := rfl

@[simp] theorem strobeHigh_engine (s : State) : (strobeHigh s).engine = { s.engine with stb := .high, openFrame := none, frames := s.engine.frames ++ s.engine.openFrame.toList, trace := s.engine.trace ++ [.stb true], seq := s.engine.seq + 1 } := rfl
@[simp] theorem strobeHigh_device (s : State) : (strobeHigh s).device = s.device.frameCloses s.params.timingMet := rfl
@[simp] theorem strobeHigh_env (s : State) : (strobeHigh s).env = s.env := rfl
@[simp] theorem strobeHigh_host (s : State) : (strobeHigh s).host = s.host := rfl
@[simp] theorem strobeHigh_params (s : State) : (strobeHigh s).params = s.params := rfl

@[simp] theorem dirIn_engine (s : State) : (dirIn s).engine = { s.engine with dir := .inp, trace := s.engine.trace ++ [.dirIn], seq := s.engine.seq + 1 } := rfl
@[simp] theorem dirIn_device (s : State) : (dirIn s).device = s.device := rfl
@[simp] theorem dirIn_env (s : State) : (dirIn s).env = s.env := rfl
@[simp] theorem dirIn_host (s : State) : (dirIn s).host = s.host := rfl
@[simp] theorem dirIn_params (s : State) : (dirIn s).params = s.params := rfl

@[simp] theorem dirOut_engine (s : State) : (dirOut s).engine = { s.engine with dir := .out, dio := .x, trace := s.engine.trace ++ [.dirOut], seq := s.engine.seq + 1 } := rfl
@[simp] theorem dirOut_device (s : State) : (dirOut s).device = s.device := rfl
@[simp] theorem dirOut_env (s : State) : (dirOut s).env = s.env := rfl
@[simp] theorem dirOut_host (s : State) : (dirOut s).host = s.host := rfl
@[simp] theorem dirOut_params (s : State) : (dirOut s).params = s.params := rfl

@[simp] theorem finish_engine (s : State) : (finish s).engine = { s.engine with trace := s.engine.trace ++ [.done (doneResult s.engine)], busy := false, cur := none, seq := 0, regs := Config.freeRegs s.env.fresh } := rfl
@[simp] theorem finish_device (s : State) : (finish s).device = s.device := rfl
@[simp] theorem finish_env (s : State) : (finish s).env = { s.env with fresh := s.env.fresh + 1 } := rfl
@[simp] theorem finish_host (s : State) : (finish s).host = s.host := rfl
@[simp] theorem finish_params (s : State) : (finish s).params = s.params := rfl

/-! ### Power-on values and fault bits -/

@[simp] theorem fault_empty_any : FaultSet.empty.any = false := rfl

@[simp] theorem stopped_reset : State.reset.stopped = false := rfl

/-- A raised fault stops the engine. -/
theorem FaultSet.any_add (f : FaultSet) (c : FaultCode) : (f.add c).any = true := by
  cases c <;> simp [FaultSet.add, FaultSet.any]

/-- Raising adds the code and nothing else. -/
theorem FaultSet.has_add (f : FaultSet) (c d : FaultCode) : (f.add c).has d = (decide (c = d) || f.has d) := by
  cases c <;> cases d <;> simp [FaultSet.add, FaultSet.has]

@[simp] theorem stopped_raiseFault (r : FaultRecord) (s : State) : (raiseFault r s).stopped = true := FaultSet.any_add _ _

@[simp] theorem stopped_emit (ev : Event) (s : State) : (s.emit ev).stopped = s.stopped := rfl

@[simp] theorem stopped_setRegs (r : Datapath) (s : State) : (s.setRegs r).stopped = s.stopped := rfl

end Sys2Proof.Machine
end

