-- ==== Sys2Proof/Laws/Run.lean ====
section
/-! SUPPORT. Performing event sequences: sequences compose, and one lemma for each primitive says the whole state it
leaves. -/

namespace Sys2Proof.Machine

/-! ### Composition -/

theorem settle_of_noRx {s : State} (h : s.device.rx = none) : settle s = s := by simp [settle, h]

/-- A sequence in two parts. -/
theorem runMicros_append (a b : List Micro) (s : State) (h : s.stopped = false) :
    runMicros (a ++ b) s = if (runMicros a s).stopped then runMicros a s else runMicros b (runMicros a s) := by
  induction a generalizing s with
  | nil => simp [runMicros, h]
  | cons m ms ih =>
    by_cases hm : (settle (perform m s)).stopped = true
    · simp [runMicros, hm]
    · simp [runMicros, hm, ih _ (Bool.eq_false_iff.2 hm)]

/-- The first part leaves a known state that is not stopped. -/
theorem runMicros_append_of {a b : List Micro} {s t : State} (h : s.stopped = false) (ha : runMicros a s = t)
    (ht : t.stopped = false) : runMicros (a ++ b) s = runMicros b t := by
  rw [runMicros_append a b s h, ha, ht]
  simp

/-- One event that raises no fault. -/
theorem runMicros_cons_of {m : Micro} {ms : List Micro} {s t : State} (hm : settle (perform m s) = t)
    (ht : t.stopped = false) : runMicros (m :: ms) s = runMicros ms t := by
  simp [runMicros, hm, ht]

/-- One event that stops the engine. -/
theorem runMicros_cons_stop {m : Micro} {ms : List Micro} {s t : State} (hm : settle (perform m s) = t)
    (ht : t.stopped = true) : runMicros (m :: ms) s = t := by
  simp [runMicros, hm, ht]

/-! ### The lines of a state -/

/-- The state after a piece of a frame: the lines, the registers, and the events that happened. -/
def State.moved (s : State) (clk dio : Level) (r : Datapath) (n : Nat) (evs : List Event) : State :=
  { s with engine := { s.engine with clk := clk, dio := dio, regs := r, seq := s.engine.seq + n, trace := s.engine.trace ++ evs } }

theorem stopped_eq (s : State) : s.stopped = s.engine.fault.any := rfl

@[simp] theorem stopped_moved (s : State) (c d : Level) (r : Datapath) (n : Nat) (evs : List Event) :
    (s.moved c d r n evs).stopped = s.stopped := rfl

@[simp] theorem moved_device (s : State) (c d : Level) (r : Datapath) (n : Nat) (evs : List Event) :
    (s.moved c d r n evs).device = s.device := rfl

@[simp] theorem moved_dir (s : State) (c d : Level) (r : Datapath) (n : Nat) (evs : List Event) :
    (s.moved c d r n evs).engine.dir = s.engine.dir := rfl

@[simp] theorem moved_regs (s : State) (c d : Level) (r : Datapath) (n : Nat) (evs : List Event) :
    (s.moved c d r n evs).engine.regs = r := rfl

@[simp] theorem moved_openFrame (s : State) (c d : Level) (r : Datapath) (n : Nat) (evs : List Event) :
    (s.moved c d r n evs).engine.openFrame = s.engine.openFrame := rfl

@[simp] theorem moved_params (s : State) (c d : Level) (r : Datapath) (n : Nat) (evs : List Event) :
    (s.moved c d r n evs).params = s.params := rfl

theorem moved_moved (s : State) (c d c' d' : Level) (r r' : Datapath) (n n' : Nat) (evs evs' : List Event) :
    (s.moved c d r n evs).moved c' d' r' n' evs' = s.moved c' d' r' (n + n') (evs ++ evs') := by
  simp [State.moved, Nat.add_assoc]

theorem runMicros_writeBit (i : Fin 8) (hi : i ≠ 7) (s : State) (hs : s.stopped = false) (hd : s.engine.dir = .out)
    (hr : s.device.rx = none) :
    runMicros (writeBit i) s =
      s.moved .high (.ofBool (s.engine.regs.txb.getLsbD i.val)) { s.engine.regs with biti := i } 5
        (writeBitEvents (s.engine.regs.txb.getLsbD i.val)) := by
  obtain ⟨e, d, v, h, p⟩ := s
  simp only [stopped_eq] at hs hd hr
  simp [writeBit, Micro.plain, runMicros, perform, regOp, lineOp, completed, State.setRegs, driveClk, driveDio, State.emit,
    settle, State.stopped, State.moved, writeBitEvents, hs, hd, hr, hi, Level.ofBool]

/-! ### The Device's side of a byte -/

/-- What a wire command does to the Device (42_wire_commands.md R131 to R137). -/
def wireEffect (w : WireCmd) (d : Device) : Device :=
  match w with
  | .dataWriteAutoinc => { d.opened 0x40#8 with dmode := .writeAutoinc }
  | .readKeysCmd => { d.opened 0x42#8 with dmode := .readKeys }
  | .displayOff => { d.opened 0x80#8 with don := some false }
  | .displayOn b => { d.opened (encodeWire (.displayOn b)) with don := some true, dbright := some b }
  | .setAddress n => { d.opened (encodeWire (.setAddress n)) with daddr := some n }

/-- What the Device does with the byte it has received. -/
def Device.act (v : Byte) (d : Device) : Device :=
  match d.command v with
  | some w => wireEffect w d
  | none => d.other v

/-- A byte the engine has sent inside a frame: under TimingMet the Device acts on it, otherwise it is UNKNOWN. -/
def Device.sent (timingMet : Bool) (v : Byte) (d : Device) : Device := if timingMet then d.act v else d.forget

theorem execWire_eq (w : WireCmd) (s : State) : execWire w s = .next { s with device := wireEffect w s.device } := by
  cases w <;> rfl

/-- The Device's step, whole: the byte is taken and acted on, nothing else changes. -/
theorem deviceStep_eq (v : Byte) (s : State) :
    deviceStep v s = .next { s with device := { s.device with rx := none }.act v } := by
  have hc : ({ s.device with rx := none } : Device).command v = s.device.command v := rfl
  unfold deviceStep Device.act
  rw [hc]
  cases s.device.command v with
  | none => rfl
  | some w => exact execWire_eq w _

theorem settle_of_rx {s : State} {v : Byte} (h : s.device.rx = some v) :
    settle s = { s with device := { s.device with rx := none }.act v } := by
  simp [settle, h, deviceStep_eq]

@[simp] theorem stopped_settle (s : State) : (settle s).stopped = s.stopped := by
  cases h : s.device.rx with
  | none => rw [settle_of_noRx h]
  | some v => rw [settle_of_rx h]; rfl

theorem data_rx (v : Byte) (d : Device) : (d.data v).rx = d.rx := by
  unfold Device.data
  split
  · split <;> rfl
  · rfl

theorem act_rx (v : Byte) (d : Device) : (d.act v).rx = d.rx := by
  unfold Device.act
  split
  · rename_i w _
    cases w <;> rfl
  · unfold Device.other
    split
    · split
      · exact data_rx v d
      · rfl
    · rfl
    · rfl

theorem sent_rx (t : Bool) (v : Byte) (d : Device) : (d.sent t v).rx = d.rx := by
  unfold Device.sent
  split
  · exact act_rx v d
  · rfl

/-! ### A byte sent -/

/-- A byte sent inside a frame: the lines and events of `moved`, the byte in the byte-level view and at the Device. -/
def State.sentByte (s : State) (r : Datapath) (v : Byte) : State :=
  { s.moved .high (.ofBool (v.getLsbD 7)) { r with txb := v, biti := 7 } 40 (writeByteEvents v) with
    engine := { (s.moved .high (.ofBool (v.getLsbD 7)) { r with txb := v, biti := 7 } 40 (writeByteEvents v)).engine with
      openFrame := s.engine.openFrame.map (· ++ [.out v]) }
    device := if s.engine.openFrame.isSome then s.device.sent s.params.timingMet v else s.device }

theorem runMicros_writeBit_last (s : State) (hs : s.stopped = false) (hd : s.engine.dir = .out)
    (hr : s.device.rx = none) :
    runMicros (writeBit 7) s =
      let t := s.moved .high (.ofBool (s.engine.regs.txb.getLsbD 7)) { s.engine.regs with biti := 7 } 5
        (writeBitEvents (s.engine.regs.txb.getLsbD 7))
      { t with
        engine := { t.engine with openFrame := s.engine.openFrame.map (· ++ [.out s.engine.regs.txb]) }
        device := if s.engine.openFrame.isSome then s.device.sent s.params.timingMet s.engine.regs.txb else s.device } := by
  obtain ⟨e, d, v, h, p⟩ := s
  obtain ⟨disp, dmode, daddr, don, dbright, frame, rx⟩ := d
  simp only [stopped_eq] at hs hd hr
  subst hr
  cases ho : e.openFrame with
  | none =>
    simp [writeBit, Micro.plain, runMicros, perform, regOp, lineOp, completed, State.setRegs, driveClk, driveDio, State.emit,
      settle, State.stopped, State.moved, writeBitEvents, hs, hd, ho, Level.ofBool]
  | some f =>
    cases ht : p.timingMet with
    | false =>
      simp [writeBit, Micro.plain, runMicros, perform, regOp, lineOp, completed, State.setRegs, driveClk, driveDio, State.emit,
        settle, State.stopped, State.moved, writeBitEvents, hs, hd, ho, ht, Level.ofBool, Device.receives, Device.sent, Device.forget]
    | true =>
      simp [writeBit, Micro.plain, runMicros, perform, regOp, lineOp, completed, State.setRegs, driveClk, driveDio, State.emit,
        settle, State.stopped, State.moved, writeBitEvents, hs, hd, ho, ht, Level.ofBool, Device.receives, Device.sent,
        deviceStep_eq]

/-- Register updates before the first event of a sequence are performed first. -/
theorem runMicros_withPre (pre : List RegOp) (m : Micro) (ms : List Micro) (s : State) :
    runMicros (withPre pre (m :: ms)) s = runMicros (m :: ms) (pre.foldl (fun t o => regOp o t) s) := by
  simp [withPre, runMicros, perform, List.foldl_append]

theorem runMicros_writeBits (s : State) (hs : s.stopped = false) (hd : s.engine.dir = .out) (hr : s.device.rx = none) :
    runMicros ((List.finRange 8).flatMap writeBit) s = s.sentByte s.engine.regs s.engine.regs.txb := by
  have hl : (List.finRange 8).flatMap writeBit =
      writeBit 0 ++ (writeBit 1 ++ (writeBit 2 ++ (writeBit 3 ++ (writeBit 4 ++ (writeBit 5 ++ (writeBit 6 ++ writeBit 7)))))) := rfl
  rw [hl]
  refine Eq.trans (runMicros_append_of hs (runMicros_writeBit 0 (by decide) _ hs hd hr) hs) ?_
  refine Eq.trans (runMicros_append_of hs (runMicros_writeBit 1 (by decide) _ hs hd hr) hs) ?_
  refine Eq.trans (runMicros_append_of hs (runMicros_writeBit 2 (by decide) _ hs hd hr) hs) ?_
  refine Eq.trans (runMicros_append_of hs (runMicros_writeBit 3 (by decide) _ hs hd hr) hs) ?_
  refine Eq.trans (runMicros_append_of hs (runMicros_writeBit 4 (by decide) _ hs hd hr) hs) ?_
  refine Eq.trans (runMicros_append_of hs (runMicros_writeBit 5 (by decide) _ hs hd hr) hs) ?_
  refine Eq.trans (runMicros_append_of hs (runMicros_writeBit 6 (by decide) _ hs hd hr) hs) ?_
  refine Eq.trans (runMicros_writeBit_last _ hs hd hr) ?_
  simp [State.sentByte, State.moved, writeByteEvents, writeBitEvents, List.range_succ]

/-- `writeByte(v)` with the data line an output, whole (40_bit_transport.md R90). -/
theorem runMicros_writeByteSeq (src : Src) (s : State) (hs : s.stopped = false) (hd : s.engine.dir = .out)
    (hr : s.device.rx = none) :
    runMicros (writeByteSeq src) s = s.sentByte s.engine.regs (src.value s.engine.regs) := by
  have h := runMicros_writeBits (s.setRegs { s.engine.regs with txb := src.value s.engine.regs }) hs hd hr
  exact (runMicros_withPre [.loadTx src] _ _ s).trans h

/-! ### Frames sent -/

/-- The datapath registers after `writeByte(v)`. -/
def sentRegs (r : Datapath) (v : Byte) : Datapath := { r with txb := v, biti := 7 }

/-- The state after the bytes `vs` of an open frame, with the delay after each (R92). -/
def State.sentBytes (s : State) (vs : List Byte) : State :=
  { s with
    engine := { s.engine with
      clk := vs.foldl (fun _ _ => .high) s.engine.clk
      dio := vs.foldl (fun _ v => .ofBool (v.getLsbD 7)) s.engine.dio
      regs := vs.foldl sentRegs s.engine.regs
      seq := s.engine.seq + 41 * vs.length
      trace := s.engine.trace ++ vs.flatMap (fun v => writeByteEvents v ++ [.wait])
      openFrame := s.engine.openFrame.map (· ++ vs.map .out) }
    device := if s.engine.openFrame.isSome then vs.foldl (fun d v => d.sent s.params.timingMet v) s.device else s.device }

theorem src_sentRegs (src : Src) (r : Datapath) (v : Byte) : src.value (sentRegs r v) = src.value r := by
  cases src <;> rfl

theorem foldl_sent_rx (t : Bool) (vs : List Byte) (d : Device) : (vs.foldl (fun d v => d.sent t v) d).rx = d.rx := by
  induction vs generalizing d with
  | nil => rfl
  | cons v vs ih => rw [List.foldl_cons, ih, sent_rx]

theorem runMicros_wait (s : State) (hs : s.stopped = false) (hr : s.device.rx = none) :
    runMicros [.plain .wait] s = s.emit .wait := by
  obtain ⟨e, d, v, h, p⟩ := s
  simp only [stopped_eq] at hs hr
  simp [Micro.plain, runMicros, perform, lineOp, completed, State.emit, settle, State.stopped, hs, hr]

theorem runMicros_sendSeq (src : Src) (s : State) (hs : s.stopped = false) (hd : s.engine.dir = .out)
    (hr : s.device.rx = none) :
    runMicros (sendSeq src) s = s.sentBytes [src.value s.engine.regs] := by
  have hr' : (s.sentByte s.engine.regs (src.value s.engine.regs)).device.rx = none := by
    simp only [State.sentByte]
    split
    · rw [sent_rx, hr]
    · exact hr
  refine Eq.trans (runMicros_append_of hs (runMicros_writeByteSeq src s hs hd hr) hs) ?_
  refine Eq.trans (runMicros_wait _ hs hr') ?_
  simp [State.sentByte, State.sentBytes, State.moved, State.emit, sentRegs]

theorem sentBytes_cons (s : State) (v : Byte) (vs : List Byte) :
    (s.sentBytes [v]).sentBytes vs = s.sentBytes (v :: vs) := by
  obtain ⟨e, d, w, h, p⟩ := s
  cases ho : e.openFrame <;>
    simp [State.sentBytes, ho, Nat.add_assoc, Nat.mul_add, Nat.add_comm]

/-- The bytes of a frame, one after the other. -/
theorem runMicros_sendAll (srcs : List Src) (s : State) (hs : s.stopped = false) (hd : s.engine.dir = .out)
    (hr : s.device.rx = none) :
    runMicros (srcs.flatMap sendSeq) s = s.sentBytes (srcs.map (Src.value s.engine.regs)) := by
  induction srcs generalizing s with
  | nil =>
    obtain ⟨⟨⟩, d, w, h, p⟩ := s
    simp [runMicros, State.sentBytes]
  | cons src srcs ih =>
    have hr' : (s.sentBytes [src.value s.engine.regs]).device.rx = none := by
      simp only [State.sentBytes]
      split
      · rw [foldl_sent_rx, hr]
      · exact hr
    rw [List.flatMap_cons]
    refine Eq.trans (runMicros_append_of hs (runMicros_sendSeq src s hs hd hr) hs) ?_
    refine Eq.trans (ih _ hs hd hr') ?_
    rw [List.map_cons, ← sentBytes_cons s (src.value s.engine.regs) (srcs.map (Src.value s.engine.regs))]
    exact congrArg _ (List.map_congr_left fun x _ => src_sentRegs x _ _)

/-- A whole frame of sent bytes, at the Device. -/
def Device.frameSent (t : Bool) (vs : List Byte) (d : Device) : Device :=
  (vs.foldl (fun d v => d.sent t v) d.frameOpens).frameCloses t

/-- A whole frame sent by `transact(vs)` (R92): the lines, the events, the frame in the byte-level view, the Device. -/
def State.transacted (s : State) (vs : List Byte) : State :=
  { s with
    engine := { s.engine with
      clk := vs.foldl (fun _ _ => .high) s.engine.clk
      stb := .high
      dio := vs.foldl (fun _ v => .ofBool (v.getLsbD 7)) s.engine.dio
      regs := vs.foldl sentRegs s.engine.regs
      seq := s.engine.seq + (4 + 41 * vs.length)
      trace := s.engine.trace ++ transactEvents vs
      frames := s.engine.frames ++ [vs.map .out]
      openFrame := none }
    device := s.device.frameSent s.params.timingMet vs }

theorem frameCloses_rx (t : Bool) (d : Device) : (d.frameCloses t).rx = d.rx := by
  unfold Device.frameCloses
  split
  · rfl
  · split <;> rfl

/-- `transact(bs)` with the data line an output, whole (R92). -/
theorem runMicros_transactSeq (srcs : List Src) (s : State) (hs : s.stopped = false) (hd : s.engine.dir = .out)
    (hr : s.device.rx = none) :
    runMicros (transactSeq srcs) s = s.transacted (srcs.map (Src.value s.engine.regs)) := by
  have h1 : runMicros [.plain (.stb false), .plain .wait] s = (strobeLow s).emit .wait := by
    obtain ⟨e, d, v, h, p⟩ := s
    simp only [stopped_eq] at hs hr
    simp [Micro.plain, runMicros, perform, lineOp, completed, State.emit, settle, State.stopped, strobeLow, hs, hr,
      Device.frameOpens]
  have h2 := runMicros_sendAll srcs ((strobeLow s).emit .wait) hs hd hr
  have hr2 : (((strobeLow s).emit .wait).sentBytes (srcs.map (Src.value s.engine.regs))).device.rx = none := by
    simp only [State.sentBytes]
    split
    · rw [foldl_sent_rx]; exact hr
    · exact hr
  rw [transactSeq, List.append_assoc]
  refine Eq.trans (runMicros_append_of hs h1 hs) ?_
  refine Eq.trans (runMicros_append_of hs h2 hs) ?_
  generalize hvs : srcs.map (Src.value s.engine.regs) = vs at hr2 ⊢
  have hvs' : srcs.map (Src.value ((strobeLow s).emit .wait).engine.regs) = vs := hvs
  rw [hvs']
  have hr3 : (strobeHigh (((strobeLow s).emit .wait).sentBytes vs)).device.rx = none := by
    rw [strobeHigh_device, frameCloses_rx]; exact hr2
  have h4 : runMicros [.plain (.stb true), .plain .wait] (((strobeLow s).emit .wait).sentBytes vs) =
      (strobeHigh (((strobeLow s).emit .wait).sentBytes vs)).emit .wait := by
    refine Eq.trans (runMicros_cons_of (t := strobeHigh (((strobeLow s).emit .wait).sentBytes vs)) ?_ hs)
      (runMicros_wait _ hs hr3)
    rw [← settle_of_noRx hr3]
    have hs' : (((strobeLow s).emit .wait).sentBytes vs).stopped = false := hs
    have hs'' : (strobeHigh (((strobeLow s).emit .wait).sentBytes vs)).stopped = false := hs
    congr 1
    simp [perform, Micro.plain, lineOp, completed, hs', hs'']
  rw [h4]
  simp [State.transacted, Device.frameSent, State.sentBytes, State.emit, strobeLow, strobeHigh, transactEvents, Nat.add_assoc]
  omega

/-! ### The primitives on their own -/

/-- A primitive that no fault stops: its events, then its last register updates. -/
theorem runTransport_of_safe {ms : List Micro} {post : List RegOp} {s t : State} (hs : s.stopped = false)
    (h : runMicros ms s = t) (ht : t.stopped = false) :
    runTransport ms post s = .next (post.foldl (fun t o => regOp o t) t) := by
  simp [runTransport, hs, h, ht]

/-- WRITE_BYTE with the data line an output, whole (40_bit_transport.md R90). -/
theorem execWriteByte_of_out {s : State} (v : Byte) (hs : s.stopped = false) (hd : s.engine.dir = .out)
    (hr : s.device.rx = none) : execWriteByte v s = .next (s.sentByte s.engine.regs v) :=
  runTransport_of_safe hs (runMicros_writeByteSeq (.lit v) s hs hd hr) hs

/-- TRANSACT with the data line an output, whole (R92). -/
theorem execTransact_of_out {s : State} (bs : List Byte) (hs : s.stopped = false) (hd : s.engine.dir = .out)
    (hr : s.device.rx = none) : execTransact bs s = .next (s.transacted bs) := by
  have h := runMicros_transactSeq (bs.map .lit) s hs hd hr
  rw [List.map_map, show Src.value s.engine.regs ∘ Src.lit = id from rfl, List.map_id] at h
  exact runTransport_of_safe hs h hs

end Sys2Proof.Machine
end

