-- ==== Sys2Proof/Laws/Keys.lean ====
section
/-! SUPPORT. The Device's answers, `readByte`, the key-read frame and the key mask. -/

namespace Sys2Proof.Machine

/-! ### Answers -/

theorem answered_zero (v : Env) : v.answered 0 = v := by simp [Env.answered]

theorem answered_answered (v : Env) (m n : Nat) : (v.answered m).answered n = v.answered (m + n) := by
  simp only [Env.answered, List.drop_drop, List.length_drop, Env.mk.injEq, true_and]
  omega

theorem answer_answered (v : Env) (m k : Nat) : (v.answered m).answer k = v.answer (m + k) := by
  simp only [Env.answer, Env.answered, List.getElem?_drop, List.length_drop]
  cases h : v.draws[m + k]? with
  | some b => rfl
  | none =>
    have := List.getElem?_eq_none_iff.1 h
    show Config.freeDraw _ = Config.freeDraw _
    congr 1
    omega

/-- Drawing one answer. -/
theorem draw_eq (v : Env) : v.draw = (v.answer 0, v.answered 1) := by
  obtain ⟨b, d, f⟩ := v
  cases d <;> simp [Env.draw, Env.answer, Env.answered]

/-! ### `readByte` -/

/-- The state after a piece of a read. -/
def State.heard (s : State) (r : Datapath) (n : Nat) (evs : List Event) (v : Env) : State :=
  { s.moved .high s.engine.dio r n evs with env := v }

/-- The registers after the sample of bit `i` (R91, 60_exceptions.md R160): the bit before, if there is one, is in RXB. -/
def hearsBit (r : Datapath) (i : Fin 8) (b : Bool) : Datapath :=
  { r with rxb := if i = 0 then 0#8 else receivedByte r, biti := i, sampled := b }

/-- The registers after the eight samples of a byte, RXB not yet holding the last. -/
def hearsByte (r : Datapath) (f : Nat → Bool) : Datapath :=
  (List.finRange 8).foldl (fun r i => hearsBit r i (f i.val)) r

theorem regOps_hearsBit (i : Fin 8) (s : State) :
    regOp (.bit i) (regOp (if i = 0 then .clearRx else .orRx) s) =
      s.setRegs { s.engine.regs with rxb := if i = 0 then 0#8 else receivedByte s.engine.regs, biti := i } := by
  split <;> rfl

theorem runMicros_readBit (i : Fin 8) (hi : i ≠ 7) (s : State) (hs : s.stopped = false) (hd : s.engine.dir = .inp)
    (hr : s.device.rx = none) :
    runMicros (readBit i) s =
      s.heard (hearsBit s.engine.regs i (s.env.answer 0)) 5 (readBitEvents (s.env.answer 0)) (s.env.answered 1) := by
  obtain ⟨e, d, v, h, p⟩ := s
  simp only [stopped_eq] at hs hd hr
  simp [readBit, Micro.plain, runMicros, perform, regOps_hearsBit, lineOp, completed, State.setRegs, driveClk, sampleOp, State.emit,
    settle, State.stopped, State.moved, State.heard, readBitEvents, hs, hd, hr, hi, draw_eq, Level.ofBool, hearsBit]

/-- A byte read inside a frame, before RXB has its last bit. -/
def State.heardByte (s : State) (r : Datapath) (n : Nat) (evs : List Event) (w : Env) : State :=
  { s.heard r n evs w with
    engine := { (s.heard r n evs w).engine with openFrame := s.engine.openFrame.map (· ++ [.inp (receivedByte r)]) }
    device := if s.engine.openFrame.isSome then s.device.supplied s.params.timingMet (receivedByte r) else s.device }

theorem supplied_rx (t : Bool) (v : Byte) (d : Device) : (d.supplied t v).rx = d.rx := by
  unfold Device.supplied
  split <;> rfl

theorem runMicros_readBit_last (s : State) (hs : s.stopped = false) (hd : s.engine.dir = .inp)
    (hr : s.device.rx = none) :
    runMicros (readBit 7) s =
      s.heardByte (hearsBit s.engine.regs 7 (s.env.answer 0)) 5 (readBitEvents (s.env.answer 0)) (s.env.answered 1) := by
  obtain ⟨e, d, v, h, p⟩ := s
  simp only [stopped_eq] at hs hd hr
  cases ho : e.openFrame <;>
    simp [readBit, Micro.plain, runMicros, perform, regOp, lineOp, completed, State.setRegs, driveClk, sampleOp, State.emit,
      settle, State.stopped, State.moved, State.heard, State.heardByte, readBitEvents, hs, hd, hr, ho, draw_eq, Level.ofBool,
      supplied_rx, hearsBit]

theorem byteOf_eq (f : Nat → Bool) :
    byteOf f = 0#8 ||| (bitByte (f 0) <<< 0) ||| (bitByte (f 1) <<< 1) ||| (bitByte (f 2) <<< 2) ||| (bitByte (f 3) <<< 3)
      ||| (bitByte (f 4) <<< 4) ||| (bitByte (f 5) <<< 5) ||| (bitByte (f 6) <<< 6) ||| (bitByte (f 7) <<< 7) := rfl

theorem bitByte_getLsbD (b : Bool) (j : Nat) : (bitByte b).getLsbD j = (decide (j = 0) && b) := by
  cases b <;> cases j <;> simp [bitByte, BitVec.getLsbD_one]

/-- Bit `j` of an assembled byte is the `j`-th bit it was assembled from. -/
theorem byteOf_getLsbD (f : Nat → Bool) (j : Nat) (hj : j < 8) : (byteOf f).getLsbD j = f j := by
  rw [byteOf_eq]
  have hb : ∀ (b : Bool) (k : Nat) (hk : k < 8), (bitByte b)[k] = (decide (k = 0) && b) := fun b k hk => by
    rw [← BitVec.getLsbD_eq_getElem, bitByte_getLsbD]
  interval_cases j <;> simp [hb]

/-- `readByte` returns the byte of its eight samples (R91). -/
theorem receivedByte_hearsByte (r : Datapath) (f : Nat → Bool) : receivedByte (hearsByte r f) = byteOf f := rfl

theorem heard_dir (s : State) (r : Datapath) (n : Nat) (evs : List Event) (v : Env) :
    (s.heard r n evs v).engine.dir = s.engine.dir := rfl

/-- One more bit after `k` answers. -/
theorem runMicros_readBit_at (i : Fin 8) (hi : i ≠ 7) (k : Nat) (w : Env) (s : State) (r : Datapath) (n : Nat) (evs : List Event)
    (hs : s.stopped = false) (hd : s.engine.dir = .inp) (hr : s.device.rx = none) :
    runMicros (readBit i) (s.heard r n evs (w.answered k)) =
      s.heard (hearsBit r i (w.answer k)) (n + 5) (evs ++ readBitEvents (w.answer k)) (w.answered (k + 1)) := by
  refine Eq.trans (runMicros_readBit i hi _ hs hd hr) ?_
  simp [State.heard, State.moved, answer_answered, answered_answered, Nat.add_assoc]

theorem runMicros_readBit_last_at (k : Nat) (w : Env) (s : State) (r : Datapath) (n : Nat) (evs : List Event)
    (hs : s.stopped = false) (hd : s.engine.dir = .inp) (hr : s.device.rx = none) :
    runMicros (readBit 7) (s.heard r n evs (w.answered k)) =
      s.heardByte (hearsBit r 7 (w.answer k)) (n + 5) (evs ++ readBitEvents (w.answer k)) (w.answered (k + 1)) := by
  refine Eq.trans (runMicros_readBit_last _ hs hd hr) ?_
  simp [State.heard, State.heardByte, State.moved, answer_answered, answered_answered, Nat.add_assoc]

/-- `readByte()` with the data line an input, whole (40_bit_transport.md R91), its last write of RXB apart. -/
theorem runMicros_readByteSeq (s : State) (hs : s.stopped = false) (hd : s.engine.dir = .inp) (hr : s.device.rx = none) :
    runMicros readByteSeq s =
      s.heardByte (hearsByte s.engine.regs s.env.answer) 40 (readByteEvents ((List.range 8).map s.env.answer))
        (s.env.answered 8) := by
  have hl : readByteSeq =
      readBit 0 ++ (readBit 1 ++ (readBit 2 ++ (readBit 3 ++ (readBit 4 ++ (readBit 5 ++ (readBit 6 ++ readBit 7)))))) := rfl
  rw [hl]
  refine Eq.trans (runMicros_append_of hs (runMicros_readBit 0 (by decide) s hs hd hr) hs) ?_
  refine Eq.trans (runMicros_append_of hs (runMicros_readBit_at 1 (by decide) 1 _ _ _ _ _ hs hd hr) hs) ?_
  refine Eq.trans (runMicros_append_of hs (runMicros_readBit_at 2 (by decide) 2 _ _ _ _ _ hs hd hr) hs) ?_
  refine Eq.trans (runMicros_append_of hs (runMicros_readBit_at 3 (by decide) 3 _ _ _ _ _ hs hd hr) hs) ?_
  refine Eq.trans (runMicros_append_of hs (runMicros_readBit_at 4 (by decide) 4 _ _ _ _ _ hs hd hr) hs) ?_
  refine Eq.trans (runMicros_append_of hs (runMicros_readBit_at 5 (by decide) 5 _ _ _ _ _ hs hd hr) hs) ?_
  refine Eq.trans (runMicros_append_of hs (runMicros_readBit_at 6 (by decide) 6 _ _ _ _ _ hs hd hr) hs) ?_
  refine Eq.trans (runMicros_readBit_last_at 7 _ _ _ _ _ hs hd hr) ?_
  rfl

/-- The state after READ_BYTE with the data line an input (R91). -/
def State.readOne (s : State) : State :=
  (s.heardByte (hearsByte s.engine.regs s.env.answer) 40 (readByteEvents ((List.range 8).map s.env.answer))
    (s.env.answered 8)).setRegs { s.engine.regs with rxb := s.env.reply 0, biti := 7, sampled := s.env.answer 7 }

/-- READ_BYTE with the data line an input, whole (R91). -/
theorem execReadByte_of_inp {s : State} (hs : s.stopped = false) (hd : s.engine.dir = .inp) (hr : s.device.rx = none) :
    execReadByte s = .next s.readOne :=
  runTransport_of_safe hs (runMicros_readByteSeq s hs hd hr) hs

/-! ### The key-read frame -/

theorem reply_answered (v : Env) (k i : Nat) : (v.answered (8 * k)).reply i = v.reply (k + i) := by
  simp only [Env.reply, answer_answered]
  congr 1
  funext j
  congr 1
  omega

/-- One reply byte read and stored (41_command_layer.md R108). -/
def State.gotKey (s : State) (i : Fin 4) : State :=
  { s with
    engine := { s.engine with
      clk := .high
      regs := { s.engine.regs with
        rxb := s.env.reply 0, biti := 7, sampled := s.env.answer 7, kb := s.engine.regs.kb.set i (s.env.reply 0) }
      seq := s.engine.seq + 41
      trace := s.engine.trace ++ (readByteEvents ((List.range 8).map s.env.answer) ++ [.wait])
      openFrame := s.engine.openFrame.map (· ++ [.inp (s.env.reply 0)]) }
    env := s.env.answered 8
    device := if s.engine.openFrame.isSome then s.device.supplied s.params.timingMet (s.env.reply 0) else s.device }

theorem runMicros_keyByteSeq (i : Fin 4) (s : State) (hs : s.stopped = false) (hd : s.engine.dir = .inp)
    (hr : s.device.rx = none) : runMicros (keyByteSeq i) s = s.gotKey i := by
  have hr' : (s.gotKey i).device.rx = none := by
    simp only [State.gotKey]
    split
    · rw [supplied_rx, hr]
    · exact hr
  refine Eq.trans (runMicros_append_of hs (runMicros_readByteSeq s hs hd hr) hs) ?_
  refine Eq.trans (runMicros_cons_of (t := s.gotKey i) ?_ hs) rfl
  rw [← settle_of_noRx hr']
  have hs' : s.engine.fault.any = false := hs
  have hv : s.env.reply 0 = byteOf s.env.answer := by simp [Env.reply]
  congr 1
  simp [perform, readByteEnd, regOp, lineOp, completed, State.setRegs, State.emit, State.heardByte, State.heard, State.moved,
    State.gotKey, stopped_eq, hs', hv, receivedByte_hearsByte]
  exact ⟨rfl, rfl, rfl, rfl, rfl, rfl, rfl, rfl, rfl⟩

/-- The first `k` reply bytes read and stored, for `k` from 1 to 4. -/
def State.gotKeys (s : State) (k : Nat) : State :=
  { s with
    engine := { s.engine with
      clk := .high
      regs := { s.engine.regs with
        rxb := s.env.reply (k - 1), biti := 7, sampled := s.env.answer (8 * k - 1)
        kb := Vector.ofFn fun i : Fin 4 => if i.val < k then s.env.reply i.val else s.engine.regs.kb[i] }
      seq := s.engine.seq + 41 * k
      trace := s.engine.trace ++
        (List.range k).flatMap (fun i => readByteEvents ((List.range 8).map fun j => s.env.answer (8 * i + j)) ++ [.wait])
      openFrame := s.engine.openFrame.map (· ++ (List.range k).map fun i => .inp (s.env.reply i)) }
    env := s.env.answered (8 * k)
    device := if s.engine.openFrame.isSome
      then (List.range k).foldl (fun d i => d.supplied s.params.timingMet (s.env.reply i)) s.device else s.device }

theorem gotKey_zero (s : State) : s.gotKey 0 = s.gotKeys 1 := by
  obtain ⟨e, d, v, h, p⟩ := s
  have hk : e.regs.kb.set 0 (v.reply 0) = Vector.ofFn fun i : Fin 4 => if i.val < 1 then v.reply i.val else e.regs.kb[i] := by
    ext i hi
    interval_cases i <;> simp
  simp [State.gotKey, State.gotKeys, hk]

theorem gotKey_succ (s : State) (k : Fin 4) : (s.gotKeys k.val).gotKey k = s.gotKeys (k.val + 1) := by
  obtain ⟨e, d, v, h, p⟩ := s
  have hk : (Vector.ofFn fun i : Fin 4 => if i.val < k.val then v.reply i.val else e.regs.kb[i]).set k.val (v.reply k.val) =
      Vector.ofFn fun i : Fin 4 => if i.val < k.val + 1 then v.reply i.val else e.regs.kb[i] := by
    ext i hi
    simp only [Vector.getElem_set, Vector.getElem_ofFn]
    by_cases hik : k.val = i
    · subst hik
      simp
    · have : (i < k.val + 1) ↔ i < k.val := by omega
      simp [hik, this]
  cases ho : e.openFrame <;>
    simpa [State.gotKey, State.gotKeys, ho, List.range_succ, reply_answered, answer_answered, answered_answered, Nat.mul_add,
      Nat.add_assoc] using hk

/-- The four reply bytes (R108). -/
theorem runMicros_keyBytes (s : State) (hs : s.stopped = false) (hd : s.engine.dir = .inp) (hr : s.device.rx = none) :
    runMicros ((List.finRange 4).flatMap keyByteSeq) s = s.gotKeys 4 := by
  have hl : (List.finRange 4).flatMap keyByteSeq = keyByteSeq 0 ++ (keyByteSeq 1 ++ (keyByteSeq 2 ++ keyByteSeq 3)) := rfl
  have hrk : ∀ k, (s.gotKeys k).device.rx = none := by
    intro k
    have hf : ∀ (l : List Nat) (d : Device), (l.foldl (fun d i => d.supplied s.params.timingMet (s.env.reply i)) d).rx = d.rx := by
      intro l
      induction l with
      | nil => exact fun _ => rfl
      | cons i l ih => exact fun d => (ih _).trans (supplied_rx _ _ _)
    simp only [State.gotKeys]
    split
    · rw [hf, hr]
    · exact hr
  have h0 := (runMicros_keyByteSeq 0 s hs hd hr).trans (gotKey_zero s)
  have h1 := (runMicros_keyByteSeq 1 (s.gotKeys 1) hs hd (hrk 1)).trans (gotKey_succ s 1)
  have h2 := (runMicros_keyByteSeq 2 (s.gotKeys 2) hs hd (hrk 2)).trans (gotKey_succ s 2)
  have h3 := (runMicros_keyByteSeq 3 (s.gotKeys 3) hs hd (hrk 3)).trans (gotKey_succ s 3)
  rw [hl]
  refine Eq.trans (runMicros_append_of hs h0 hs) ?_
  refine Eq.trans (runMicros_append_of hs h1 hs) ?_
  exact Eq.trans (runMicros_append_of hs h2 hs) h3

/-- The state after the key-read frame, whole. -/
def State.keysRead (s : State) : State :=
  { s with
    engine := { s.engine with
      clk := .high, stb := .high, dio := .x, dir := .out
      regs := { s.engine.regs with
        txb := 0x42#8, rxb := s.env.reply 3, biti := 7, sampled := s.env.answer 31
        kb := #v[s.env.reply 0, s.env.reply 1, s.env.reply 2, s.env.reply 3] }
      seq := s.engine.seq + 211
      trace := s.engine.trace ++ keyFrameEvents s.env.answer
      frames := s.engine.frames ++ [keyFrame s.env.reply]
      openFrame := none }
    env := s.env.answered 32
    device := ((List.range 4).foldl (fun d i => d.supplied s.params.timingMet (s.env.reply i))
      (s.device.frameOpens.sent s.params.timingMet 0x42#8)).frameCloses s.params.timingMet }

theorem runMicros_keyFrameSeq (s : State) (hs : s.stopped = false) (hd : s.engine.dir = .out) (hr : s.device.rx = none) :
    runMicros keyFrameSeq s = s.keysRead := by
  have h1 : runMicros [.plain (.stb false), .plain .wait] s = (strobeLow s).emit .wait := by
    obtain ⟨e, d, v, h, p⟩ := s
    simp only [stopped_eq] at hs hr
    simp [Micro.plain, runMicros, perform, lineOp, completed, State.emit, settle, State.stopped, strobeLow, hs, hr,
      Device.frameOpens]
  have h2 := runMicros_writeByteSeq (.lit 0x42#8) ((strobeLow s).emit .wait) hs hd hr
  have hr2 : ((s.device.frameOpens).sent s.params.timingMet 0x42#8).rx = none := by rw [sent_rx]; exact hr
  have h3 : ∀ t : State, t.stopped = false → t.device.rx = none → runMicros [.plain .wait, .plain .dirIn] t = dirIn (t.emit .wait) := by
    intro t ht hrt
    obtain ⟨e, d, v, h, p⟩ := t
    simp only [stopped_eq] at ht hrt
    simp [Micro.plain, runMicros, perform, lineOp, completed, State.emit, settle, State.stopped, dirIn, ht, hrt]
  have h5 : ∀ t : State, t.stopped = false → t.device.rx = none →
      runMicros [.plain .dirOut, .plain (.stb true), .plain .wait] t = (strobeHigh (dirOut t)).emit .wait := by
    intro t ht hrt
    obtain ⟨e, d, v, h, p⟩ := t
    simp only [stopped_eq] at ht hrt
    simp [Micro.plain, runMicros, perform, lineOp, completed, State.emit, settle, State.stopped, dirOut, strobeHigh, ht, hrt,
      frameCloses_rx]
  have hf : ∀ (f : Nat → Byte) (l : List Nat) (d : Device), (l.foldl (fun d i => d.supplied s.params.timingMet (f i)) d).rx = d.rx := by
    intro f l
    induction l with
    | nil => exact fun _ => rfl
    | cons i l ih => exact fun d => (ih _).trans (supplied_rx _ _ _)
  unfold keyFrameSeq
  simp only [List.append_assoc]
  refine Eq.trans (runMicros_append_of hs h1 hs) ?_
  refine Eq.trans (runMicros_append_of hs h2 hs) ?_
  refine Eq.trans (runMicros_append_of hs (h3 _ hs hr2) hs) ?_
  refine Eq.trans (runMicros_append_of hs (runMicros_keyBytes _ hs rfl hr2) hs) ?_
  refine Eq.trans (h5 _ hs ((hf _ _ _).trans hr2)) ?_
  simp [State.keysRead, State.gotKeys, State.sentByte, State.moved, State.emit, strobeLow, strobeHigh, dirIn, dirOut,
    keyFrameEvents, keyFrame, Src.value, Nat.add_assoc]
  rfl

end Sys2Proof.Machine
end

