-- ==== Sys2Proof/Laws/Device.lean ====
section
/-! SUPPORT. What each frame the engine sends leaves at the Device, one lemma per frame shape (spec 30_encoding.md R78,
42_wire_commands.md R131 to R138). -/

namespace Sys2Proof.Machine

/-! ### Decoding the bytes that are sent -/

theorem decodeWire_displayOn (b : BitVec 3) : decodeWire (encodeWire (.displayOn b)) = some (.displayOn b) := by
  revert b; decide

theorem decodeWire_setAddress (n : BitVec 4) : decodeWire (encodeWire (.setAddress n)) = some (.setAddress n) := by
  revert n; decide

theorem isSetAddress_setAddress (n : BitVec 4) : isSetAddress (encodeWire (.setAddress n)) = true := by
  revert n; decide

theorem isDisplayControl_displayOn (b : BitVec 3) : isDisplayControl (encodeWire (.displayOn b)) = true := by
  revert b; decide

/-! ### Frames without TimingMet -/

theorem foldl_forget (vs : List Byte) (d : Device) (h : d.forget = d) : vs.foldl (fun d v => d.sent false v) d = d := by
  induction vs with
  | nil => rfl
  | cons v vs ih =>
    have : d.sent false v = d := h
    rw [List.foldl_cons, this, ih]

theorem foldl_sent_false (vs : List Byte) (d : Device) :
    vs.foldl (fun d v => d.sent false v) d = d ∨ vs.foldl (fun d v => d.sent false v) d = d.forget := by
  cases vs with
  | nil => exact .inl rfl
  | cons v vs => exact .inr (foldl_forget vs d.forget rfl)

/-- Without TimingMet every frame leaves the Device UNKNOWN (R130). -/
theorem frameSent_false (vs : List Byte) (d : Device) : d.frameSent false vs = { d.forget with frame := none } := by
  rcases foldl_sent_false vs d.frameOpens with h | h <;> simp only [Device.frameSent, h] <;> rfl

/-! ### Frames with TimingMet -/

/-- Frame F1 (R131). -/
theorem frameSent_mode (d : Device) : d.frameSent true [0x40#8] = { d with dmode := .writeAutoinc, frame := none } := rfl

/-- Frame F2, display off (R136). -/
theorem frameSent_off (d : Device) : d.frameSent true [0x80#8] = { d with don := some false, frame := none } := rfl

/-- Frame F2, display on (R137). -/
theorem frameSent_on (b : BitVec 3) (d : Device) :
    d.frameSent true [encodeWire (.displayOn b)] = { d with don := some true, dbright := some b, frame := none } := by
  simp [Device.frameSent, Device.sent, Device.act, Device.command, Device.frameOpens, decodeWire_displayOn, wireEffect,
    Device.opened, Device.frameCloses, Frame.known, isDisplayControl_displayOn]

/-- Frame F3 (R134). -/
theorem frameSent_address (n : BitVec 4) (d : Device) :
    d.frameSent true [encodeWire (.setAddress n)] = { d with daddr := some n, frame := none } := by
  simp [Device.frameSent, Device.sent, Device.act, Device.command, Device.frameOpens, decodeWire_setAddress, wireEffect,
    Device.opened, Device.frameCloses, Frame.known, isSetAddress_setAddress]

/-- Frame F4 in write mode (R133, R134). -/
theorem frameSent_pair (n : BitVec 4) (v : Byte) (d : Device) (h : d.dmode = .writeAutoinc) :
    d.frameSent true [encodeWire (.setAddress n), v] =
      { d with disp := d.disp.write n.toNat v, daddr := nextAddr n, frame := none } := by
  simp [Device.frameSent, Device.sent, Device.act, Device.command, Device.frameOpens, decodeWire_setAddress, wireEffect,
    Device.opened, Device.other, Device.data, Device.frameCloses, Frame.known, isSetAddress_setAddress, h]

/-- A data byte inside a SET_ADDRESS frame (R133). -/
theorem sent_data (v a : Byte) (rest : Frame) (d : Device) (hf : d.frame = some (.out a :: rest)) (ha : isSetAddress a = true) :
    d.sent true v = { d.data v with frame := some (.out a :: rest ++ [.out v]) } := by
  simp [Device.sent, Device.act, Device.command, Device.other, hf, ha]

theorem data_frame (v : Byte) (d : Device) : (d.data v).frame = d.frame := by
  unfold Device.data
  split
  · split <;> rfl
  · rfl

theorem data_setFrame (v : Byte) (d : Device) (f : Option Frame) :
    ({ d with frame := f } : Device).data v = { d.data v with frame := f } := by
  obtain ⟨disp, dmode, daddr, don, dbright, frame, rx⟩ := d
  cases dmode <;> cases daddr <;> rfl

/-- The data bytes of a SET_ADDRESS frame. -/
theorem foldl_sent_data (vs : List Byte) (a : Byte) (rest : Frame) (d : Device) (hf : d.frame = some (.out a :: rest))
    (ha : isSetAddress a = true) :
    vs.foldl (fun d v => d.sent true v) d =
      { vs.foldl (fun d v => d.data v) d with frame := some (.out a :: rest ++ vs.map .out) } := by
  induction vs generalizing d rest with
  | nil =>
    obtain ⟨disp, dmode, daddr, don, dbright, frame, rx⟩ := d
    simp only at hf
    simp [hf]
  | cons v vs ih =>
    rw [List.foldl_cons, sent_data v a rest d hf ha, ih (rest ++ [.out v]) _ (by simp)]
    have hg : ∀ (l : List Byte) (d : Device) (f : Option Frame),
        l.foldl (fun d v => d.data v) { d with frame := f } = { l.foldl (fun d v => d.data v) d with frame := f } := by
      intro l
      induction l with
      | nil => exact fun _ _ => rfl
      | cons w l ihl => exact fun d f => by rw [List.foldl_cons, List.foldl_cons, data_setFrame, ihl]
    rw [hg]
    simp

/-- Frame F5 in write mode: the sixteen bytes from address 0 (R133, R135). -/
theorem frameSent_full (d : Device) (h : d.dmode = .writeAutoinc) :
    d.frameSent true (0xC0#8 :: List.replicate 16 0x00#8) =
      { d with disp := (List.range 16).foldl (fun m a => m.write a 0x00#8) d.disp, daddr := none, frame := none } := by
  obtain ⟨disp, dmode, daddr, don, dbright, frame, rx⟩ := d
  subst h
  have h0 : ∀ d : Device, d.frameOpens.sent true 0xC0#8 = { d with daddr := some 0, frame := some [.out 0xC0#8] } := fun _ => rfl
  have hk : Frame.known (.out 0xC0#8 :: List.replicate 16 (.out 0x00#8)) = true := by decide
  rw [Device.frameSent, List.foldl_cons, h0, foldl_sent_data _ 0xC0#8 [] _ rfl rfl]
  simp only [Device.frameCloses, List.map_replicate, List.nil_append, List.cons_append, hk, Bool.and_self, if_true]
  simp [List.replicate, Device.data, nextAddr, List.range_succ]

/-- Outside write mode data bytes leave display memory UNKNOWN and change nothing else (R133). -/
theorem foldl_data_outside (vs : List Byte) (d : Device) (h : d.dmode ≠ .writeAutoinc) (h0 : d.disp = []) :
    vs.foldl (fun d v => d.data v) d = d := by
  induction vs with
  | nil => rfl
  | cons v vs ih =>
    have hv : d.data v = d := by
      cases d
      simp only at h h0
      simp [Device.data, h, h0]
    rw [List.foldl_cons, hv]
    exact ih

/-- Frame F5 outside write mode (R133). -/
theorem frameSent_full_outside (d : Device) (h : d.dmode ≠ .writeAutoinc) :
    d.frameSent true (0xC0#8 :: List.replicate 16 0x00#8) = { d with disp := [], daddr := some 0, frame := none } := by
  have h0 : d.frameOpens.sent true 0xC0#8 = { d with daddr := some 0, frame := some [.out 0xC0#8] } := rfl
  have hk : Frame.known (.out 0xC0#8 :: List.replicate 16 (.out 0x00#8)) = true := by decide
  rw [Device.frameSent, List.foldl_cons, h0, foldl_sent_data _ 0xC0#8 [] _ rfl rfl, List.replicate_succ, List.foldl_cons,
    foldl_data_outside _ _ (by simp [Device.data, h]) (by simp [Device.data, h])]
  rw [← List.replicate_succ]
  simp only [Device.frameCloses, List.map_replicate, List.nil_append, List.cons_append, hk, Bool.and_self, if_true]
  simp [Device.data, h]

/-- Frame F6: the key read (R132). Nothing but DMODE changes (R141). -/
theorem frameSent_keys (r : Nat → Byte) (d : Device) :
    ((List.range 4).foldl (fun d i => d.supplied true (r i)) (d.frameOpens.sent true 0x42#8)).frameCloses true =
      { d with dmode := .readKeys, frame := none } := rfl

theorem frameSent_keys_false (r : Nat → Byte) (d : Device) :
    ((List.range 4).foldl (fun d i => d.supplied false (r i)) (d.frameOpens.sent false 0x42#8)).frameCloses false =
      { d.forget with frame := none } := rfl

theorem read_foldl_zero (l : List Nat) (m : Memory) (a : Nat) :
    (l.foldl (fun m a => m.write a 0x00#8) m).read a = if a ∈ l then some 0x00#8 else m.read a := by
  induction l generalizing m with
  | nil => simp
  | cons b l ih =>
    rw [List.foldl_cons, ih, Memory.read_write]
    by_cases h1 : a ∈ l <;> by_cases h2 : a = b <;> simp [h1, h2]

/-- The memory after a full write reads zero everywhere. -/
theorem read_full (m : Memory) (a : Nat) :
    ((List.range 16).foldl (fun m a => m.write a 0x00#8) m).read a = if a < 16 then some 0x00#8 else m.read a := by
  rw [read_foldl_zero]
  simp

end Sys2Proof.Machine
end

