-- ==== Sys2Proof/Laws/HostOps.lean ====
section
/-! SUPPORT. The envelope, the end of an operation, and the bodies of the host operations. -/

namespace Sys2Proof.Machine

/-! ### The envelope -/

/-- An accepted operation is issued and performs its event sequence. -/
theorem runHostOp_accepts {s : State} {o : HostOp} (h : Accepts s o) :
    runHostOp o s = .next (runMicros (opSeq o) (issueOp o s)) := by
  have hb : (!o.isInit && s.engine.bind.isNone) = false := by
    cases hi : o.isInit with
    | true => rfl
    | false => simpa using h.bound hi
  have he : envelope (.op o) s = issueOp o s := by simp [envelope, h.idle, hb]
  have hs : (issueOp o s).stopped = false := h.safe
  have hs' : s.stopped = false := h.safe
  simp [runHostOp, he, hs, hs']

/-! ### Register updates -/

/-- Every register update but the binding changes registers, levels and KEYMASK only. -/
def RegOp.isBind : RegOp → Bool
  | .bindPins _ _ _ => true
  | _ => false

theorem regOp_device (o : RegOp) (s : State) : (regOp o s).device = s.device := by
  cases o <;> simp [regOp, bindOp]
  split <;> rfl

theorem regOp_env (o : RegOp) (s : State) : (regOp o s).env = s.env := by
  cases o <;> simp [regOp, bindOp]
  split <;> rfl

theorem regOp_params (o : RegOp) (s : State) : (regOp o s).params = s.params := by
  cases o <;> simp [regOp, bindOp]
  split <;> rfl

theorem regOp_host (o : RegOp) (s : State) : (regOp o s).host = s.host := by
  cases o <;> simp [regOp, bindOp]
  split <;> rfl

theorem regOp_stopped (o : RegOp) (ho : o.isBind = false) (s : State) : (regOp o s).stopped = s.stopped := by
  cases o <;> first | rfl | simp [RegOp.isBind] at ho

/-- Register updates, one after the other. -/
def regOps (pre : List RegOp) (s : State) : State := pre.foldl (fun t o => regOp o t) s

theorem regOps_device (pre : List RegOp) (s : State) : (regOps pre s).device = s.device := by
  induction pre generalizing s with
  | nil => rfl
  | cons o pre ih => exact (ih _).trans (regOp_device o s)

theorem regOps_stopped (pre : List RegOp) (h : ∀ o ∈ pre, o.isBind = false) (s : State) :
    (regOps pre s).stopped = s.stopped := by
  induction pre generalizing s with
  | nil => rfl
  | cons o pre ih =>
    exact (ih (fun p hp => h p (List.mem_cons_of_mem _ hp)) _).trans (regOp_stopped o (h o List.mem_cons_self) s)

theorem regOps_append (a b : List RegOp) (s : State) : regOps (a ++ b) s = regOps b (regOps a s) := List.foldl_append

/-! ### The end of an operation -/

/-- `Done`, after register updates. -/
theorem runMicros_doneSeq (pre : List RegOp) (h : ∀ o ∈ pre, o.isBind = false) (s : State) (hs : s.stopped = false)
    (hr : s.device.rx = none) : runMicros (doneSeq pre) s = finish (regOps pre s) := by
  have hs1 : (regOps pre s).stopped = false := (regOps_stopped pre h s).trans hs
  have hs2 : (finish (regOps pre s)).stopped = false := hs1
  have hr1 : (finish (regOps pre s)).device.rx = none := by rw [finish_device, regOps_device, hr]
  have hp : perform { pre := pre, op := .done } s = finish (regOps pre s) := by
    have hs1' : (pre.foldl (fun t o => regOp o t) s).stopped = false := hs1
    have hs2' : (finish (pre.foldl (fun t o => regOp o t) s)).stopped = false := hs2
    simp [perform, lineOp, completed, hs1', hs2', regOps]
  refine Eq.trans (runMicros_cons_of (t := finish (regOps pre s)) ?_ hs2) rfl
  rw [hp, settle_of_noRx hr1]

/-! ### Frames from registers -/

theorem transacted_setRegs (s : State) (r : Datapath) (vs : List Byte) :
    (s.setRegs r).transacted vs = (s.transacted vs).setRegs (vs.foldl sentRegs r) := rfl

/-- Register updates, then the frame of (LAST_ADDR, LAST_SEG). -/
theorem runMicros_placeSeq (pre : List RegOp) (h : ∀ o ∈ pre, o.isBind = false) (s : State) (hs : s.stopped = false)
    (hd : (regOps pre s).engine.dir = .out) (hr : s.device.rx = none) :
    runMicros (placeSeq pre) s =
      (regOps pre s).transacted [(regOps pre s).engine.regs.lastAddr, (regOps pre s).engine.regs.lastSeg] := by
  have hs1 : (regOps pre s).stopped = false := (regOps_stopped pre h s).trans hs
  have hr1 : (regOps pre s).device.rx = none := by rw [regOps_device, hr]
  exact (runMicros_withPre pre _ _ s).trans (runMicros_transactSeq [.lastAddr, .lastSeg] _ hs1 hd hr1)

theorem foldl_frameSent_rx (t : Bool) (vs : List Byte) (d : Device) : (d.frameSent t vs).rx = d.rx := by
  rw [Device.frameSent, frameCloses_rx, foldl_sent_rx]
  rfl

theorem transacted_rx (s : State) (vs : List Byte) : (s.transacted vs).device.rx = s.device.rx :=
  foldl_frameSent_rx _ _ _

/-! ### CLEAR_BODY -/

/-- CLEAR_BODY (41_command_layer.md R102): the two frames. -/
theorem runMicros_clearBody (s : State) (hs : s.stopped = false) (hd : s.engine.dir = .out) (hr : s.device.rx = none) :
    runMicros clearBody s = (s.transacted [0x40#8]).transacted zeroBytes := by
  have h1 := runMicros_transactSeq [.lit 0x40#8] s hs hd hr
  have h2 := runMicros_transactSeq (.lit 0xC0#8 :: List.replicate 16 (.lit 0x00#8)) (s.transacted [0x40#8]) hs hd
    ((transacted_rx _ _).trans hr)
  refine Eq.trans (runMicros_append_of hs h1 hs) (Eq.trans h2 ?_)
  rw [List.map_cons, List.map_replicate]
  rfl

/-! ### showDigits -/

/-- A list of frames, one after the other. -/
def State.transactedAll (s : State) (fs : List (List Byte)) : State := fs.foldl (fun s vs => s.transacted vs) s

theorem transactedAll_setRegs (s : State) (r : Datapath) (fs : List (List Byte)) :
    ∃ r', (s.setRegs r).transactedAll fs = (s.transactedAll fs).setRegs r' := by
  induction fs generalizing s r with
  | nil => exact ⟨r, rfl⟩
  | cons vs fs ih => exact ih (s.transacted vs) (vs.foldl sentRegs r)

theorem finish_setRegs (s : State) (r : Datapath) : finish (s.setRegs r) = finish s := rfl

end Sys2Proof.Machine
end

