-- ==== Sys2Proof/Laws/Show.lean ====
section
/-! SUPPORT. The scan of `showDigits`: its frames are the pairs of the text (spec 41_command_layer.md R112 to R117). -/

namespace Sys2Proof.Machine

/-- Register updates of `showDigits`: they change datapath registers only. -/
def RegOp.isShow : RegOp → Bool
  | .clearPos | .nextChar | .digit _ | .space | .point | .advance => true
  | .bindPins _ _ _ | .dioReset | .loadTx _ | .bit _ | .clearRx | .orRx | .storeKb _ | .clearAcc | .accKb _ | .latchMask => false

theorem RegOp.not_bind_of_show {o : RegOp} (h : o.isShow = true) : o.isBind = false := by
  cases o <;> simp_all [RegOp.isShow, RegOp.isBind]

theorem regOp_show (o : RegOp) (h : o.isShow = true) (s : State) : regOp o s = s.setRegs (regOp o s).engine.regs := by
  cases o <;> first | rfl | simp [RegOp.isShow] at h

theorem regOps_show (pre : List RegOp) (h : ∀ o ∈ pre, o.isShow = true) (s : State) :
    regOps pre s = s.setRegs (regOps pre s).engine.regs := by
  induction pre generalizing s with
  | nil => rfl
  | cons o pre ih =>
    have h1 := ih (fun p hp => h p (List.mem_cons_of_mem _ hp)) (regOp o s)
    have h2 := regOp_show o (h o List.mem_cons_self) s
    show regOps pre (regOp o s) = s.setRegs (regOps pre (regOp o s)).engine.regs
    rw [h1, h2]
    rfl

/-- The registers the scan depends on: the position, and the pair last sent once something is placed. -/
structure ScanRegs (r : Datapath) (pos : Nat) (last : Byte) : Prop where
  atPos : r.pos.val = pos
  segIs : 0 < pos → r.lastSeg = last
  addrIs : 0 < pos → r.lastAddr = digitAddr (pos - 1)

/-- One placed frame, then the rest of the scan. -/
theorem runMicros_place_then (pre : List RegOp) (hpre : ∀ o ∈ pre, o.isShow = true) (ms : List Micro) (s : State)
    (hs : s.stopped = false) (hd : s.engine.dir = .out) (hr : s.device.rx = none) (a v : Byte)
    (ha : (regOps pre s).engine.regs.lastAddr = a) (hv : (regOps pre s).engine.regs.lastSeg = v) :
    runMicros (placeSeq pre ++ ms) s = runMicros ms ((s.setRegs (regOps pre s).engine.regs).transacted [a, v]) := by
  have hb : ∀ o ∈ pre, o.isBind = false := fun o ho => RegOp.not_bind_of_show (hpre o ho)
  have hd' : (regOps pre s).engine.dir = .out := by rw [regOps_show pre hpre s]; exact hd
  have hp := runMicros_placeSeq pre hb s hs hd' hr
  rw [ha, hv, regOps_show pre hpre s] at hp
  exact runMicros_append_of hs hp hs

theorem finish_place (s : State) (r : Datapath) (vs : List Byte) (fs : List (List Byte)) :
    finish (((s.setRegs r).transacted vs).transactedAll fs) = finish (s.transactedAll (vs :: fs)) := by
  obtain ⟨r', h⟩ := transactedAll_setRegs s r (vs :: fs)
  have h' : ((s.setRegs r).transacted vs).transactedAll fs = (s.transactedAll (vs :: fs)).setRegs r' := h
  rw [h', finish_setRegs]

theorem isShow_append {a b : List RegOp} (ha : ∀ o ∈ a, o.isShow = true) (hb : ∀ o ∈ b, o.isShow = true) :
    ∀ o ∈ a ++ b, o.isShow = true := fun o ho => (List.mem_append.1 ho).elim (ha o) (hb o)

/-- Where the scan stops, the operation ends. -/
theorem runMicros_scanEnd (pend : List RegOp) (h : ∀ o ∈ pend, o.isShow = true) (s : State) (hs : s.stopped = false)
    (hr : s.device.rx = none) : runMicros (doneSeq pend) s = finish (s.transactedAll []) := by
  rw [runMicros_doneSeq pend (fun o ho => RegOp.not_bind_of_show (h o ho)) s hs hr, regOps_show pend h s]
  rfl

/-- The scan from a position sends the frames of the remaining pairs and ends the operation. -/
theorem runMicros_scanSeq (text : List Byte) (pos : Nat) (last : Byte) (pend : List RegOp) (s : State)
    (hpend : ∀ o ∈ pend, o.isShow = true) (hs : s.stopped = false) (hd : s.engine.dir = .out) (hr : s.device.rx = none)
    (hreg : ScanRegs (regOps pend s).engine.regs pos last) :
    runMicros (scanSeq text pos pend) s =
      finish (s.transactedAll ((showPairs s.params.seg text pos last).map pairBytes)) := by
  induction text generalizing pos last pend s with
  | nil => exact runMicros_scanEnd pend hpend s hs hr
  | cons c cs ih =>
    rw [scanSeq, showPairs]
    by_cases hc : c = 0x00#8 ∨ 8 ≤ pos
    · rw [if_pos hc, if_pos (show c = 0x00#8 ∨ Config.digits ≤ pos from hc)]
      exact runMicros_scanEnd pend hpend s hs hr
    · have hpos : pos < 8 := by omega
      rw [if_neg hc, if_neg (show ¬ (c = 0x00#8 ∨ Config.digits ≤ pos) from hc)]
      -- a skipped character waits for the next event
      have hskip : runMicros (scanSeq cs pos (pend ++ [.nextChar])) s =
          finish (s.transactedAll ((showPairs s.params.seg cs pos last).map pairBytes)) := by
        refine ih pos last (pend ++ [.nextChar]) s (isShow_append hpend (by simp [RegOp.isShow])) hs hd hr ?_
        rw [regOps_append]
        exact ⟨hreg.atPos, hreg.segIs, hreg.addrIs⟩
      -- a placed character sends its frame
      have hplace : ∀ (q : RegOp) (a v : Byte) (pos' : Nat) (pend' : List RegOp), q.isShow = true →
          (∀ o ∈ pend', o.isShow = true) →
          (regOp q ((regOps pend s).setRegs { (regOps pend s).engine.regs with tidx := (regOps pend s).engine.regs.tidx + 1 })).engine.regs.lastAddr = a →
          (regOp q ((regOps pend s).setRegs { (regOps pend s).engine.regs with tidx := (regOps pend s).engine.regs.tidx + 1 })).engine.regs.lastSeg = v →
          ScanRegs (regOps pend' ((s.setRegs (regOps (pend ++ [.nextChar, q]) s).engine.regs).transacted [a, v])).engine.regs pos' v →
          runMicros (placeSeq (pend ++ [.nextChar, q]) ++ scanSeq cs pos' pend') s =
            finish (s.transactedAll ([a, v] :: (showPairs s.params.seg cs pos' v).map pairBytes)) := by
        intro q a v pos' pend' hq hp' ha hv hreg'
        have hp : ∀ o ∈ pend ++ [RegOp.nextChar, q], o.isShow = true :=
          isShow_append hpend (by
            intro o ho
            rcases List.mem_cons.1 ho with rfl | ho
            · rfl
            · rw [List.mem_singleton.1 ho]; exact hq)
        rw [runMicros_place_then _ hp _ s hs hd hr a v (by rw [regOps_append]; exact ha) (by rw [regOps_append]; exact hv)]
        exact (ih pos' v pend' ((s.setRegs (regOps (pend ++ [.nextChar, q]) s).engine.regs).transacted [a, v]) hp' hs hd
          ((transacted_rx _ _).trans hr) hreg').trans (finish_place s _ [a, v] _)
      have hpar : (regOps pend s).params = s.params := by rw [regOps_show pend hpend s]; rfl
      have hnext : ∀ (q : RegOp) (a v : Byte), (regOps (pend ++ [.nextChar, q]) s).engine.regs.pos.val = pos →
          (regOps (pend ++ [.nextChar, q]) s).engine.regs.lastAddr = digitAddr pos →
          (regOps (pend ++ [.nextChar, q]) s).engine.regs.lastSeg = v →
          ScanRegs (regOps [.advance] ((s.setRegs (regOps (pend ++ [.nextChar, q]) s).engine.regs).transacted [a, v])).engine.regs (pos + 1) v := by
        intro q a v h1 h2 h3
        refine ⟨?_, fun _ => h3, fun _ => h2⟩
        simp [regOps, regOp, State.setRegs, State.transacted, sentRegs] at h1 ⊢
        simp [h1, hpos]
      unfold charClass
      by_cases hdig : 48 ≤ c.toNat ∧ c.toNat - 48 < 10
      · rw [dif_pos hdig, dif_pos hdig, List.map_cons]
        refine hplace (.digit ⟨c.toNat - 48, hdig.2⟩) _ _ (pos + 1) [.advance] rfl (by simp [RegOp.isShow]) ?_ ?_ (hnext _ _ _ ?_ ?_ ?_)
        · exact congrArg digitAddr hreg.atPos
        · exact congrArg (fun p => Params.seg p _) hpar
        · rw [regOps_append]; exact hreg.atPos
        · rw [regOps_append]; exact congrArg digitAddr hreg.atPos
        · rw [regOps_append]; exact congrArg (fun p => Params.seg p _) hpar
      · rw [dif_neg hdig, dif_neg hdig]
        by_cases hsp : c = 0x20#8
        · rw [if_pos hsp, if_pos hsp, List.map_cons]
          refine hplace .space _ _ (pos + 1) [.advance] rfl (by simp [RegOp.isShow]) ?_ ?_ (hnext _ _ _ ?_ ?_ ?_)
          · exact congrArg digitAddr hreg.atPos
          · rfl
          · rw [regOps_append]; exact hreg.atPos
          · rw [regOps_append]; exact congrArg digitAddr hreg.atPos
          · rw [regOps_append]; rfl
        · rw [if_neg hsp, if_neg hsp]
          by_cases hpt : c = 0x2E#8
          · rw [if_pos hpt]
            by_cases h0 : 0 < pos
            · dsimp only
              rw [if_pos h0, if_pos (show c = 0x2E#8 ∧ 0 < pos from ⟨hpt, h0⟩), List.map_cons]
              have hseg : pointByte (regOps pend s).engine.regs.lastSeg = last ||| 0x80#8 := congrArg pointByte (hreg.segIs h0)
              refine hplace .point _ _ pos [] rfl (by simp) ?_ ?_ ⟨?_, fun _ => ?_, fun _ => ?_⟩
              · exact hreg.addrIs h0
              · exact hseg
              · simp only [regOps_append]; exact hreg.atPos
              · simp only [regOps_append]; exact hseg
              · simp only [regOps_append]; exact hreg.addrIs h0
            · dsimp only
              rw [if_neg h0, if_neg (show ¬ (c = 0x2E#8 ∧ 0 < pos) from fun h => h0 h.2)]
              exact hskip
          · rw [if_neg hpt, if_neg (show ¬ (c = 0x2E#8 ∧ 0 < pos) from fun h => hpt h.1)]
            exact hskip

end Sys2Proof.Machine
end

