-- ==== Sys2Proof/Laws/Effects.lean ====
section
/-! SUPPORT. What each host operation amounts to: the frames it sends, the state it leaves (spec 41_command_layer.md). -/

namespace Sys2Proof.Machine

/-! ### Frames sent one after the other -/

@[simp] theorem transactedAll_nil (s : State) : s.transactedAll [] = s := rfl

@[simp] theorem transactedAll_cons (s : State) (vs : List Byte) (fs : List (List Byte)) :
    s.transactedAll (vs :: fs) = (s.transacted vs).transactedAll fs := rfl

theorem transactedAll_device (s : State) (fs : List (List Byte)) :
    (s.transactedAll fs).device = fs.foldl (fun d vs => d.frameSent s.params.timingMet vs) s.device := by
  induction fs generalizing s with
  | nil => rfl
  | cons vs fs ih => exact ih _

theorem transactedAll_rx (s : State) (fs : List (List Byte)) : (s.transactedAll fs).device.rx = s.device.rx := by
  induction fs generalizing s with
  | nil => rfl
  | cons vs fs ih => exact (ih _).trans (transacted_rx _ _)

/-- The level of the data line after the bytes of a list of frames. -/
def dioAfter (fs : List (List Byte)) (l : Level) : Level :=
  fs.foldl (fun l vs => vs.foldl (fun _ v => .ofBool (v.getLsbD 7)) l) l

/-- The level of the clock line after a list of frames. -/
def clkAfter (fs : List (List Byte)) (l : Level) : Level := fs.foldl (fun l vs => vs.foldl (fun _ _ => .high) l) l

theorem clkAfter_high (fs : List (List Byte)) : clkAfter fs .high = .high := by
  have h : ∀ vs : List Byte, vs.foldl (fun _ _ => Level.high) .high = .high := by
    intro vs
    induction vs with
    | nil => rfl
    | cons v vs ih => exact ih
  induction fs with
  | nil => rfl
  | cons vs fs ih =>
    rw [clkAfter, List.foldl_cons, h]
    exact ih

/-- The first frame has a byte, so the clock ends high. -/
theorem clkAfter_cons (v : Byte) (vs : List Byte) (fs : List (List Byte)) (l : Level) :
    clkAfter ((v :: vs) :: fs) l = .high := by
  have h : (v :: vs).foldl (fun _ _ => Level.high) l = vs.foldl (fun _ _ => Level.high) .high := rfl
  have h2 := clkAfter_high (vs :: fs)
  simpa [clkAfter] using h2

/-- The engine after a list of frames, the first of them not empty. -/
theorem transactedAll_engine (s : State) (vs : List Byte) (fs : List (List Byte)) :
    (s.transactedAll (vs :: fs)).engine = { s.engine with
      clk := clkAfter (vs :: fs) s.engine.clk
      stb := .high
      dio := dioAfter (vs :: fs) s.engine.dio
      regs := (vs :: fs).foldl (fun r vs => vs.foldl sentRegs r) s.engine.regs
      seq := s.engine.seq + ((vs :: fs).map fun vs => 4 + 41 * vs.length).sum
      trace := s.engine.trace ++ (vs :: fs).flatMap transactEvents
      frames := s.engine.frames ++ (vs :: fs).map sentFrame
      openFrame := none } := by
  induction fs generalizing s vs with
  | nil =>
    simp [State.transacted, clkAfter, dioAfter]
    rfl
  | cons ws fs ih =>
    rw [transactedAll_cons, ih]
    simp [State.transacted, clkAfter, dioAfter, sentFrame, Nat.add_assoc]

/-! ### The operations that only send frames -/

/-- The frames an operation sends, the key-read frame of `readKeys` apart. -/
def framesOf (p : Params) : HostOp → List (List Byte)
  | .init _ _ _ | .clear => [[0x40#8], zeroBytes]
  | .setBrightness l => [[brightnessByte l]]
  | .setLeds m => [0x40#8] :: (List.range 8).map (ledBytes m)
  | .readKeys => [[0xC0#8]]
  | .showDigits t => [0x40#8] :: (textPairs p t).map pairBytes

/-- A list of frames of literal bytes, then something else. -/
theorem runMicros_frames (fs : List (List Byte)) (ms : List Micro) (s : State) (hs : s.stopped = false)
    (hd : s.engine.dir = .out) (hr : s.device.rx = none) :
    runMicros (fs.flatMap (fun vs => transactSeq (vs.map .lit)) ++ ms) s = runMicros ms (s.transactedAll fs) := by
  induction fs generalizing s with
  | nil => rfl
  | cons vs fs ih =>
    have h := runMicros_transactSeq (vs.map .lit) s hs hd hr
    rw [List.map_map, show Src.value s.engine.regs ∘ Src.lit = id from rfl, List.map_id] at h
    rw [List.flatMap_cons, List.append_assoc]
    refine Eq.trans (runMicros_append_of hs h hs) ?_
    exact ih _ hs hd ((transacted_rx _ _).trans hr)

/-- Frames of literal bytes, then `Done`. -/
theorem runHostOp_frames {s : State} {o : HostOp} (h : Accepts s o) (fs : List (List Byte))
    (hq : opSeq o = fs.flatMap (fun vs => transactSeq (vs.map .lit)) ++ doneSeq []) :
    runHostOp o s = .next (finish ((issueOp o s).transactedAll fs)) := by
  rw [runHostOp_accepts h, hq, runMicros_frames fs _ (issueOp o s) h.safe h.dirOut h.noRx,
    runMicros_doneSeq [] (by simp) _ ?_ ?_]
  · rfl
  · have : ∀ (fs : List (List Byte)) (s : State), (s.transactedAll fs).stopped = s.stopped := by
      intro fs
      induction fs with
      | nil => exact fun _ => rfl
      | cons vs fs ih => exact fun s => ih _
    rw [this]
    exact h.safe
  · rw [transactedAll_rx]
    exact h.noRx

/-- CLEAR (R102). -/
theorem runHostOp_clear {s : State} (h : Accepts s .clear) :
    runHostOp .clear s = .next (finish ((issueOp .clear s).transactedAll (framesOf s.params .clear))) := by
  refine runHostOp_frames h _ ?_
  simp only [framesOf, List.flatMap_cons, List.flatMap_nil, zeroBytes, List.map_cons, List.map_replicate, List.append_nil]
  rfl

/-- SET_BRIGHTNESS (R103). -/
theorem runHostOp_brightness {s : State} {l : Byte} (h : Accepts s (.setBrightness l)) :
    runHostOp (.setBrightness l) s =
      .next (finish ((issueOp (.setBrightness l) s).transactedAll (framesOf s.params (HostOp.setBrightness l)))) := by
  refine runHostOp_frames h _ ?_
  simp only [framesOf, List.flatMap_cons, List.flatMap_nil, List.append_nil]
  rfl

theorem ledBytes_eq (m : Byte) (i : Nat) : ledBytes m i = [ledAddr i, ledByte m i] := rfl

/-- SET_LEDS (R104). -/
theorem runHostOp_leds {s : State} {m : Byte} (h : Accepts s (.setLeds m)) :
    runHostOp (.setLeds m) s =
      .next (finish ((issueOp (.setLeds m) s).transactedAll (framesOf s.params (HostOp.setLeds m)))) := by
  refine runHostOp_frames h _ ?_
  have hl : (List.range 8) = (List.finRange 8).map Fin.val := rfl
  simp only [framesOf, List.flatMap_cons, hl, List.map_map, List.flatMap_map, opSeq, ledsSeq]
  rfl

/-- SHOW_DIGITS (R112). -/
theorem runHostOp_show {s : State} {t : List Byte} (h : Accepts s (.showDigits t)) :
    runHostOp (.showDigits t) s =
      .next (finish ((issueOp (.showDigits t) s).transactedAll (framesOf s.params (HostOp.showDigits t)))) := by
  rw [runHostOp_accepts h]
  have h1 := runMicros_transactSeq [.lit 0x40#8] (issueOp (.showDigits t) s) h.safe h.dirOut h.noRx
  refine congrArg _ ((runMicros_append_of (s := issueOp (.showDigits t) s) h.safe h1 h.safe).trans ?_)
  refine runMicros_scanSeq t 0 0x00#8 [.clearPos] _ (by simp [RegOp.isShow]) h.safe h.dirOut
    ((transacted_rx _ _).trans h.noRx) ⟨rfl, ?_, ?_⟩ <;> intro h0 <;> omega

/-- READ_KEYS (R105 to R110): the frames, then the combination. -/
theorem runHostOp_keys {s : State} (h : Accepts s .readKeys) :
    runHostOp .readKeys s =
      .next (finish (regOps ([.clearAcc] ++ (List.finRange 4).map .accKb ++ [.latchMask])
        ((issueOp .readKeys s).transacted [0xC0#8]).keysRead)) := by
  rw [runHostOp_accepts h]
  have h1 := runMicros_transactSeq [.lit 0xC0#8] (issueOp .readKeys s) h.safe h.dirOut h.noRx
  have hr1 : ((issueOp .readKeys s).transacted [0xC0#8]).device.rx = none := (transacted_rx _ _).trans h.noRx
  have h2 := runMicros_keyFrameSeq ((issueOp .readKeys s).transacted [0xC0#8]) h.safe h.dirOut hr1
  have hr2 : ((issueOp .readKeys s).transacted [0xC0#8]).keysRead.device.rx = none := by
    have hf : ∀ (t : Bool) (f : Nat → Byte) (l : List Nat) (d : Device), (l.foldl (fun d i => d.supplied t (f i)) d).rx = d.rx := by
      intro t f l
      induction l with
      | nil => exact fun _ => rfl
      | cons i l ih => exact fun d => (ih _).trans (supplied_rx _ _ _)
    simp only [State.keysRead]
    rw [frameCloses_rx, hf, sent_rx]
    exact hr1
  have hq : opSeq .readKeys = transactSeq [.lit 0xC0#8] ++ (keyFrameSeq ++
      doneSeq ([.clearAcc] ++ (List.finRange 4).map .accKb ++ [.latchMask])) := by
    simp [opSeq, keysSeq]
  rw [hq]
  refine congrArg _ ((runMicros_append_of (s := issueOp .readKeys s) h.safe h1 h.safe).trans ?_)
  refine (runMicros_append_of (s := (issueOp .readKeys s).transacted [0xC0#8]) h.safe h2 h.safe).trans ?_
  exact runMicros_doneSeq _ (by decide) _ h.safe hr2

/-- The state of INIT before its CLEAR_BODY (R101). -/
def State.bound (s : State) (c d t : PinId) : State :=
  { s with engine := { s.engine with
      bind := some { clk := c, dio := d, stb := t }
      released := releasedAfter s.engine { clk := c, dio := d, stb := t }
      pinmode := insertPin t (insertPin d (insertPin c s.engine.pinmode))
      clk := .high, stb := .high, dio := .x, dir := .out
      openFrame := none
      frames := s.engine.frames ++ s.engine.openFrame.toList
      seq := s.engine.seq + 5
      trace := s.engine.trace ++ [.mode c, .mode d, .mode t, .clk true, .stb true] } }

theorem runMicros_initLines (s : State) (c d t : PinId) (hs : s.stopped = false) (hr : s.device.rx = none)
    (hf : s.device.frame = none) (hg : pinsGood s.params c d t = true) (ms : List Micro) :
    runMicros ([{ pre := [.bindPins c d t], op := .mode c }, .plain (.mode d), .plain (.mode t),
      { pre := [.dioReset], op := .clk true }, .plain (.stb true)] ++ ms) s = runMicros ms (s.bound c d t) := by
  obtain ⟨e, dv, v, h, p⟩ := s
  simp only [stopped_eq] at hs hr hf hg
  simp [runMicros, perform, regOp, bindOp, hg, lineOp, modeOp, State.emit, completed, settle, hr, Micro.plain, driveClk,
    strobeHigh, Device.frameCloses, hf, State.stopped, hs, State.bound, Level.ofBool]

/-- INIT with three distinct configurable pins (R101). -/
theorem runHostOp_init {s : State} {c d t : PinId} (h : Accepts s (.init c d t)) :
    runHostOp (.init c d t) s =
      .next (finish (((issueOp (.init c d t) s).bound c d t).transactedAll (framesOf s.params (HostOp.init c d t)))) := by
  rw [runHostOp_accepts h]
  have hq : opSeq (.init c d t) = [{ pre := [.bindPins c d t], op := .mode c }, .plain (.mode d), .plain (.mode t),
      { pre := [.dioReset], op := .clk true }, .plain (.stb true)] ++ (clearBody ++ doneSeq []) := by
    simp [opSeq, initSeq]
  have hi := runMicros_initLines (issueOp (.init c d t) s) c d t h.safe h.noRx h.noDeviceFrame (h.pins c d t rfl)
    (clearBody ++ doneSeq [])
  rw [hq, hi]
  have hb := runMicros_clearBody ((issueOp (.init c d t) s).bound c d t) h.safe rfl h.noRx
  refine congrArg _ ((runMicros_append_of (s := (issueOp (.init c d t) s).bound c d t) h.safe hb h.safe).trans ?_)
  refine runMicros_doneSeq [] (by simp) _ h.safe ?_
  exact ((transacted_rx _ _).trans (transacted_rx _ _)).trans h.noRx

end Sys2Proof.Machine
end

