-- ==== Sys2Proof/Laws/PerInstr.lean ====
section
/-! SUPPORT. The family `Encodable`: every instruction but the transport primitives has an encoding (spec 30_encoding.md
R70: the primitives "have no host tag, because the source makes the transport layer private"). -/

namespace Sys2Proof.Laws.Encodable

/-- The transport primitives (40_bit_transport.md R90 to R92). -/
def isTransport : Instr → Bool
  | .writeByte _ | .readByte | .transact _ => true
  | .init _ _ _ | .clear | .setBrightness _ | .setLeds _ | .readKeys | .showDigits _ => false
  | .dataWriteAutoinc | .readKeysCmd | .displayOff | .displayOn _ | .setAddress _ => false

/-- An instruction has an encoding exactly if it is no transport primitive. -/
def Statement (i : Instr) : Prop := (encode i).isSome = !isTransport i

theorem init (clk dio stb : PinId) : Statement (.init clk dio stb) := rfl
theorem clear : Statement .clear := rfl
theorem setBrightness (level : Byte) : Statement (.setBrightness level) := rfl
theorem setLeds (mask : Byte) : Statement (.setLeds mask) := rfl
theorem readKeys : Statement .readKeys := rfl
theorem showDigits (text : List Byte) : Statement (.showDigits text) := rfl
theorem writeByte (v : Byte) : Statement (.writeByte v) := rfl
theorem readByte : Statement .readByte := rfl
theorem transact (bs : List Byte) : Statement (.transact bs) := rfl
theorem dataWriteAutoinc : Statement .dataWriteAutoinc := rfl
theorem readKeysCmd : Statement .readKeysCmd := rfl
theorem displayOff : Statement .displayOff := rfl
theorem displayOn (b : BitVec 3) : Statement (.displayOn b) := rfl
theorem setAddress (n : BitVec 4) : Statement (.setAddress n) := rfl

end Sys2Proof.Laws.Encodable
end

