-- ==== Sys2Proof/Laws/Sequences.lean ====
section
/-! SUPPORT. Every operation's event sequence fits the lines: a driven data bit finds DIO an output, a sample finds it an
input, `Done` comes last and only there, and the lines end as they rest (spec 10_state.md R22, R23, 70_reset_and_hazards.md
R182, R185). -/

namespace Sys2Proof.Machine

/-- The element can be performed on these lines, and is not `Done`. -/
def Micro.fits (c : Ctl) (m : Micro) : Bool :=
  match m.op with
  | .dioTx => c.dir == .out && !m.pre.contains .dioReset
  | .sample => c.dir == .inp && !m.pre.contains .dioReset
  | .done => false
  | .mode _ | .clk _ | .stb _ | .dirIn | .dirOut | .wait => true

/-- A part of a sequence: from the lines `c` to the lines `c'`, every element fits, no element binds pins. -/
structure Segment (c : Ctl) (ms : List Micro) (c' : Ctl) : Prop where
  ends : c.walk ms = c'
  noBind : ∀ m ∈ ms, ∀ o ∈ m.pre, o.isBind = false
  fits : ∀ (n : Nat) (m : Micro), ms[n]? = some m → m.fits (c.walk (ms.take n)) = true

/-- The same, computed. -/
def segmentCheck : Ctl → List Micro → Bool
  | _, [] => true
  | c, m :: ms => m.fits c && m.pre.all (fun o => !o.isBind) && segmentCheck (c.after m) ms

theorem segment_of_check (c : Ctl) (ms : List Micro) (h : segmentCheck c ms = true) : Segment c ms (c.walk ms) := by
  refine ⟨rfl, ?_, ?_⟩
  · induction ms generalizing c with
    | nil => simp
    | cons m ms ih =>
      simp only [segmentCheck, Bool.and_eq_true, List.all_eq_true, Bool.not_eq_true'] at h
      intro x hx
      rcases List.mem_cons.1 hx with rfl | hx
      · exact h.1.2
      · exact ih _ h.2 x hx
  · induction ms generalizing c with
    | nil => simp
    | cons m ms ih =>
      simp only [segmentCheck, Bool.and_eq_true] at h
      intro n x hx
      cases n with
      | zero =>
        simp only [List.getElem?_cons_zero, Option.some.injEq] at hx
        subst hx
        exact h.1.1
      | succ n => exact ih _ h.2 n x (by simpa using hx)

theorem walk_append (c : Ctl) (a b : List Micro) : c.walk (a ++ b) = (c.walk a).walk b := List.foldl_append

theorem Segment.append {c c' c'' : Ctl} {a b : List Micro} (ha : Segment c a c') (hb : Segment c' b c'') :
    Segment c (a ++ b) c'' := by
  have hw : ∀ l, c.walk (a ++ l) = c'.walk l := fun l => by rw [walk_append, ha.ends]
  refine ⟨by rw [hw, hb.ends], ?_, ?_⟩
  · intro m hm
    rcases List.mem_append.1 hm with h | h
    · exact ha.noBind m h
    · exact hb.noBind m h
  · intro n m hm
    by_cases hn : n < a.length
    · rw [List.getElem?_append_left hn] at hm
      rw [List.take_append_of_le_length (by omega)]
      exact ha.fits n m hm
    · rw [List.getElem?_append_right (by omega)] at hm
      rw [List.take_append, List.take_of_length_le (by omega), hw]
      exact hb.fits _ m hm

/-! ### The pieces -/

/-- The lines inside a frame between two bytes. -/
def Ctl.inFrame (clk : Level) : Ctl := { clk := clk, stb := .low, dir := .out, opened := true }

theorem segment_sendSeq (c : Level) (src : Src) : Segment (.inFrame c) (sendSeq src) (.inFrame .high) :=
  segment_of_check (.inFrame c) _ rfl

theorem segment_sends (srcs : List Src) : Segment (.inFrame .high) (srcs.flatMap sendSeq) (.inFrame .high) := by
  induction srcs with
  | nil => exact segment_of_check _ [] rfl
  | cons s l ih => exact (segment_sendSeq _ s).append ih

/-- A frame sent by `transact`. -/
theorem segment_transactSeq (srcs : List Src) : Segment .idle (transactSeq srcs) .idle := by
  have h1 : Segment .idle [.plain (.stb false), .plain .wait] (.inFrame .high) := segment_of_check .idle _ rfl
  have h2 : Segment (.inFrame .high) [.plain (.stb true), .plain .wait] .idle :=
    segment_of_check (.inFrame .high) [.plain (.stb true), .plain .wait] rfl
  exact (h1.append (segment_sends srcs)).append h2

theorem segment_frames (l : List (List Src)) : Segment .idle (l.flatMap transactSeq) .idle := by
  induction l with
  | nil => exact segment_of_check _ [] rfl
  | cons s l ih => exact (segment_transactSeq s).append ih

theorem segment_keyFrameSeq : Segment .idle keyFrameSeq .idle := by
  have h := segment_of_check .idle keyFrameSeq (by decide +kernel)
  rwa [show Ctl.walk .idle keyFrameSeq = .idle by decide +kernel] at h

/-- A frame of `showDigits`, after register updates. -/
theorem segment_placeSeq (pre : List RegOp) (h : ∀ o ∈ pre, o.isShow = true) : Segment .idle (placeSeq pre) .idle := by
  obtain ⟨h1, h2, h3⟩ := segment_transactSeq [.lastAddr, .lastSeg]
  have hc : RegOp.dioReset ∉ pre := fun hc => by
    have := h _ hc
    simp [RegOp.isShow] at this
  generalize hl : (transactSeq [.lastAddr, .lastSeg]).tail = l
  have ht : transactSeq [.lastAddr, .lastSeg] = .plain (.stb false) :: l := by rw [← hl]; rfl
  have hp : placeSeq pre = { pre := pre, op := .stb false } :: l := by
    rw [placeSeq, ht]
    simp [withPre, Micro.plain]
  have ha : Ctl.after .idle { pre := pre, op := .stb false } = Ctl.after .idle (.plain (.stb false)) := by
    simp [Ctl.after, hc, Micro.plain]
  rw [ht] at h1 h2 h3
  rw [hp]
  refine ⟨?_, ?_, ?_⟩
  · rw [Ctl.walk, List.foldl_cons, ha]
    exact h1
  · intro m hm
    rcases List.mem_cons.1 hm with rfl | hm
    · exact fun o ho => RegOp.not_bind_of_show (h o ho)
    · exact h2 m (List.mem_cons_of_mem _ hm)
  · intro n m hm
    cases n with
    | zero =>
      simp only [List.getElem?_cons_zero, Option.some.injEq] at hm
      subst hm
      rfl
    | succ n =>
      have := h3 (n + 1) m hm
      rw [List.take_succ_cons, Ctl.walk, List.foldl_cons] at this ⊢
      rw [ha]
      exact this

/-! ### The operations -/

/-- A whole sequence from the lines `c`: a part that ends with the lines at rest, then `Done`. -/
def Complete (c : Ctl) (ms : List Micro) : Prop :=
  ∃ a pre, ms = a ++ doneSeq pre ∧ Segment c a .idle ∧ ∀ o ∈ pre, o.isBind = false

theorem complete_scanSeq (t : List Byte) (pos : Nat) (pend : List RegOp) (h : ∀ o ∈ pend, o.isShow = true) :
    Complete .idle (scanSeq t pos pend) := by
  have hstop : ∀ p : List RegOp, (∀ o ∈ p, o.isShow = true) → Complete .idle (doneSeq p) := fun p hp =>
    ⟨[], p, rfl, segment_of_check _ [] rfl, fun o ho => RegOp.not_bind_of_show (hp o ho)⟩
  induction t generalizing pos pend with
  | nil => exact hstop pend h
  | cons c cs ih =>
    have hpl : ∀ (l : List RegOp) (p : Nat) (q : List RegOp), (∀ o ∈ l, o.isShow = true) → (∀ o ∈ q, o.isShow = true) →
        Complete .idle (placeSeq (pend ++ l) ++ scanSeq cs p q) := by
      intro l p q hl hq
      obtain ⟨a, pre, h1, h2, h3⟩ := ih p q hq
      exact ⟨placeSeq (pend ++ l) ++ a, pre, by rw [h1, List.append_assoc],
        (segment_placeSeq _ (isShow_append h hl)).append h2, h3⟩
    rw [scanSeq]
    split
    · exact hstop pend h
    · split
      · exact hpl _ _ _ (by simp [RegOp.isShow]) (by simp [RegOp.isShow])
      · exact hpl _ _ _ (by simp [RegOp.isShow]) (by simp [RegOp.isShow])
      · split
        · exact hpl _ _ _ (by simp [RegOp.isShow]) (by simp [RegOp.isShow])
        · exact ih _ _ (isShow_append h (by simp [RegOp.isShow]))
      · exact ih _ _ (isShow_append h (by simp [RegOp.isShow]))

/-- Every operation but INIT, from the lines at rest. -/
theorem complete_opSeq (o : HostOp) (ho : o.isInit = false) : Complete .idle (opSeq o) := by
  cases o with
  | init c d t => simp [HostOp.isInit] at ho
  | clear => exact ⟨clearBody, [], rfl, (segment_transactSeq _).append (segment_transactSeq _), by simp⟩
  | setBrightness l => exact ⟨transactSeq [.lit (brightnessByte l)], [], rfl, segment_transactSeq _, by simp⟩
  | setLeds m =>
    have h := segment_frames ((List.finRange 8).map fun i => [.lit (ledAddr i.val), .lit (ledByte m i.val)])
    rw [List.flatMap_map] at h
    exact ⟨transactSeq [.lit 0x40#8] ++ (List.finRange 8).flatMap (ledSeq m), [], rfl, (segment_transactSeq _).append h, by simp⟩
  | readKeys =>
    exact ⟨transactSeq [.lit 0xC0#8] ++ keyFrameSeq, _, rfl, (segment_transactSeq _).append segment_keyFrameSeq, by decide⟩
  | showDigits t =>
    obtain ⟨a, pre, h1, h2, h3⟩ := complete_scanSeq t 0 [.clearPos] (by simp [RegOp.isShow])
    exact ⟨transactSeq [.lit 0x40#8] ++ a, pre, by rw [opSeq, showSeq, h1, List.append_assoc],
      (segment_transactSeq _).append h2, h3⟩

/-- INIT, from any lines with DIO an output and no frame open: its first element binds, the rest is complete. -/
theorem complete_initSeq (c d t : PinId) (k : Ctl) (h1 : k.dir = .out) (h2 : k.opened = false) :
    ∃ ms, opSeq (.init c d t) = { pre := [.bindPins c d t], op := .mode c } :: ms ∧ Complete k ms := by
  obtain ⟨kc, ks, kd, ko⟩ := k
  simp only at h1 h2
  subst h1 h2
  have hi : Segment { clk := kc, stb := ks, dir := .out, opened := false }
      [.plain (.mode d), .plain (.mode t), { pre := [.dioReset], op := .clk true }, .plain (.stb true)] .idle :=
    segment_of_check { clk := kc, stb := ks, dir := .out, opened := false }
      [.plain (.mode d), .plain (.mode t), { pre := [.dioReset], op := .clk true }, .plain (.stb true)] rfl
  have hb : Segment .idle clearBody .idle := (segment_transactSeq _).append (segment_transactSeq _)
  exact ⟨_, by simp [opSeq, initSeq], _, [], (List.append_assoc _ clearBody (doneSeq [])).symm, hi.append hb, by simp⟩

end Sys2Proof.Machine
end

