-- ==== Sys2Proof/Laws/Perform.lean ====
section
/-! SUPPORT. Everything that performing one element of a sequence can do. -/

namespace Sys2Proof.Machine

/-- What an element that is not `Done` does: exactly one event, SEQ one further, the lines as `Ctl.after` says, nothing of
the binding, and canonical forms kept. -/
structure Performed (m : Micro) (s t : State) : Prop where
  ctl : t.engine.ctl = s.engine.ctl.after m
  fault : t.engine.fault = s.engine.fault
  trace : ∃ e, t.engine.trace = s.engine.trace ++ [e]
  busy : t.engine.busy = s.engine.busy
  cur : t.engine.cur = s.engine.cur
  seq : t.engine.seq = s.engine.seq + 1
  bind : t.engine.bind = s.engine.bind
  released : t.engine.released = s.engine.released
  host : t.host = s.host
  params : t.params = s.params
  pinmode : s.engine.pinmode.Pairwise (· < ·) → t.engine.pinmode.Pairwise (· < ·)
  disp : Memory.wf s.device.disp = true → Memory.wf t.device.disp = true
  frames : s.device.frame.isSome = s.engine.openFrame.isSome → t.device.frame.isSome = t.engine.openFrame.isSome

/-- Register updates other than the binding. -/
structure Updated (pre : List RegOp) (s t : State) : Prop where
  ctl : t.engine.ctl = if pre.contains .dioReset then { s.engine.ctl with dir := .out } else s.engine.ctl
  fault : t.engine.fault = s.engine.fault
  trace : t.engine.trace = s.engine.trace
  busy : t.engine.busy = s.engine.busy
  cur : t.engine.cur = s.engine.cur
  seq : t.engine.seq = s.engine.seq
  bind : t.engine.bind = s.engine.bind
  released : t.engine.released = s.engine.released
  pinmode : t.engine.pinmode = s.engine.pinmode
  openFrame : t.engine.openFrame = s.engine.openFrame
  device : t.device = s.device
  env : t.env = s.env
  host : t.host = s.host
  params : t.params = s.params

theorem regOps_updated (pre : List RegOp) (h : ∀ o ∈ pre, o.isBind = false) (s : State) : Updated pre s (regOps pre s) := by
  induction pre generalizing s with
  | nil => exact ⟨rfl, rfl, rfl, rfl, rfl, rfl, rfl, rfl, rfl, rfl, rfl, rfl, rfl, rfl⟩
  | cons o pre ih =>
    obtain ⟨h1, h2, h3, h4, h5, h6, h7, h8, h9, h10, h11, h12, h13, h14⟩ :=
      ih (fun p hp => h p (List.mem_cons_of_mem _ hp)) (regOp o s)
    rw [← show regOps (o :: pre) s = regOps pre (regOp o s) from rfl] at h1 h2 h3 h4 h5 h6 h7 h8 h9 h10 h11 h12 h13 h14
    have ho := h o List.mem_cons_self
    cases o <;> first | (simp [RegOp.isBind] at ho; done) | exact ⟨by rw [h1]; simp [regOp, State.setRegs, Engine.ctl], h2, h3, h4, h5, h6, h7, h8, h9, h10, h11, h12, h13, h14⟩

/-- The event itself, on lines it fits. -/
theorem lineOp_performed (o : LineOp) (s : State) (hf : Micro.fits s.engine.ctl (.plain o) = true) :
    Performed (.plain o) s (lineOp o s) := by
  cases o with
  | mode p => exact ⟨rfl, rfl, ⟨_, rfl⟩, rfl, rfl, rfl, rfl, rfl, rfl, rfl, insertPin_sorted p _, id, id⟩
  | clk b => exact ⟨rfl, rfl, ⟨_, rfl⟩, rfl, rfl, rfl, rfl, rfl, rfl, rfl, id, id, id⟩
  | stb b =>
    cases b with
    | false => exact ⟨rfl, rfl, ⟨_, rfl⟩, rfl, rfl, rfl, rfl, rfl, rfl, rfl, id, id, fun _ => rfl⟩
    | true =>
      refine ⟨rfl, rfl, ⟨_, rfl⟩, rfl, rfl, rfl, rfl, rfl, rfl, rfl, id, fun h => ?_, fun _ => ?_⟩
      · show Memory.wf (s.device.frameCloses s.params.timingMet).disp = true
        unfold Device.frameCloses
        split
        · exact h
        · split
          · exact h
          · rfl
      · show (s.device.frameCloses s.params.timingMet).frame.isSome = false
        unfold Device.frameCloses
        split
        · simp [*]
        · split <;> rfl
  | dioTx =>
    have hd : s.engine.dir = .out := by simpa [Micro.fits, Micro.plain, Engine.ctl] using hf
    show Performed _ s (driveDio _ s)
    rw [driveDio, hd]
    exact ⟨rfl, rfl, ⟨_, rfl⟩, rfl, rfl, rfl, rfl, rfl, rfl, rfl, id, id, id⟩
  | dirIn => exact ⟨rfl, rfl, ⟨_, rfl⟩, rfl, rfl, rfl, rfl, rfl, rfl, rfl, id, id, id⟩
  | dirOut => exact ⟨rfl, rfl, ⟨_, rfl⟩, rfl, rfl, rfl, rfl, rfl, rfl, rfl, id, id, id⟩
  | sample =>
    have hd : s.engine.dir = .inp := by simpa [Micro.fits, Micro.plain, Engine.ctl] using hf
    show Performed _ s (sampleOp s)
    rw [sampleOp, hd]
    exact ⟨rfl, rfl, ⟨_, rfl⟩, rfl, rfl, rfl, rfl, rfl, rfl, rfl, id, id, id⟩
  | wait => exact ⟨rfl, rfl, ⟨_, rfl⟩, rfl, rfl, rfl, rfl, rfl, rfl, rfl, id, id, id⟩
  | done => simp [Micro.fits, Micro.plain] at hf

/-- A completed byte changes the byte-level view and the Device only. -/
structure Completed (s t : State) : Prop where
  ctl : t.engine.ctl = s.engine.ctl
  rest : ∃ f, t.engine = { s.engine with openFrame := f }
  host : t.host = s.host
  params : t.params = s.params
  disp : Memory.wf s.device.disp = true → Memory.wf t.device.disp = true
  frames : t.device.frame.isSome = s.device.frame.isSome ∧ t.engine.openFrame.isSome = s.engine.openFrame.isSome

theorem completed_completed (k : Mark) (s : State) : Completed s (completed k s) := by
  unfold completed
  split
  · rename_i f hf
    refine ⟨?_, ⟨_, rfl⟩, rfl, rfl, fun h => ?_, ?_, ?_⟩
    · simp [Engine.ctl, hf]
    · unfold Device.receives
      split
      · exact h
      · rfl
    · unfold Device.receives
      split <;> rfl
    · simp [hf]
  · rename_i f hf
    refine ⟨?_, ⟨_, rfl⟩, rfl, rfl, fun h => ?_, ?_, ?_⟩
    · simp [Engine.ctl, hf]
    · unfold Device.supplied
      split
      · exact h
      · rfl
    · unfold Device.supplied
      split
      · simp
      · rfl
    · simp [hf]
  · exact ⟨rfl, ⟨_, rfl⟩, rfl, rfl, id, rfl, rfl⟩

/-- Performing an element that fits, whole. -/
theorem perform_performed (m : Micro) (s : State) (hs : s.stopped = false) (hb : ∀ o ∈ m.pre, o.isBind = false)
    (hf : m.fits s.engine.ctl = true) : Performed m s (perform m s) := by
  have hu := regOps_updated m.pre hb s
  have hst : (regOps m.pre s).stopped = false := by rw [State.stopped, hu.fault]; exact hs
  have hfit : Micro.fits (regOps m.pre s).engine.ctl (.plain m.op) = true := by
    rw [hu.ctl]
    cases ho : m.op <;> simp_all [Micro.fits, Micro.plain]
  have hl := lineOp_performed m.op _ hfit
  have hst2 : (lineOp m.op (regOps m.pre s)).stopped = false := by rw [State.stopped, hl.fault]; exact hst
  have hp : perform m s = completed m.mark (lineOp m.op (regOps m.pre s)) := by
    rw [regOps] at hst hst2
    simp [perform, hst, hst2, regOps]
  have hc := completed_completed m.mark (lineOp m.op (regOps m.pre s))
  obtain ⟨f, he⟩ := hc.rest
  obtain ⟨e, ht⟩ := hl.trace
  rw [hp]
  refine ⟨?_, by rw [he]; exact hl.fault.trans hu.fault, ⟨e, by rw [he]; exact ht.trans (by rw [hu.trace])⟩,
    by rw [he]; exact hl.busy.trans hu.busy, by rw [he]; exact hl.cur.trans hu.cur, by rw [he]; exact hl.seq.trans (by rw [hu.seq]),
    by rw [he]; exact hl.bind.trans hu.bind, by rw [he]; exact hl.released.trans hu.released, hc.host.trans (hl.host.trans hu.host),
    hc.params.trans (hl.params.trans hu.params), fun h => by rw [he]; exact hl.pinmode (by rw [hu.pinmode]; exact h),
    fun h => hc.disp (hl.disp (by rw [hu.device]; exact h)), fun h => ?_⟩
  · rw [hc.ctl, hl.ctl, hu.ctl]
    simp [Ctl.after, Micro.plain]
  · rw [hc.frames.1, hc.frames.2]
    exact hl.frames (by rw [hu.device, hu.openFrame]; exact h)

end Sys2Proof.Machine
end

