-- ==== Sys2Proof/Laws/Tick.lean ====
section
/-! SUPPORT. Everything the step of a busy engine can do, from a state that meets the invariant; and how runs of several
steps compose. -/

namespace Sys2Proof.Machine

/-! ### Runs -/

theorem run_zero (M : Host.Core) (s : M.State) : M.run 0 s = .next s := by rw [Host.Core.run]

theorem run_next (M : Host.Core) (s t : M.State) (k : Nat) (h : M.step s = .next t) : M.run (k + 1) s = M.run k t := by
  rw [Host.Core.run, h]

theorem run_append (M : Host.Core) (a b : Nat) (s t : M.State) (h : M.run a s = .next t) :
    M.run (a + b) s = M.run b t := by
  induction a generalizing s with
  | zero =>
    rw [Host.Core.run] at h
    cases h
    rw [Nat.zero_add]
  | succ a ih =>
    rw [show a + 1 + b = (a + b) + 1 by omega, Host.Core.run]
    rw [Host.Core.run] at h
    cases hs : M.step s with
    | next u =>
      rw [hs] at h
      exact ih u h
    | fault r =>
      rw [hs] at h
      cases h
    | refused r =>
      rw [hs] at h
      cases h

/-! ### The tick -/

/-- The lines an operation may start from give a complete sequence, INIT's first element apart. -/
theorem complete_from_start (o : HostOp) (c : Ctl) (h1 : c.dir = .out) (h2 : c.opened = false)
    (h3 : o.isInit = false → c = Ctl.idle) :
    (o.isInit = false ∧ Complete c (opSeq o)) ∨
      ∃ a d t ms, o = .init a d t ∧ opSeq o = { pre := [.bindPins a d t], op := .mode a } :: ms ∧ Complete c ms := by
  cases hi : o.isInit with
  | false => left; rw [h3 hi]; exact ⟨rfl, complete_opSeq o hi⟩
  | true =>
    right
    cases o <;> simp [HostOp.isInit] at hi
    rename_i a d t
    obtain ⟨ms, h, hc⟩ := complete_initSeq a d t c h1 h2
    exact ⟨a, d, t, ms, rfl, h, hc⟩

/-- An element of a complete sequence fits the lines it finds, or is the `Done` at its end. -/
theorem element_of_complete {c : Ctl} {ms : List Micro} (h : Complete c ms) (n : Nat) (m : Micro) (hm : ms[n]? = some m) :
    (m.fits (c.walk (ms.take n)) = true ∧ n + 1 < ms.length ∧ (∀ o ∈ m.pre, o.isBind = false)) ∨
    (m.op = .done ∧ m.mark = .none ∧ n + 1 = ms.length ∧ (∀ o ∈ m.pre, o.isBind = false) ∧
      c.walk (ms.take n) = Ctl.idle) := by
  obtain ⟨a, pre, rfl, hs, hp⟩ := h
  by_cases hn : n < a.length
  · left
    rw [List.getElem?_append_left hn] at hm
    rw [List.take_append_of_le_length (by omega)]
    refine ⟨hs.fits n m hm, by simp [doneSeq]; omega, hs.noBind m (List.mem_of_getElem? hm)⟩
  · right
    rw [List.getElem?_append_right (by omega)] at hm
    have : n - a.length = 0 := by
      by_contra hne
      rw [doneSeq, List.getElem?_eq_none (by simp; omega)] at hm
      simp at hm
    rw [this] at hm
    simp [doneSeq] at hm
    subst hm
    have hn' : n = a.length := by omega
    subst hn'
    simp [doneSeq, hs.ends]
    exact hp

/-- The first element of INIT leaves the lines alone. -/
theorem after_bindPins (c : Ctl) (a d t : PinId) : c.after { pre := [.bindPins a d t], op := .mode a } = c := by
  simp [Ctl.after]

/-- What the tick does: an element that fits; `Done`; the failing pin check of INIT; or its binding. -/
theorem tick_cases (s : State) (hi : Inv s) (hs : Safe s) (hb : s.engine.busy = true) :
    ∃ t, tick s = .next t ∧
      ((∃ o m, s.engine.cur = some o ∧ (opSeq o)[s.engine.seq]? = some m ∧ Performed m s t ∧
          s.engine.seq + 1 < (opSeq o).length ∧ s.engine.bind.isSome = true) ∨
       (∃ o m, s.engine.cur = some o ∧ (opSeq o)[s.engine.seq]? = some m ∧ m.op = .done ∧ t = finish (regOps m.pre s) ∧
          s.engine.ctl = Ctl.idle ∧ (∀ o ∈ m.pre, o.isBind = false) ∧ s.engine.bind.isSome = true) ∨
       (∃ c d p, s.engine.cur = some (.init c d p) ∧ s.engine.seq = 0 ∧ pinsGood s.params c d p = false ∧
          t = raiseFault (.badPin c d p) s) ∨
       (∃ c d p, s.engine.cur = some (.init c d p) ∧ s.engine.seq = 0 ∧ 1 < (opSeq (.init c d p)).length ∧
          pinsGood s.params c d p = true ∧
          t = modeOp c { s with engine := { s.engine with
            bind := some { clk := c, dio := d, stb := p }
            released := releasedAfter s.engine { clk := c, dio := d, stb := p } } })) := by
  obtain ⟨o, hc, hlt⟩ := hi.busy hb
  have hl := hi.lines hs
  simp only [LinesOk, hc] at hl
  obtain ⟨⟨c, h1, h2, h3, h4⟩, hbind⟩ := hl
  have hs' : s.stopped = false := hs
  have hm := List.getElem?_eq_getElem hlt
  generalize hmm : (opSeq o)[s.engine.seq] = m at hm
  have htick : tick s = .next (perform m s) := by simp [tick, hc, hm]
  refine ⟨_, htick, ?_⟩
  have done : ∀ (hop : m.op = .done) (hmk : m.mark = .none) (hpre : ∀ o ∈ m.pre, o.isBind = false),
      perform m s = finish (regOps m.pre s) := by
    intro hop hmk hpre
    have hst : (regOps m.pre s).stopped = false := by rw [regOps_stopped _ hpre]; exact hs
    have hst2 : (finish (regOps m.pre s)).stopped = false := hst
    rw [regOps] at *
    simp [perform, hst, hop, lineOp, hst2, hmk, completed]
  rcases complete_from_start o c h1 h2 h3 with ⟨hi, hcomp⟩ | ⟨a, d, p, ms, rfl, heq, hcomp⟩
  · rcases element_of_complete hcomp _ m hm with ⟨hf, hl, hpre⟩ | ⟨hop, hmk, hl, hpre, hidle⟩
    · left
      rw [← h4] at hf
      exact ⟨o, m, hc, hm, perform_performed m s hs hpre hf, hl, hbind (.inl hi)⟩
    · right; left
      rw [← h4] at hidle
      exact ⟨o, m, hc, hm, hop, done hop hmk hpre, hidle, hpre, hbind (.inl hi)⟩
  · cases hsq : s.engine.seq with
    | zero =>
      right; right
      rw [hsq, heq] at hm
      simp at hm
      subst hm
      cases hg : pinsGood s.params a d p with
      | false =>
        left
        refine ⟨a, d, p, hc, rfl, hg, ?_⟩
        simp [perform, regOp, bindOp, hg]
      | true =>
        right
        refine ⟨a, d, p, hc, rfl, ?_, hg, ?_⟩
        · obtain ⟨x, y, h, _⟩ := hcomp
          rw [heq, h]
          simp [doneSeq]
        · have e1 : s.engine.fault.any = false := hs
          simp [perform, regOp, bindOp, hg, State.stopped, e1, lineOp, modeOp, completed, State.emit]
    | succ n =>
      rw [hsq, heq] at hm
      have hm' : ms[n]? = some m := by simpa using hm
      have hb' : s.engine.bind.isSome := hbind (.inr (by omega))
      have h4' : s.engine.ctl = c.walk (ms.take n) := by
        rw [h4, hsq, heq, List.take_succ_cons, Ctl.walk, List.foldl_cons, after_bindPins]; rfl
      rcases element_of_complete hcomp _ m hm' with ⟨hf, hl, hpre⟩ | ⟨hop, hmk, hl, hpre, hidle⟩
      · left
        rw [← h4'] at hf
        exact ⟨_, m, hc, by rw [heq]; simpa using hm, perform_performed m s hs hpre hf, by rw [heq]; simp; omega, hb'⟩
      · right; left
        rw [← h4'] at hidle
        exact ⟨_, m, hc, by rw [heq]; simpa using hm, hop, done hop hmk hpre, hidle, hpre, hb'⟩

end Sys2Proof.Machine
end

