-- ==== Sys2Proof/Tests/Slice0.lean ====
section
/-! SUPPORT. Tests. Expected results are the spec's own: the encodings of 30_encoding.md, the worked examples and vectors
of 95_test_vectors.md (its section is named at each test), with the reference segment table of 10_state.md R32. Then one
witness for the hypotheses of every obligation that has some. -/

namespace Sys2Proof.Tests

open Sys2Proof Sys2Proof.Machine

/-! ### Well-formedness -/

theorem test_wf_refuses_empty_transact : (Instr.transact []).wf = false := by decide

theorem test_wf_accepts : (Instr.transact [0xC0#8]).wf = true ∧ (Instr.setBrightness 255#8).wf = true := by decide

/-! ### Decoding: words written out from R70 and R73 -/

theorem test_decode_DATA_WRITE_AUTOINC : decodeTableWord 8 0b01000000 = some .dataWriteAutoinc := by decide
theorem test_decode_READ_KEYS_CMD : decodeTableWord 8 0b01000010 = some .readKeysCmd := by decide
theorem test_decode_DISPLAY_OFF : decodeTableWord 8 0b10000000 = some .displayOff := by decide
theorem test_decode_DISPLAY_ON :
    decodeTableWord 8 0b10001000 = some (.displayOn 0) ∧ decodeTableWord 8 0b10001110 = some (.displayOn 6) ∧
    decodeTableWord 8 0b10001111 = some (.displayOn 7) := by decide
theorem test_decode_SET_ADDRESS :
    decodeTableWord 8 0b11000000 = some (.setAddress 0) ∧ decodeTableWord 8 0b11000101 = some (.setAddress 5) ∧
    decodeTableWord 8 0b11001111 = some (.setAddress 15) := by decide
theorem test_decode_INIT : decodeTableWord 8 0b000 = some (.init 0 0 0) := by decide
theorem test_decode_CLEAR : decodeTableWord 8 0b001 = some .clear := by decide
theorem test_decode_SET_BRIGHTNESS : decodeTableWord 8 0b010 = some (.setBrightness 0) := by decide
theorem test_decode_SET_LEDS : decodeTableWord 8 0b011 = some (.setLeds 0) := by decide
theorem test_decode_READ_KEYS : decodeTableWord 8 0b100 = some .readKeys := by decide
theorem test_decode_SHOW_DIGITS : decodeTableWord 8 0b101 = some (.showDigits []) := by decide

/-- Operand fields at the port (R71). -/
theorem test_decode_port_operands :
    decode (.port { tag := 0b000#3, clk := 4, dio := 3, stb := 9 }) = .ok (.init 4 3 9) ∧
    decode (.port { tag := 0b010#3, level := 0xC8#8, mask := 1#8 }) = .ok (.setBrightness 0xC8#8) ∧
    decode (.port { tag := 0b011#3, level := 1#8, mask := 0xA5#8 }) = .ok (.setLeds 0xA5#8) ∧
    decode (.port { tag := 0b101#3, text := [0x31#8] }) = .ok (.showDigits [0x31#8]) := by decide

/-- R72 and R80: the reserved tags, and every byte the source gives no meaning to. -/
theorem test_decode_refuses :
    decode (.port { tag := 0b110#3 }) = .error (.reservedTag 0b110#3) ∧
    decode (.port { tag := 0b111#3 }) = .error (.reservedTag 0b111#3) ∧
    decode (.wire 0x41#8) = .error (.unknownWireByte 0x41#8) ∧ decode (.wire 0x87#8) = .error (.unknownWireByte 0x87#8) ∧
    decode (.wire 0x90#8) = .error (.unknownWireByte 0x90#8) ∧ decode (.wire 0xD0#8) = .error (.unknownWireByte 0xD0#8) := by
  decide

/-- R6: every pin can be configurable, and no pin. -/
theorem test_configurable_all_and_none (p : PinId) : (PinSet.allBut []).has p = true ∧ (PinSet.only []).has p = false :=
  ⟨rfl, rfl⟩

/-! ### Small states -/

/-- The reference parameters: the table of R32, pins 0 to 5 configurable. -/
def refParams : Params :=
  { seg7 := #v[0x3F, 0x06, 0x5B, 0x4F, 0x66, 0x6D, 0x7D, 0x07, 0x7F, 0x6F]
    gpio := .only [0, 1, 2, 3, 4, 5], delayPred := 0, timingMet := true }

/-- Power-on with the reference parameters. -/
def fresh : State := { State.reset with params := refParams }

/-- An engine bound to pins 0, 1, 2 and idle. -/
def bound : State :=
  { fresh with engine := { fresh.engine with
      bind := some { clk := 0, dio := 1, stb := 2 }, pinmode := [0, 1, 2], clk := .high, stb := .high, dio := .low } }

/-- The bound engine with its Device in write mode. -/
def writing : State := { bound with device := { bound.device with dmode := .writeAutoinc } }

/-- The bound engine inside an open frame, the data line in a direction. -/
def inFrame (d : Dir) : State :=
  { bound with
    engine := { bound.engine with dir := d, stb := .low, openFrame := some [] }
    device := { bound.device with frame := some [] } }

/-- The Device's answers to come. -/
def answering (bs : List Bool) (s : State) : State := { s with env := { s.env with draws := bs } }

/-- The buttons. -/
def pressed (b : BitVec 8) (s : State) : State := { s with env := { s.env with btn := b } }

/-- A command at the port. -/
def atPort (c : Command) (s : State) : State := { s with host := { s.host with port := some c } }

/-- A byte that has arrived at the Device. -/
def arrived (f : Frame) (v : Byte) (s : State) : State := { s with device := { s.device with frame := some f, rx := some v } }

/-- The engine at SEQ = n of `setBrightness(3)`. -/
def busyAt (n : Nat) : State := { issueOp (.setBrightness 3) bound with
  engine := { (issueOp (.setBrightness 3) bound).engine with seq := n } }

/-- The engine after a fault. -/
def faulted : State := raiseFault (.notInitialized .clear) fresh

/-- The state an instruction leaves; the same state if it leaves none. -/
def after (i : Instr) (s : State) : State :=
  match exec i s with
  | .next t => t
  | .fault _ => s
  | .refused _ => s

/-! ### Wire commands (95_test_vectors.md 2.9) -/

theorem test_DATA_WRITE_AUTOINC : (after .dataWriteAutoinc (inFrame .out)).device.dmode = .writeAutoinc := by decide
theorem test_READ_KEYS_CMD : (after .readKeysCmd (inFrame .out)).device.dmode = .readKeys := by decide
theorem test_DISPLAY_ON : (after (.displayOn 2) (inFrame .out)).device.don = some true ∧
    (after (.displayOn 2) (inFrame .out)).device.dbright = some 2 := by decide
theorem test_DISPLAY_OFF_keeps_brightness :
    (after .displayOff (after (.displayOn 2) (inFrame .out))).device.don = some false ∧
    (after .displayOff (after (.displayOn 2) (inFrame .out))).device.dbright = some 2 := by decide
theorem test_SET_ADDRESS : (after (.setAddress 5) (inFrame .out)).device.daddr = some 5 := by decide

/-! ### Transport primitives (2.1 to 2.3) -/

theorem test_WRITE_BYTE : (after (.writeByte 0x42) (inFrame .out)).engine.openFrame = some [.out 0x42] ∧
    (after (.writeByte 0x42) (inFrame .out)).engine.dio = .low := by decide +kernel
theorem test_WRITE_BYTE_bits :
    (after (.writeByte 0x42) bound).engine.trace.filterMap (fun e => match e with | .dio b => some b | _ => none) =
      [false, true, false, false, false, false, true, false] := by decide +kernel
/-- The result; and the first sampled bit is in RXB from the step of the next `Clk(0)` on (R91, 60_exceptions.md R160). -/
theorem test_READ_BYTE :
    (after .readByte (answering [true, false, false, false, true, false, false, false] (inFrame .inp))).engine.regs.rxb = 0x11 ∧
    (runMicros (readByteSeq.take 5) (answering [true] (inFrame .inp))).engine.regs.rxb = 0x00 ∧
    (runMicros (readByteSeq.take 6) (answering [true] (inFrame .inp))).engine.regs.rxb = 0x01 := by decide +kernel
theorem test_READ_BYTE_while_output :
    (after .readByte (inFrame .out)).engine.fault.contention = true ∧
    (after .readByte (inFrame .out)).engine.trace = [.clk false] := by decide +kernel
theorem test_TRANSACT_single_write :
    (after (.transact [0xC3, 0x01]) writing).device.disp = [(3, 0x01)] ∧
    (after (.transact [0xC3, 0x01]) writing).device.daddr = some 4 := by decide +kernel
theorem test_TRANSACT_counts :
    (after (.transact [0xCE, 0xFF]) writing).engine.trace.length = 86 ∧
    (after (.transact [0xCE, 0xFF]) writing).engine.dio = .high := by decide +kernel

/-! ### Host operations (1, 2.4 to 2.8) -/

theorem test_SET_BRIGHTNESS_three :
    (after (.setBrightness 3) bound).engine.frames = [[.out 0x8A]] ∧
    (after (.setBrightness 3) bound).engine.trace.length = 47 := by decide +kernel
theorem test_SET_BRIGHTNESS_clamps :
    (after (.setBrightness 9) bound).engine.frames = [[.out 0x8F]] ∧
    (after (.setBrightness 200) bound).device.dbright = some 7 ∧ (after (.setBrightness 0) bound).device.don = some false := by
  decide +kernel
theorem test_CLEAR :
    (after .clear bound).device.disp = (List.range 16).map (fun a => (a, 0)) ∧ (after .clear bound).device.daddr = none := by
  decide +kernel
theorem test_CLEAR_unbound :
    (after .clear fresh).engine.fault.notInitialized = true ∧ (after .clear fresh).engine.trace = [] := by decide +kernel
theorem test_INIT :
    (after (.init 0 1 2) fresh).engine.bind = some { clk := 0, dio := 1, stb := 2 } ∧
    (after (.init 0 1 2) fresh).engine.trace.take 6 = [.issue (.init 0 1 2), .mode 0, .mode 1, .mode 2, .clk true, .stb true] := by
  decide +kernel
theorem test_INIT_bad_pin :
    (after (.init 0 0 1) fresh).engine.fault.badPin = true ∧ (after (.init 0 1 9) fresh).engine.bind = none ∧
    (after (.init 0 1 9) fresh).engine.trace = [.issue (.init 0 1 9)] := by decide +kernel
theorem test_SET_LEDS :
    (after (.setLeds 0x05) bound).device.disp = [(1, 1), (3, 0), (5, 1), (7, 0), (9, 0), (11, 0), (13, 0), (15, 0)] := by
  decide +kernel
theorem test_READ_KEYS :
    (after .readKeys (answering (idealBits 0x42) bound)).engine.keymask = some 0x42 ∧
    (after .readKeys (answering (idealBits 0x42) bound)).engine.frames =
      [[.out 0xC0], [.out 0x42, .inp 0x00, .inp 0x01, .inp 0x10, .inp 0x00]] := by decide +kernel
theorem test_READ_KEYS_truncates :
    (after .readKeys (answering (List.replicate 15 false ++ [true] ++ List.replicate 16 false) bound)).engine.keymask =
      some 0x00 := by decide +kernel
theorem test_SHOW_DIGITS_point :
    (after (.showDigits [0x31, 0x2E, 0x32]) bound).engine.frames =
      [[.out 0x40], [.out 0xC0, .out 0x06], [.out 0xC0, .out 0x86], [.out 0xC2, .out 0x5B]] := by decide +kernel
theorem test_SHOW_DIGITS_stops_at_eight :
    (after (.showDigits [0x31, 0x32, 0x33, 0x34, 0x3A, 0x35, 0x36, 0x20, 0x38, 0x2E, 0x39]) bound).device.disp =
      [(0, 0x06), (2, 0x5B), (4, 0x4F), (6, 0x66), (8, 0x6D), (10, 0x7D), (12, 0x00), (14, 0x7F)] := by decide +kernel

/-- The word of a table row, placed and stepped right after reset: a wire command acts, a host operation is issued. -/
theorem test_withFetchWord :
    (match step (State.reset.withFetchWord 8 0x8B) with | .next t => t.device.dbright | _ => none) = some 3 ∧
    (match step (State.reset.withFetchWord 8 0) with | .next t => t.engine.trace | _ => []) = [.issue (.init 0 0 0)] := by
  decide +kernel

/-! ### Witnesses: for each obligation with hypotheses, a state and operands that meet all of them

Where the clauses of a statement have hypotheses of their own, each clause has its conjunct, at a boundary value. -/

theorem bound_ready : Ready bound := ⟨rfl, rfl, rfl, rfl, rfl, rfl⟩

theorem bound_accepts (o : HostOp) (h : o.isInit = false) : Accepts bound o where
  toReady := bound_ready
  bound := fun _ => rfl
  pins := by rintro c d t rfl; simp [HostOp.isInit] at h

theorem bound_accepts_init : Accepts bound (.init 3 4 5) where
  toReady := bound_ready
  bound := by simp [HostOp.isInit]
  pins := by rintro c d t h; cases h; rfl

theorem fresh_ready : Ready fresh := ⟨rfl, rfl, rfl, rfl, rfl, rfl⟩

theorem bound_inv : Inv bound where
  disp := rfl
  pinmode := by decide
  released := by decide
  idle := fun _ => ⟨rfl, rfl, rfl⟩
  busy := by intro h; cases h
  frames := rfl
  noContention := rfl
  lines := fun _ => ⟨rfl, rfl, fun _ => ⟨rfl, rfl⟩⟩

/-- The busy engine at a SEQ where the lines are idle and the Device has no frame open. -/
theorem busyAt_inv (n : Nat) (hn : n < (opSeq (.setBrightness 3)).length)
    (hc : Ctl.idle.walk ((opSeq (.setBrightness 3)).take n) = Ctl.idle) : Inv (busyAt n) where
  disp := rfl
  pinmode := bound_inv.pinmode
  released := bound_inv.released
  idle := by intro h; cases h
  busy := fun _ => ⟨_, rfl, hn⟩
  frames := rfl
  noContention := rfl
  lines := fun _ => ⟨⟨Ctl.idle, rfl, rfl, fun _ => rfl, hc.symm⟩, fun _ => rfl⟩

/-- An issued INIT with two equal pins. -/
def badInit : State := issueOp (.init 0 0 1) fresh

theorem badInit_inv : Inv badInit where
  disp := rfl
  pinmode := by decide
  released := by decide
  idle := by intro h; cases h
  busy := fun _ => ⟨_, rfl, by decide +kernel⟩
  frames := rfl
  noContention := rfl
  lines := fun _ => ⟨⟨badInit.engine.ctl, rfl, rfl, by simp [HostOp.isInit], rfl⟩, by simp [HostOp.isInit, badInit, issueOp, State.log]⟩

theorem witness_DecodeOfEncodeIsTheInstruction :
    encode (.setAddress 15) = some (.wire 0xCF#8) ∧ decode (.wire 0x8F#8) = .ok (.displayOn 7) ∧
    encode (.init 1 2 3) = some (.port { tag := 0, clk := 1, dio := 2, stb := 3 }) := ⟨rfl, rfl, rfl⟩

theorem witness_StepRunsReceivedWireCommand :
    (arrived [] 0xCF#8 bound).device.rx = some 0xCF#8 ∧ (arrived [] 0xCF#8 bound).device.frame = some [] ∧
    decode (.wire 0xCF#8) = .ok (.setAddress 15) := ⟨rfl, rfl, rfl⟩

/-- The next act of the host waits for `Done`; so does an empty script (`IdleEngineWaits`). -/
def calling (c : Command) (s : State) : State := { s with host := { s.host with script := [.call none c] } }

theorem witness_StepsRunTheHostOperation :
    let s := atPort { tag := 1 } (calling { tag := 4 } bound)
    Safe s ∧ s.device.rx = none ∧ s.host.port = some { tag := 1 } ∧ decodePort { tag := 1 } = .ok .clear ∧
    (∀ a ∈ s.host.script.head?, a.waitsForDone = true) := ⟨rfl, rfl, rfl, rfl, by decide⟩

theorem witness_AcceptedCommandIsIssued :
    (let s := atPort { tag := 1 } bound
     Safe s ∧ s.device.rx = none ∧ s.engine.busy = false ∧ s.host.port = some { tag := 1 } ∧
     decodePort { tag := 1 } = .ok .clear ∧ (HostOp.clear.isInit = false → s.engine.bind.isSome = true)) ∧
    (let s := atPort { tag := 0 } fresh
     Safe s ∧ s.device.rx = none ∧ s.engine.busy = false ∧ s.host.port = some { tag := 0 } ∧
     decodePort { tag := 0 } = .ok (.init 0 0 0) ∧ ((HostOp.init 0 0 0).isInit = false → s.engine.bind.isSome = true)) :=
  ⟨⟨rfl, rfl, rfl, rfl, rfl, fun _ => rfl⟩, rfl, rfl, rfl, rfl, rfl, by simp [HostOp.isInit]⟩

/-- The pin check of `badInit` fails. -/
theorem badInit_pins : badInit.engine.cur = some (.init 0 0 1) ∧ pinsGood badInit.params 0 0 1 = false := ⟨rfl, rfl⟩

/-- At the first event, at `Done` (SEQ = 45, after the 45 events of R103), and at the pin check of INIT. -/
theorem witness_BusyStepPerformsOneEvent :
    (∀ n, n = 0 ∨ n = 45 → Inv (busyAt n) ∧ Safe (busyAt n) ∧ (busyAt n).device.rx = none ∧ (busyAt n).host.port = none ∧
      dueAct (busyAt n) = none ∧ (busyAt n).engine.busy = true) ∧
    (Inv badInit ∧ Safe badInit ∧ badInit.device.rx = none ∧ badInit.host.port = none ∧ dueAct badInit = none ∧
      badInit.engine.busy = true) := by
  refine ⟨?_, badInit_inv, rfl, rfl, rfl, rfl, rfl⟩
  rintro n (rfl | rfl)
  · exact ⟨busyAt_inv 0 (by decide +kernel) rfl, rfl, rfl, rfl, rfl, rfl⟩
  · exact ⟨busyAt_inv 45 (by decide +kernel) (by decide +kernel), rfl, rfl, rfl, rfl, rfl⟩

theorem witness_IdleEngineWaits :
    Safe bound ∧ bound.device.rx = none ∧ bound.host.port = none ∧ dueAct bound = none ∧ bound.engine.busy = false :=
  ⟨rfl, rfl, rfl, rfl, rfl⟩

theorem witness_WaitingHostCallsWhenIdle :
    (∀ s, s = calling { tag := 1 } bound ∨ s = calling { tag := 1 } (busyAt 0) →
      Safe s ∧ s.device.rx = none ∧ s.host.port = none ∧ s.host.script = [.call none { tag := 1 }]) ∧
    (calling { tag := 1 } bound).engine.busy = false ∧ (calling { tag := 1 } (busyAt 0)).engine.busy = true := by
  refine ⟨?_, rfl, rfl⟩
  rintro s (rfl | rfl) <;> exact ⟨rfl, rfl, rfl, rfl⟩

theorem witness_PowerOnState : ∃ s0 : State, faulted.powerOn = s0.powerOn := ⟨faulted, rfl⟩

/-- A stopped engine whose Device still acts, and one that is powered off and on. -/
theorem witness_FaultBitsAreSticky :
    (∃ t, step (arrived [] 0x40#8 faulted) = .next t) ∧ (arrived [] 0x40#8 faulted).engine.fault.has .notInitialized = true ∧
    (∃ t, step { faulted with host := { faulted.host with script := [.powerOn none] } } = .next t) ∧
    faulted.engine.fault.has .notInitialized = true := ⟨⟨_, rfl⟩, rfl, ⟨_, rfl⟩, rfl⟩

theorem witness_StoppedEngineTakesNoStep :
    faulted.stopped = true ∧ faulted.device.rx = none ∧ (∀ d rest, faulted.host.script ≠ .powerOn d :: rest) :=
  ⟨rfl, rfl, by intro d rest h; cases h⟩

theorem witness_UnboundOperationRaisesNotInitialized :
    Safe fresh ∧ fresh.engine.busy = false ∧ HostOp.readKeys.isInit = false ∧ fresh.engine.bind = none := ⟨rfl, rfl, rfl, rfl⟩

/-- Two equal pins, at each place, and a pin that is not configurable, at each place. -/
theorem witness_InitWithBadPinsRaisesBadPin :
    Safe fresh ∧ fresh.engine.busy = false ∧ fresh.device.rx = none ∧ fresh.params.configurable 6 = false ∧
    fresh.params.configurable 5 = true := by decide

theorem witness_CommandWhileBusyRaisesBusy :
    ∀ tag : BitVec 3, Safe (atPort { tag := tag } (busyAt 0)) ∧ (atPort { tag := tag } (busyAt 0)).device.rx = none ∧
      (atPort { tag := tag } (busyAt 0)).engine.busy = true ∧
      (atPort { tag := tag } (busyAt 0)).host.port = some { tag := tag } := fun _ => ⟨rfl, rfl, rfl, rfl⟩

theorem witness_WaitingHostNeverRaisesBusy :
    (WaitingHost (calling { tag := 1 } (busyAt 0)) ∧ ∃ t, step (calling { tag := 1 } (busyAt 0)) = .next t) ∧
    WaitingHost (atPort { tag := 1 } bound) ∧ ∃ t, step (atPort { tag := 1 } bound) = .next t :=
  ⟨⟨by decide, ⟨_, rfl⟩⟩, by decide, ⟨_, rfl⟩⟩

theorem witness_OperationWhileBusyRaisesBusy : Safe (busyAt 0) ∧ (busyAt 0).engine.busy = true := ⟨rfl, rfl⟩

theorem witness_ReservedTagRaisesReservedOp :
    ∀ tag : BitVec 3, tag = 0b110#3 ∨ tag = 0b111#3 →
      Safe (atPort { tag := tag } fresh) ∧ (atPort { tag := tag } fresh).device.rx = none ∧
      (atPort { tag := tag } fresh).engine.busy = false ∧ (atPort { tag := tag } fresh).host.port = some { tag := tag } :=
  fun _ _ => ⟨rfl, rfl, rfl, rfl⟩

/-- The parameters without the premise TimingMet. -/
def untimed (s : State) : State := { s with params := { s.params with timingMet := false } }

/-- Outside a frame, inside one, and inside one without TimingMet. -/
theorem witness_WriteByteEffect :
    (Safe bound ∧ bound.engine.dir = .out ∧ bound.device.rx = none ∧ bound.engine.openFrame = none) ∧
    (∀ s, s = inFrame .out ∨ s = untimed (inFrame .out) →
      Safe s ∧ s.engine.dir = .out ∧ s.device.rx = none ∧ s.engine.openFrame.isSome = true) ∧
    (inFrame .out).params.timingMet = true ∧ (untimed (inFrame .out)).params.timingMet = false := by
  refine ⟨⟨rfl, rfl, rfl, rfl⟩, ?_, rfl, rfl⟩
  rintro s (rfl | rfl) <;> exact ⟨rfl, rfl, rfl, rfl⟩

theorem witness_BytesTravelLeastSignificantBitFirst :
    (Safe bound ∧ bound.engine.dir = .out ∧ bound.device.rx = none) ∧
    (Safe (inFrame .inp) ∧ (inFrame .inp).engine.dir = .inp ∧ (inFrame .inp).device.rx = none) :=
  ⟨⟨rfl, rfl, rfl⟩, rfl, rfl, rfl⟩

theorem witness_WriteByteWhileInputRaisesContention :
    Safe (inFrame .inp) ∧ (inFrame .inp).engine.dir = .inp ∧ (inFrame .inp).device.rx = none := ⟨rfl, rfl, rfl⟩

/-- Inside a frame, inside one without TimingMet, and outside one. -/
theorem witness_ReadByteEffect :
    (∀ s, s = inFrame .inp ∨ s = untimed (inFrame .inp) →
      Safe s ∧ s.engine.dir = .inp ∧ s.device.rx = none ∧ s.engine.openFrame.isSome = true) ∧
    (inFrame .inp).params.timingMet = true ∧ (untimed (inFrame .inp)).params.timingMet = false ∧
    (let s : State := { bound with engine := { bound.engine with dir := .inp } }
     Safe s ∧ s.engine.dir = .inp ∧ s.device.rx = none ∧ s.engine.openFrame = none) := by
  refine ⟨?_, rfl, rfl, rfl, rfl, rfl, rfl⟩
  rintro s (rfl | rfl) <;> exact ⟨rfl, rfl, rfl, rfl⟩

theorem witness_ReadByteWhileOutputRaisesContention :
    Safe (inFrame .out) ∧ (inFrame .out).engine.dir = .out ∧ (inFrame .out).device.rx = none := ⟨rfl, rfl, rfl⟩

/-- With DIO an output; with no bytes and DIO an input; without TimingMet. -/
theorem witness_TransactEffect :
    (Safe bound ∧ bound.device.rx = none ∧ (bound.engine.dir = .out ∨ [0x40#8] = ([] : List Byte))) ∧
    (Safe (inFrame .inp) ∧ (inFrame .inp).device.rx = none ∧ ((inFrame .inp).engine.dir = .out ∨ ([] : List Byte) = [])) ∧
    (untimed bound).params.timingMet = false := ⟨⟨rfl, rfl, .inl rfl⟩, ⟨rfl, rfl, .inr rfl⟩, rfl⟩

theorem witness_TransactWhileInputRaisesContention :
    Safe (inFrame .inp) ∧ (inFrame .inp).engine.dir = .inp ∧ (inFrame .inp).device.rx = none := ⟨rfl, rfl, rfl⟩

/-- A Device in a SET_ADDRESS frame, a data byte arriving, at the address and in the mode. -/
def dataAt (m : DMode) (a : Option (BitVec 4)) : State :=
  let s := arrived [.out 0xCF#8] 0x01#8 bound
  { s with device := { s.device with dmode := m, daddr := a } }

/-- At the last address, below it, at UNKNOWN, and outside write mode. -/
theorem witness_DataByteIsWrittenAtDisplayAddress :
    (∀ m a, (dataAt m a).device.rx = some 0x01#8 ∧ (dataAt m a).device.frame = some [.out (0xC0#8 + (15#4).zeroExtend 8)]) ∧
    ((dataAt .writeAutoinc (some 15)).device.dmode = .writeAutoinc ∧ (dataAt .writeAutoinc (some 15)).device.daddr = some 15) ∧
    ((dataAt .writeAutoinc (some 14)).device.dmode = .writeAutoinc ∧ (dataAt .writeAutoinc (some 14)).device.daddr = some 14) ∧
    (dataAt .writeAutoinc none).device.daddr = none ∧ (dataAt .readKeys (some 0)).device.dmode ≠ .writeAutoinc :=
  ⟨fun _ _ => ⟨rfl, rfl⟩, ⟨rfl, rfl⟩, ⟨rfl, rfl⟩, rfl, by decide⟩

/-- The state, and the clauses with hypotheses of their own: both modes, and frames of no shape. -/
theorem witness_SentFrameAtDevice :
    (Safe bound ∧ (bound.engine.dir = .out ∨ [0x40#8] = ([] : List Byte)) ∧ bound.device.rx = none ∧ TimingMet bound) ∧
    (Safe writing ∧ (writing.engine.dir = .out ∨ [0xCF#8, 0x01#8] = ([] : List Byte)) ∧ writing.device.rx = none ∧
      TimingMet writing) ∧
    writing.device.dmode = .writeAutoinc ∧ bound.device.dmode ≠ .writeAutoinc ∧
    (bound.engine.dir = .out ∨ zeroBytes = ([] : List Byte)) ∧ (writing.engine.dir = .out ∨ zeroBytes = ([] : List Byte)) ∧
    (¬ FrameShape (sentFrame [0x40#8, 0x00#8]) ∧ ∀ n : BitVec 4, [0x40#8, 0x00#8] ≠ [0xC0#8 + n.zeroExtend 8]) ∧
    (¬ FrameShape (sentFrame []) ∧ ∀ n : BitVec 4, ([] : List Byte) ≠ [0xC0#8 + n.zeroExtend 8]) := by
  refine ⟨⟨rfl, .inl rfl, rfl, rfl⟩, ⟨rfl, .inl rfl, rfl, rfl⟩, rfl, by decide, .inl rfl, .inl rfl, ⟨?_, by decide⟩, ?_, by decide⟩
  · intro h
    have : ∀ n : BitVec 4, 0x40#8 ≠ 0xC0#8 + n.zeroExtend 8 := by decide
    generalize hf : sentFrame [0x40#8, 0x00#8] = f at h
    cases h <;> simp [sentFrame, List.replicate] at hf
    exact this _ hf.1
  · intro h
    generalize hf : sentFrame [] = f at h
    cases h <;> simp [sentFrame] at hf

theorem witness_WithoutTimingMetDeviceIsUnknown :
    Accepts (untimed bound) .readKeys ∧ (untimed bound).params.timingMet = false :=
  ⟨{ toReady := ⟨rfl, rfl, rfl, rfl, rfl, rfl⟩, bound := fun _ => rfl, pins := by rintro c d t h; cases h }, rfl⟩

theorem witness_DisplayShowsWhatWasSent :
    let s : State := { bound with device := { bound.device with don := some true } }
    Accepts s .clear ∧ TimingMet s ∧ s.device.don = some true :=
  ⟨{ toReady := ⟨rfl, rfl, rfl, rfl, rfl, rfl⟩, bound := fun _ => rfl, pins := by rintro c d t h; cases h }, rfl, rfl⟩

/-- At the first INIT, and at a rebinding with a pin released before. -/
theorem witness_InitEffect :
    (let s : State := { bound with engine := { bound.engine with released := [(5, .high), (7, .low)] } }
     Ready s ∧ s.engine.pinmode.Pairwise (· < ·) ∧ s.engine.released.Pairwise (fun a b => a.1 < b.1) ∧
     s.engine.bind = some { clk := 0, dio := 1, stb := 2 }) ∧
    fresh.engine.released.Pairwise (fun a b => a.1 < b.1) ∧ fresh.engine.bind = none ∧
    Ready fresh ∧ (0 : PinId) ≠ 1 ∧ (1 : PinId) ≠ 5 ∧ (0 : PinId) ≠ 5 ∧ fresh.params.configurable 0 = true ∧
    fresh.params.configurable 1 = true ∧ fresh.params.configurable 5 = true :=
  ⟨⟨⟨rfl, rfl, rfl, rfl, rfl, rfl⟩, by decide, by decide, rfl⟩, .nil, rfl, fresh_ready, by decide, by decide, by decide,
    by decide, by decide, by decide⟩

theorem witness_RebindingKeepsOldPinLevels :
    Accepts bound (.init 3 4 5) ∧ bound.engine.bind = some { clk := 0, dio := 1, stb := 2 } ∧ (0 : PinId) ≠ 1 ∧
    (1 : PinId) ≠ 2 ∧ (0 : PinId) ≠ 2 ∧ (0 : PinId) ≠ 3 ∧ (0 : PinId) ≠ 4 ∧ (0 : PinId) ≠ 5 :=
  ⟨bound_accepts_init, rfl, by decide, by decide, by decide, by decide, by decide, by decide⟩

theorem witness_ClearEffect : Accepts bound .clear := bound_accepts _ rfl
theorem witness_SetBrightnessEffect : Accepts bound (.setBrightness 0) ∧ Accepts bound (.setBrightness 9) :=
  ⟨bound_accepts _ rfl, bound_accepts _ rfl⟩
theorem witness_SetLedsEffect : Accepts bound (.setLeds 0x80) := bound_accepts _ rfl
theorem witness_ReadKeysEffect : Accepts bound .readKeys := bound_accepts _ rfl

theorem witness_IdealKeyReplyGivesButtons :
    let s := answering (idealBits 0x42) (pressed 0x42 bound)
    Accepts s .readKeys ∧ IdealKeyReply s :=
  ⟨{ toReady := ⟨rfl, rfl, rfl, rfl, rfl, rfl⟩, bound := fun _ => rfl, pins := by rintro c d t h; cases h },
    by decide +kernel⟩

theorem witness_ShowDigitsEffect : Accepts bound (.showDigits []) ∧ Accepts bound (.showDigits [0x38#8, 0x2E#8]) :=
  ⟨bound_accepts _ rfl, bound_accepts _ rfl⟩
theorem witness_ShowDigitsFrameBound : Accepts bound (.showDigits [0x38#8, 0x2E#8]) := bound_accepts _ rfl
theorem witness_KeyReplyBytesArriveInOrder : Accepts bound .readKeys := bound_accepts _ rfl

/-- The levels at both ends, and operations that send no display-on byte: brightness 0, INIT. -/
theorem witness_DisplayOnIsSentBySetBrightness :
    (Accepts bound (.setBrightness 1) ∧ (1#8 : Byte) ≠ 0x00#8) ∧ (Accepts bound (.setBrightness 255) ∧ (255#8 : Byte) ≠ 0x00#8) ∧
    (Accepts bound (.setBrightness 0) ∧ ∀ l, HostOp.setBrightness 0 = .setBrightness l → l = 0x00#8) ∧
    (Accepts bound (.init 3 4 5) ∧ ∀ l, HostOp.init 3 4 5 = .setBrightness l → l = 0x00#8) := by
  refine ⟨⟨bound_accepts _ rfl, by decide⟩, ⟨bound_accepts _ rfl, by decide⟩, ⟨bound_accepts _ rfl, ?_⟩, bound_accepts_init, ?_⟩
  · rintro l h; cases h; rfl
  · rintro l h; cases h

theorem witness_OperationsSendOnlyTheSixShapes : Accepts bound .readKeys ∧ Accepts bound (.init 3 4 5) :=
  ⟨bound_accepts _ rfl, bound_accepts_init⟩
theorem witness_HalfPeriodsHaveWait : Accepts bound .readKeys ∧ Accepts bound (.init 3 4 5) :=
  ⟨bound_accepts _ rfl, bound_accepts_init⟩
theorem witness_DirectionRules : Accepts bound .readKeys ∧ Accepts bound .clear := ⟨bound_accepts _ rfl, bound_accepts _ rfl⟩
theorem witness_FrameIntegrity : Accepts bound .readKeys ∧ Accepts bound (.init 3 4 5) :=
  ⟨bound_accepts _ rfl, bound_accepts_init⟩
theorem witness_OperationCountsAndDuration : Accepts bound .readKeys ∧ Accepts bound (.init 3 4 5) :=
  ⟨bound_accepts _ rfl, bound_accepts_init⟩

theorem witness_RepeatedOperationIsIdempotent :
    Accepts bound (.setLeds 0xA5) ∧ Memory.wf bound.device.disp = true ∧
    (HostOp.setLeds 0xA5 = .clear ∨ (∃ l, HostOp.setLeds 0xA5 = .setBrightness l) ∨ (∃ m, HostOp.setLeds 0xA5 = .setLeds m) ∨
      (∃ x, HostOp.setLeds 0xA5 = .showDigits x)) := ⟨bound_accepts _ rfl, rfl, .inr (.inr (.inl ⟨_, rfl⟩))⟩

theorem witness_OnlyInitBindsOnlyReadKeysWritesMask :
    (∃ t, exec .clear bound = .next t) ∧ (∃ t, exec .readKeys bound = .next t) ∧ ∃ t, exec (.init 3 4 5) bound = .next t :=
  ⟨⟨_, rfl⟩, ⟨_, rfl⟩, ⟨_, rfl⟩⟩

theorem witness_NoStepWritesParameters : ∃ t, step (atPort { tag := 1 } bound) = .next t := ⟨_, rfl⟩

theorem witness_EveryStepKeepsInvariant : Inv (busyAt 0) ∧ ∃ t, step (busyAt 0) = .next t :=
  ⟨busyAt_inv 0 (by decide +kernel) rfl, ⟨_, rfl⟩⟩

theorem witness_SafeMachineAlwaysSteps : Inv bound ∧ Safe bound := ⟨bound_inv, rfl⟩

end Sys2Proof.Tests
end

section
/-! SUPPORT. What `step`, the tick, the envelope and the acts of the host can do: one inversion lemma each (spec
60_exceptions.md R160, 41_command_layer.md R100). -/

namespace Sys2Proof.Machine

/-! ### The step -/

/-- The five things a step can be (log 4): the Device acts, an act of the host is performed, the engine takes the command
at the port, a busy engine performs an event, or nothing happens. -/
inductive StepOutcome (s : State) : State → Prop
  | device (v : Byte) (hrx : s.device.rx = some v) : StepOutcome s { s with device := { s.device with rx := none }.act v }
  | act (a : HostAct) (rest : List HostAct) (hdue : dueAct s = some (a, rest)) : StepOutcome s (hostAct a rest s)
  | accept (c : Command) (hsafe : Safe s) (hport : s.host.port = some c) : StepOutcome s (accept c s)
  | tick (t : State) (hsafe : Safe s) (hrx : s.device.rx = none) (hbusy : s.engine.busy = true) (htick : tick s = .next t) :
      StepOutcome s t
  | wait : StepOutcome s s

theorem agentStep_outcome {s t : State} (hrx : s.device.rx = none) (h : agentStep s = .next t) : StepOutcome s t := by
  unfold agentStep at h
  cases hst : s.stopped with
  | true =>
    rw [hst, if_pos rfl] at h
    cases hd : dueAct s with
    | none => rw [hd] at h; cases h
    | some q => rw [hd] at h; cases h; exact .act _ _ hd
  | false =>
    rw [hst, if_neg Bool.false_ne_true] at h
    cases hp : s.host.port with
    | some c => rw [hp] at h; cases h; exact .accept c hst hp
    | none =>
      cases hd : dueAct s with
      | some q => rw [hp, hd] at h; cases h; exact .act _ _ hd
      | none =>
        cases hb : s.engine.busy with
        | true => exact .tick t hst hrx hb (by simpa [hp, hd, hb] using h)
        | false =>
          have hst : s = t := by simpa [hp, hd, hb] using h
          exact hst ▸ .wait

/-- Every step is one of the five. -/
theorem step_outcome {s t : State} (h : step s = .next t) : StepOutcome s t := by
  unfold step at h
  cases hrx : s.device.rx with
  | some v =>
    rw [hrx] at h
    cases (deviceStep_eq v s).symm.trans h
    exact .device v hrx
  | none => rw [hrx] at h; exact agentStep_outcome hrx h

/-- The tick performs the element of the running operation at SEQ (10_state.md R27). -/
theorem tick_performs {s t : State} (h : tick s = .next t) : ∃ m, t = perform m s := by
  unfold tick at h
  split at h
  · cases h
  · split at h
    · cases h
    · cases h; exact ⟨_, rfl⟩

/-! ### The envelope and the acts of the host -/

/-- The envelope raises a fault that is not CONTENTION, or accepts the operation of an idle engine, bound unless the
operation is INIT (R100). -/
theorem envelope_cases (r : Request) (s : State) :
    (∃ f, f.code ≠ .contention ∧ envelope r s = raiseFault f s) ∨
    (∃ o, s.engine.busy = false ∧ (o.isInit = false → s.engine.bind.isSome = true) ∧ envelope r s = issueOp o s) := by
  unfold envelope
  split
  · exact .inl ⟨_, by simp [FaultRecord.code], rfl⟩
  · rename_i hb
    cases r with
    | reserved tag => exact .inl ⟨_, by simp [FaultRecord.code], rfl⟩
    | op o =>
      by_cases hc : (!o.isInit && s.engine.bind.isNone) = true
      · exact .inl ⟨.notInitialized o, by simp [FaultRecord.code], if_pos hc⟩
      · refine .inr ⟨o, Bool.eq_false_iff.2 hb, fun hi => ?_, if_neg hc⟩
        simpa [hi, Option.isSome_iff_ne_none] using hc

/-- An act that is due is the next one of the script. -/
theorem script_of_dueAct {s : State} {a : HostAct} {rest : List HostAct} (h : dueAct s = some (a, rest)) :
    s.host.script = a :: rest := by
  unfold dueAct at h
  split at h
  · cases h
  · split at h
    · cases h; assumption
    · cases h

/-- An act of the host leaves the engine and the Device alone, or is a power-on. -/
theorem hostAct_cases (a : HostAct) (rest : List HostAct) (s : State) :
    ((hostAct a rest s).engine = s.engine ∧ (hostAct a rest s).device = s.device) ∨
    (∃ d, a = .powerOn d ∧ (hostAct a rest s).engine = Engine.reset ∧ (hostAct a rest s).device = Device.reset) := by
  cases a with
  | call d c => exact .inl ⟨rfl, rfl⟩
  | buttons d b => exact .inl ⟨rfl, rfl⟩
  | powerOn d => exact .inr ⟨d, rfl, rfl, rfl⟩

theorem hostAct_params (a : HostAct) (rest : List HostAct) (s : State) : (hostAct a rest s).params = s.params := by
  cases a <;> rfl

end Sys2Proof.Machine
end

section
/-! PROOF. The invariant of the machine: it holds at power-on, and each of the five kinds of step keeps it (spec
10_state.md R22, R23, R27, 70_reset_and_hazards.md R182, R185). -/

namespace Sys2Proof.Machine

/-! ### The lines and the sequencer -/

theorem linesOk_of_none {e : Engine} (h : e.cur = none) : LinesOk e ↔ AtRest e := by
  rw [LinesOk, h]

theorem linesOk_of_some {e : Engine} {o : HostOp} (h : e.cur = some o) : LinesOk e ↔ MidOp e o := by
  rw [LinesOk, h]

/-- A bound engine at rest has the lines of R22 and R23. -/
theorem AtRest.ctl_eq {e : Engine} (h : AtRest e) (hb : e.bind.isSome = true) : e.ctl = Ctl.idle := by
  obtain ⟨hclk, hstb⟩ := h.high hb
  simp [Engine.ctl, Ctl.idle, hclk, hstb, h.dir, h.noFrame]

theorem atRest_of_ctl {e : Engine} (h : e.ctl = Ctl.idle) : AtRest e := by
  simp only [Engine.ctl, Ctl.idle, Ctl.mk.injEq, Option.isSome_eq_false_iff, Option.isNone_iff_eq_none] at h
  obtain ⟨hclk, hstb, hdir, hopen⟩ := h
  exact ⟨hdir, hopen, fun _ => ⟨hclk, hstb⟩⟩

/-- One more element of a sequence. -/
theorem walk_take_succ (c : Ctl) {ms : List Micro} {n : Nat} {m : Micro} (h : ms[n]? = some m) :
    c.walk (ms.take (n + 1)) = (c.walk (ms.take n)).after m := by
  rw [List.take_add_one, h, walk_append]
  rfl

/-- Every operation has an event. -/
theorem opSeq_length_pos (o : HostOp) : 0 < (opSeq o).length := by
  rcases complete_from_start o Ctl.idle rfl rfl (fun _ => rfl) with ⟨_, a, pre, h, _⟩ | ⟨_, _, _, ms, _, h, _⟩
  · simp [h, doneSeq]
  · simp [h]

/-- An operation begins on the lines of an engine at rest. -/
theorem midOp_issueOp {s : State} {o : HostOp} (h : AtRest s.engine) (hbind : o.isInit = false → s.engine.bind.isSome = true) :
    MidOp (issueOp o s).engine o where
  start := ⟨s.engine.ctl, h.dir, by simp [Engine.ctl, h.noFrame], fun hi => h.ctl_eq (hbind hi), rfl⟩
  bound := fun hi => hi.elim hbind (fun hlt => absurd hlt (Nat.lt_irrefl 0))

/-- An element performed takes the lines one element further. -/
theorem midOp_performed {s t : State} {o : HostOp} {m : Micro} (h : MidOp s.engine o)
    (hm : (opSeq o)[s.engine.seq]? = some m) (hp : Performed m s t) (hbind : s.engine.bind.isSome = true) :
    MidOp t.engine o := by
  obtain ⟨c, hdir, hopen, hidle, hctl⟩ := h.start
  refine ⟨⟨c, hdir, hopen, hidle, ?_⟩, fun _ => hp.bind ▸ hbind⟩
  rw [hp.ctl, hp.seq, walk_take_succ c hm, hctl]

/-! ### The invariant at power-on, and what it depends on -/

/-- The power-on values meet the invariant (10_state.md R38). -/
theorem inv_of_reset {s : State} (he : s.engine = Engine.reset) (hd : s.device = Device.reset) : Inv s where
  disp := by rw [hd]; rfl
  pinmode := by rw [he]; exact .nil
  released := by rw [he]; exact .nil
  idle := fun _ => by rw [he, hd]; exact ⟨rfl, rfl, rfl⟩
  busy := fun hb => by rw [he] at hb; cases hb
  frames := by rw [he, hd]; rfl
  noContention := by rw [he]; rfl
  lines := fun _ => by rw [he]; exact ⟨rfl, rfl, fun hb => by cases hb⟩

/-- The invariant speaks of the engine and the Device only. -/
theorem Inv.congr {s t : State} (h : Inv s) (he : t.engine = s.engine) (hd : t.device = s.device) : Inv t := by
  obtain ⟨e, d, v, u, p⟩ := s
  obtain ⟨e', d', v', u', p'⟩ := t
  cases he
  cases hd
  exact ⟨h.disp, h.pinmode, h.released, h.idle, h.busy, h.frames, h.noContention, h.lines⟩

/-- A fault other than CONTENTION keeps the invariant: it stops the engine, whose lines are then left out of it. -/
theorem Inv.raiseFault {s : State} (h : Inv s) {r : FaultRecord} (hr : r.code ≠ .contention) :
    Inv (Machine.raiseFault r s) where
  disp := h.disp
  pinmode := h.pinmode
  released := h.released
  idle := h.idle
  busy := h.busy
  frames := h.frames
  noContention := by
    have hadd := FaultSet.has_add s.engine.fault r.code .contention
    rw [decide_eq_false hr, Bool.false_or] at hadd
    exact hadd.trans h.noContention
  lines := fun hs => by
    rw [Safe, stopped_raiseFault] at hs
    cases hs

/-! ### The Device's step -/

theorem data_wf (v : Byte) (d : Device) (h : Memory.wf d.disp = true) : Memory.wf (d.data v).disp = true := by
  unfold Device.data
  split
  · split
    · exact Memory.wf_write _ _ v h
    · rfl
  · rfl

/-- A byte the Device acts on keeps its memory canonical. -/
theorem act_wf (v : Byte) (d : Device) (h : Memory.wf d.disp = true) : Memory.wf (d.act v).disp = true := by
  unfold Device.act
  split
  · rename_i w _
    cases w <;> exact h
  · unfold Device.other
    split
    · split
      · exact data_wf v d h
      · rfl
    · rfl
    · exact h

/-- A byte the Device acts on opens and closes no frame: a command is the first byte of an open one. -/
theorem act_frame_isSome (v : Byte) (d : Device) : (d.act v).frame.isSome = d.frame.isSome := by
  unfold Device.act
  split
  · rename_i w hw
    have hf : d.frame = some [] := by
      by_contra hne
      simp [Device.command, hne] at hw
    rw [hf]
    cases w <;> rfl
  · unfold Device.other
    split
    · split <;> simp [*]
    · simp [*]
    · rfl

theorem Inv.device {s : State} (h : Inv s) (v : Byte) :
    Inv { s with device := { s.device with rx := none }.act v } where
  disp := act_wf v _ h.disp
  pinmode := h.pinmode
  released := h.released
  idle := fun hb =>
    have ⟨hcur, hseq, _⟩ := h.idle hb
    ⟨hcur, hseq, act_rx v _⟩
  busy := h.busy
  frames := (act_frame_isSome v _).trans h.frames
  noContention := h.noContention
  lines := h.lines

/-! ### The envelope -/

theorem Inv.issueOp {s : State} (h : Inv s) (hs : Safe s) {o : HostOp} (hb : s.engine.busy = false)
    (hbind : o.isInit = false → s.engine.bind.isSome = true) : Inv (Machine.issueOp o s) where
  disp := h.disp
  pinmode := h.pinmode
  released := h.released
  idle := fun hb' => by cases hb'
  busy := fun _ => ⟨o, rfl, opSeq_length_pos o⟩
  frames := h.frames
  noContention := h.noContention
  lines := fun _ =>
    have hrest : AtRest s.engine := (linesOk_of_none (h.idle hb).1).1 (h.lines hs)
    (linesOk_of_some rfl).2 (midOp_issueOp hrest hbind)

theorem Inv.envelope {s : State} (h : Inv s) (hs : Safe s) (r : Request) : Inv (Machine.envelope r s) := by
  rcases envelope_cases r s with ⟨f, hf, he⟩ | ⟨o, hb, hbind, he⟩
  · rw [he]; exact h.raiseFault hf
  · rw [he]; exact h.issueOp hs hb hbind

/-! ### The tick -/

/-- An element that fits. -/
theorem Inv.performed {s t : State} (h : Inv s) (hs : Safe s) (hb : s.engine.busy = true) {o : HostOp} {m : Micro}
    (hcur : s.engine.cur = some o) (hm : (opSeq o)[s.engine.seq]? = some m) (hp : Performed m s t)
    (hlt : s.engine.seq + 1 < (opSeq o).length) (hbind : s.engine.bind.isSome = true) : Inv t where
  disp := hp.disp h.disp
  pinmode := hp.pinmode h.pinmode
  released := hp.released ▸ h.released
  idle := fun hb' => by rw [hp.busy, hb] at hb'; cases hb'
  busy := fun _ => ⟨o, hp.cur.trans hcur, hp.seq ▸ hlt⟩
  frames := hp.frames h.frames
  noContention := hp.fault ▸ h.noContention
  lines := fun _ =>
    have hmid : MidOp s.engine o := (linesOk_of_some hcur).1 (h.lines hs)
    (linesOk_of_some (hp.cur.trans hcur)).2 (midOp_performed hmid hm hp hbind)

/-- `Done`, on lines at rest, with no byte on its way to the Device. -/
theorem Inv.finish {s : State} (h : Inv s) (hrx : s.device.rx = none) (hctl : s.engine.ctl = Ctl.idle) {pre : List RegOp}
    (hpre : ∀ o ∈ pre, o.isBind = false) : Inv (Machine.finish (regOps pre s)) := by
  have hu := regOps_updated pre hpre s
  have hctl' : (regOps pre s).engine.ctl = Ctl.idle := by
    rw [hu.ctl, hctl]
    split <;> rfl
  have hrest : AtRest (regOps pre s).engine := atRest_of_ctl hctl'
  exact {
    disp := hu.device ▸ h.disp
    pinmode := hu.pinmode ▸ h.pinmode
    released := hu.released ▸ h.released
    idle := fun _ => ⟨rfl, rfl, hu.device ▸ hrx⟩
    busy := fun hb => by cases hb
    frames := by
      show (regOps pre s).device.frame.isSome = (regOps pre s).engine.openFrame.isSome
      rw [hu.device, hu.openFrame]
      exact h.frames
    noContention := hu.fault ▸ h.noContention
    lines := fun _ => ⟨hrest.dir, hrest.noFrame, hrest.high⟩ }

/-- The binding of INIT with its first Mode event: the lines stay, the pin tables stay canonical. -/
theorem Inv.bindPins {s : State} (h : Inv s) (hs : Safe s) (hb : s.engine.busy = true) {c d p : PinId}
    (hcur : s.engine.cur = some (.init c d p)) (hseq : s.engine.seq = 0) (hlt : 1 < (opSeq (.init c d p)).length) :
    Inv (modeOp c { s with engine := { s.engine with
      bind := some { clk := c, dio := d, stb := p }
      released := releasedAfter s.engine { clk := c, dio := d, stb := p } } }) where
  disp := h.disp
  pinmode := insertPin_sorted c _ h.pinmode
  released := releasedAfter_sorted _ _ h.released
  idle := fun hb' => by rw [show s.engine.busy = false from hb'] at hb; cases hb
  busy := fun _ => ⟨_, hcur, by
    show s.engine.seq + 1 < _
    rw [hseq]
    exact hlt⟩
  frames := h.frames
  noContention := h.noContention
  lines := fun _ => by
    have hmid : MidOp s.engine (.init c d p) := (linesOk_of_some hcur).1 (h.lines hs)
    obtain ⟨k, hdir, hopen, hidle, hctl⟩ := hmid.start
    obtain ⟨ms, hms, _⟩ := complete_initSeq c d p k hdir hopen
    refine (linesOk_of_some (o := .init c d p) ?_).2 ⟨⟨k, hdir, hopen, hidle, ?_⟩, fun _ => rfl⟩
    · exact hcur
    show s.engine.ctl = k.walk ((opSeq (.init c d p)).take (s.engine.seq + 1))
    rw [walk_take_succ k (m := { pre := [.bindPins c d p], op := .mode c }) (by rw [hseq, hms]; rfl), after_bindPins, hctl]

theorem Inv.tick {s t : State} (h : Inv s) (hs : Safe s) (hrx : s.device.rx = none) (hb : s.engine.busy = true)
    (ht : Machine.tick s = .next t) : Inv t := by
  obtain ⟨u, hu, hcases⟩ := tick_cases s h hs hb
  cases hu.symm.trans ht
  rcases hcases with ⟨o, m, hcur, hm, hp, hlt, hbind⟩ | ⟨o, m, -, -, -, rfl, hctl, hpre, -⟩ | ⟨c, d, p, -, -, -, rfl⟩ |
    ⟨c, d, p, hcur, hseq, hlt, -, rfl⟩
  · exact h.performed hs hb hcur hm hp hlt hbind
  · exact h.finish hrx hctl hpre
  · exact h.raiseFault (by simp [FaultRecord.code])
  · exact h.bindPins hs hb hcur hseq hlt

/-! ### The statements -/

/-- Settles O51: each of the five kinds of step keeps the invariant; the tick by the four things it can do. -/
theorem everyStepKeepsInvariant : Obligations.EveryStepKeepsInvariant := by
  intro s t hi h
  cases step_outcome h with
  | device v _ => exact hi.device v
  | act a rest _ =>
    rcases hostAct_cases a rest s with ⟨he, hd⟩ | ⟨_, _, he, hd⟩
    · exact hi.congr he hd
    · exact inv_of_reset he hd
  | accept c hs _ =>
    have hi0 : Inv { s with host := { s.host with port := none } } := hi.congr rfl rfl
    exact hi0.envelope hs (Command.request c)
  | tick _ hs hrx hb ht => exact hi.tick hs hrx hb ht
  | wait => exact hi

/-- Settles O52: the reset state holds the power-on values. -/
theorem invariantAtReset : Obligations.InvariantAtReset := inv_of_reset rfl rfl

end Sys2Proof.Machine
end

section
/-! PROOF. What an instruction and a step leave alone: the parameters, the buttons and the host's side; the fault bits; the
binding and the pin tables unless an INIT writes them; KEYMASK unless a READ_KEYS does (spec 10_state.md R20, R21, R24, R28,
R30, R37). -/

namespace Sys2Proof.Machine

/-! ### Which elements write the binding, and which the key mask -/

/-- The register update of R110 that writes KEYMASK. -/
def RegOp.isLatch : RegOp → Bool
  | .latchMask => true
  | _ => false

/-- The event that writes PINMODE. -/
def LineOp.isMode : LineOp → Bool
  | .mode _ => true
  | _ => false

/-- The element writes neither BIND nor PINMODE. -/
def Micro.keepsBinding (m : Micro) : Bool := m.pre.all (fun o => !o.isBind) && !m.op.isMode

/-- The element does not write KEYMASK. -/
def Micro.keepsMask (m : Micro) : Bool := m.pre.all fun o => !o.isLatch

/-- The element writes none of the three. -/
def Micro.keepsBoth (m : Micro) : Bool := m.keepsBinding && m.keepsMask

theorem all_keepsBoth {ms : List Micro} (h : ms.all Micro.keepsBoth = true) :
    ms.all Micro.keepsBinding = true ∧ ms.all Micro.keepsMask = true := by
  simp only [List.all_eq_true, Micro.keepsBoth, Bool.and_eq_true] at h ⊢
  exact ⟨fun m hm => (h m hm).1, fun m hm => (h m hm).2⟩

theorem keepsBoth_transactSeq (srcs : List Src) : (transactSeq srcs).all Micro.keepsBoth = true := by
  have hsend (src : Src) : (sendSeq src).all Micro.keepsBoth = true := rfl
  simp [transactSeq, List.all_append, List.all_flatMap, hsend, Micro.plain, Micro.keepsBoth, Micro.keepsBinding, Micro.keepsMask,
    LineOp.isMode]

theorem RegOp.not_latch_of_show {o : RegOp} (h : o.isShow = true) : o.isLatch = false := by
  cases o <;> simp_all [RegOp.isShow, RegOp.isLatch]

/-- Register updates of `showDigits` write neither. -/
theorem keepsBoth_of_show {pre : List RegOp} (h : ∀ o ∈ pre, o.isShow = true) (op : LineOp) (hop : op.isMode = false) (k : Mark) :
    Micro.keepsBoth { pre := pre, op := op, mark := k } = true := by
  simp only [Micro.keepsBoth, Micro.keepsBinding, Micro.keepsMask, hop, Bool.and_eq_true, List.all_eq_true, Bool.not_eq_true',
    Bool.not_false, and_true]
  exact ⟨fun o ho => RegOp.not_bind_of_show (h o ho), fun o ho => RegOp.not_latch_of_show (h o ho)⟩

theorem keepsBoth_placeSeq {pre : List RegOp} (h : ∀ o ∈ pre, o.isShow = true) : (placeSeq pre).all Micro.keepsBoth = true := by
  have hfirst := keepsBoth_of_show (pre := pre ++ []) (by simpa using h) (.stb false) rfl .none
  have hrest := keepsBoth_transactSeq [.lastAddr, .lastSeg]
  exact Bool.and_eq_true_iff.2 ⟨hfirst, (Bool.and_eq_true_iff.1 hrest).2⟩

theorem keepsBoth_scanSeq (t : List Byte) (pos : Nat) (pend : List RegOp) (h : ∀ o ∈ pend, o.isShow = true) :
    (scanSeq t pos pend).all Micro.keepsBoth = true := by
  have hdone (p : List RegOp) (hp : ∀ o ∈ p, o.isShow = true) : (doneSeq p).all Micro.keepsBoth = true := by
    simpa [doneSeq] using keepsBoth_of_show hp .done rfl .none
  induction t generalizing pos pend with
  | nil => exact hdone pend h
  | cons c cs ih =>
    have hplace (l : List RegOp) (p : Nat) (q : List RegOp) (hl : ∀ o ∈ l, o.isShow = true) (hq : ∀ o ∈ q, o.isShow = true) :
        (placeSeq (pend ++ l) ++ scanSeq cs p q).all Micro.keepsBoth = true := by
      rw [List.all_append, keepsBoth_placeSeq (isShow_append h hl), ih p q hq, Bool.and_self]
    rw [scanSeq]
    split
    · exact hdone pend h
    · split
      · exact hplace _ _ _ (by simp [RegOp.isShow]) (by simp [RegOp.isShow])
      · exact hplace _ _ _ (by simp [RegOp.isShow]) (by simp [RegOp.isShow])
      · split
        · exact hplace _ _ _ (by simp [RegOp.isShow]) (by simp)
        · exact ih _ _ (isShow_append h (by simp [RegOp.isShow]))
      · exact ih _ _ (isShow_append h (by simp [RegOp.isShow]))

theorem keepsBoth_showSeq (t : List Byte) : (showSeq t).all Micro.keepsBoth = true := by
  rw [showSeq, List.all_append, keepsBoth_transactSeq, keepsBoth_scanSeq t 0 _ (by simp [RegOp.isShow]), Bool.and_self]

theorem keepsBoth_frames (l : List (List Src)) : (l.flatMap transactSeq).all Micro.keepsBoth = true := by
  simp [List.all_flatMap, keepsBoth_transactSeq]

theorem keepsBoth_clearBody : clearBody.all Micro.keepsBoth = true := by
  rw [clearBody, List.all_append, keepsBoth_transactSeq, keepsBoth_transactSeq, Bool.and_self]

theorem keepsBoth_keyFrameSeq : keyFrameSeq.all Micro.keepsBoth = true := by
  have hwrite : (writeByteSeq (.lit 0x42#8)).all Micro.keepsBoth = true := rfl
  have hbyte (i : Fin 4) : (keyByteSeq i).all Micro.keepsBoth = true := rfl
  rw [keyFrameSeq]
  simp only [List.all_append, hwrite, List.all_flatMap, hbyte]
  rfl

/-- Of the six operations only INIT and READ_KEYS have elements that write one of the three. -/
theorem opSeq_keepsBoth (o : HostOp) (hi : o.isInit = false) (hk : o ≠ .readKeys) : (opSeq o).all Micro.keepsBoth = true := by
  have hdone : (doneSeq []).all Micro.keepsBoth = true := rfl
  cases o with
  | init c d t => cases hi
  | clear => rw [opSeq, clearSeq, List.all_append, keepsBoth_clearBody, hdone, Bool.and_self]
  | setBrightness l => rw [opSeq, brightnessSeq, List.all_append, keepsBoth_transactSeq, hdone, Bool.and_self]
  | setLeds m =>
    have hleds := keepsBoth_frames ((List.finRange 8).map fun i => [.lit (ledAddr i.val), .lit (ledByte m i.val)])
    rw [List.flatMap_map] at hleds
    rw [opSeq, ledsSeq, List.all_append, List.all_append, keepsBoth_transactSeq, hdone, Bool.true_and, Bool.and_true]
    exact hleds
  | readKeys => exact absurd rfl hk
  | showDigits t => exact keepsBoth_showSeq t

/-- Only INIT has elements that write the binding. -/
theorem opSeq_keepsBinding (o : HostOp) (hi : o.isInit = false) : (opSeq o).all Micro.keepsBinding = true := by
  by_cases hk : o = .readKeys
  · subst hk
    rw [opSeq, keysSeq, List.all_append, List.all_append, (all_keepsBoth (keepsBoth_transactSeq _)).1,
      (all_keepsBoth keepsBoth_keyFrameSeq).1]
    rfl
  · exact (all_keepsBoth (opSeq_keepsBoth o hi hk)).1

/-- Only READ_KEYS has elements that write the key mask. -/
theorem opSeq_keepsMask (o : HostOp) (hk : o ≠ .readKeys) : (opSeq o).all Micro.keepsMask = true := by
  cases hi : o.isInit with
  | false => exact (all_keepsBoth (opSeq_keepsBoth o hi hk)).2
  | true =>
    cases o with
    | init c d t =>
      rw [opSeq, initSeq, List.all_append, List.all_append, (all_keepsBoth keepsBoth_clearBody).2]
      rfl
    | _ => cases hi

/-! ### What is kept -/

/-- What leads from `s` to `t` keeps the parameters, the buttons, the host's side and every fault bit; under `B` also the
binding and the pin tables, under `K` also KEYMASK. -/
structure Kept (B K : Prop) (s t : State) : Prop where
  params : t.params = s.params
  btn : t.env.btn = s.env.btn
  host : t.host = s.host
  fault : ∀ c, s.engine.fault.has c = true → t.engine.fault.has c = true
  binding : B → t.engine.bind = s.engine.bind ∧ t.engine.pinmode = s.engine.pinmode ∧ t.engine.released = s.engine.released
  keymask : K → t.engine.keymask = s.engine.keymask

/-- The parts of a state that `Kept` speaks of. -/
def State.lasting (s : State) :
    Params × BitVec 8 × HostSide × FaultSet × Option Pins × List PinId × List (PinId × Level) × Option Byte :=
  (s.params, s.env.btn, s.host, s.engine.fault, s.engine.bind, s.engine.pinmode, s.engine.released, s.engine.keymask)

section
variable {B K : Prop}

/-- What changes none of these parts keeps them. -/
theorem Kept.of_lasting {s t : State} (h : t.lasting = s.lasting) : Kept B K s t := by
  simp only [State.lasting, Prod.mk.injEq] at h
  obtain ⟨hparams, hbtn, hhost, hfault, hbind, hpinmode, hreleased, hmask⟩ := h
  exact ⟨hparams, hbtn, hhost, fun _ hc => hfault ▸ hc, fun _ => ⟨hbind, hpinmode, hreleased⟩, fun _ => hmask⟩

theorem Kept.refl (s : State) : Kept B K s s := .of_lasting rfl

theorem Kept.trans {s t u : State} (h : Kept B K s t) (h' : Kept B K t u) : Kept B K s u where
  params := h'.params.trans h.params
  btn := h'.btn.trans h.btn
  host := h'.host.trans h.host
  fault := fun c hc => h'.fault c (h.fault c hc)
  binding := fun b =>
    have ⟨hb, hp, hr⟩ := h.binding b
    have ⟨hb', hp', hr'⟩ := h'.binding b
    ⟨hb'.trans hb, hp'.trans hp, hr'.trans hr⟩
  keymask := fun k => (h'.keymask k).trans (h.keymask k)

/-- A raised fault adds its bit and removes none (R28). -/
theorem kept_raiseFault (r : FaultRecord) (s : State) : Kept B K s (raiseFault r s) where
  params := rfl
  btn := rfl
  host := rfl
  fault := fun c hc => by rw [raiseFault_engine, FaultSet.has_add, hc, Bool.or_true]
  binding := fun _ => ⟨rfl, rfl, rfl⟩
  keymask := fun _ => rfl

theorem kept_bindOp (c d p : PinId) (s : State) (hB : ¬ B) : Kept B K s (bindOp c d p s) := by
  unfold bindOp
  split
  · exact ⟨rfl, rfl, rfl, fun _ h => h, fun b => absurd b hB, fun _ => rfl⟩
  · exact kept_raiseFault _ s

theorem kept_regOp (o : RegOp) (s : State) (hB : B → o.isBind = false) (hK : K → o.isLatch = false) :
    Kept B K s (regOp o s) := by
  cases o with
  | bindPins c d p => exact kept_bindOp c d p s fun b => nomatch hB b
  | latchMask => exact ⟨rfl, rfl, rfl, fun _ h => h, fun _ => ⟨rfl, rfl, rfl⟩, fun k => nomatch hK k⟩
  | _ => exact .of_lasting rfl

theorem kept_regOps (pre : List RegOp) (s : State) (hB : B → pre.all (fun o => !o.isBind) = true)
    (hK : K → pre.all (fun o => !o.isLatch) = true) : Kept B K s (regOps pre s) := by
  simp only [List.all_eq_true, Bool.not_eq_true'] at hB hK
  induction pre generalizing s with
  | nil => exact .refl s
  | cons o pre ih =>
    exact (kept_regOp o s (fun b => hB b o List.mem_cons_self) (fun k => hK k o List.mem_cons_self)).trans
      (ih _ (fun b p hp => hB b p (List.mem_cons_of_mem _ hp)) (fun k p hp => hK k p (List.mem_cons_of_mem _ hp)))

theorem draw_btn (v : Env) : v.draw.2.btn = v.btn := by
  rw [draw_eq]
  rfl

/-- No event but `Mode` writes the binding; a refused event only raises its fault. -/
theorem kept_lineOp (o : LineOp) (s : State) (hB : B → o.isMode = false) : Kept B K s (lineOp o s) := by
  cases o with
  | mode p => exact ⟨rfl, rfl, rfl, fun _ h => h, fun b => (nomatch hB b), fun _ => rfl⟩
  | stb b => cases b <;> exact .of_lasting rfl
  | dioTx =>
    show Kept B K s (driveDio _ s)
    unfold driveDio
    split
    · exact .of_lasting rfl
    · exact kept_raiseFault _ s
  | sample =>
    show Kept B K s (sampleOp s)
    unfold sampleOp
    split
    · exact ⟨rfl, draw_btn s.env, rfl, fun _ h => h, fun _ => ⟨rfl, rfl, rfl⟩, fun _ => rfl⟩
    · exact kept_raiseFault _ s
  | _ => exact .of_lasting rfl

theorem kept_completed (k : Mark) (s : State) : Kept B K s (completed k s) := by
  unfold completed
  split <;> exact .of_lasting rfl

theorem kept_perform (m : Micro) (s : State) (hB : B → m.keepsBinding = true) (hK : K → m.keepsMask = true) :
    Kept B K s (perform m s) := by
  simp only [Micro.keepsBinding, Bool.and_eq_true, Bool.not_eq_true'] at hB
  have hpre : Kept B K s (regOps m.pre s) := kept_regOps m.pre s (fun b => (hB b).1) hK
  have hline : Kept B K s (lineOp m.op (regOps m.pre s)) := hpre.trans (kept_lineOp m.op _ fun b => (hB b).2)
  show Kept B K s (if (regOps m.pre s).stopped then regOps m.pre s
    else if (lineOp m.op (regOps m.pre s)).stopped then lineOp m.op (regOps m.pre s)
    else completed m.mark (lineOp m.op (regOps m.pre s)))
  split
  · exact hpre
  · split
    · exact hline
    · exact hline.trans (kept_completed _ _)

theorem kept_settle (s : State) : Kept B K s (settle s) := by
  cases h : s.device.rx with
  | none => rw [settle_of_noRx h]; exact .refl s
  | some v => rw [settle_of_rx h]; exact .of_lasting rfl

theorem kept_runMicros (ms : List Micro) (s : State) (hB : B → ms.all Micro.keepsBinding = true)
    (hK : K → ms.all Micro.keepsMask = true) : Kept B K s (runMicros ms s) := by
  induction ms generalizing s with
  | nil => exact .refl s
  | cons m ms ih =>
    simp only [List.all_cons, Bool.and_eq_true] at hB hK
    have hm : Kept B K s (settle (perform m s)) :=
      (kept_perform m s (fun b => (hB b).1) (fun k => (hK k).1)).trans (kept_settle _)
    rw [runMicros]
    split
    · exact hm
    · exact hm.trans (ih _ (fun b => (hB b).2) (fun k => (hK k).2))

theorem kept_envelope (r : Request) (s : State) : Kept B K s (envelope r s) := by
  rcases envelope_cases r s with ⟨f, -, he⟩ | ⟨o, -, -, he⟩
  · rw [he]; exact kept_raiseFault f s
  · rw [he]; exact .of_lasting rfl

/-! ### Instructions -/

theorem kept_runHostOp {o : HostOp} {s t : State} (h : runHostOp o s = .next t) (hB : B → o.isInit = false)
    (hK : K → o ≠ .readKeys) : Kept B K s t := by
  have henv : Kept B K s (envelope (.op o) s) := kept_envelope _ s
  unfold runHostOp at h
  split at h
  · cases h
  · cases h
    split
    · exact henv
    · exact henv.trans (kept_runMicros _ _ (fun b => opSeq_keepsBinding o (hB b)) (fun k => opSeq_keepsMask o (hK k)))

theorem kept_runTransport {ms : List Micro} {post : List RegOp} {s t : State} (h : runTransport ms post s = .next t)
    (hms : ms.all Micro.keepsBoth = true) (hpost : ∀ o ∈ post, o.isBind = false ∧ o.isLatch = false) : Kept B K s t := by
  obtain ⟨hbind, hmask⟩ := all_keepsBoth hms
  have hrun : Kept B K s (runMicros ms s) := kept_runMicros ms s (fun _ => hbind) (fun _ => hmask)
  unfold runTransport at h
  split at h
  · cases h
  · cases h
    split
    · exact hrun
    · exact hrun.trans (kept_regOps post _ (by simpa using fun _ o ho => (hpost o ho).1) (by simpa using fun _ o ho => (hpost o ho).2))

theorem kept_execWire {w : WireCmd} {s t : State} (h : execWire w s = .next t) : Kept B K s t := by
  cases (execWire_eq w s).symm.trans h
  exact .of_lasting rfl

/-- An instruction, by its layer: a host operation, a transport primitive, or a wire command. -/
theorem kept_exec {i : Instr} {s t : State} (h : exec i s = .next t) (hB : B → ∀ c d p, i ≠ .init c d p)
    (hK : K → i ≠ .readKeys) : Kept B K s t := by
  cases i with
  | init c d p => exact kept_runHostOp (o := .init c d p) h (fun b => absurd rfl (hB b c d p)) (by simp)
  | clear => exact kept_runHostOp (o := .clear) h (fun _ => rfl) (by simp)
  | setBrightness l => exact kept_runHostOp (o := .setBrightness l) h (fun _ => rfl) (by simp)
  | setLeds m => exact kept_runHostOp (o := .setLeds m) h (fun _ => rfl) (by simp)
  | readKeys => exact kept_runHostOp (o := .readKeys) h (fun _ => rfl) (fun k => absurd rfl (hK k))
  | showDigits x => exact kept_runHostOp (o := .showDigits x) h (fun _ => rfl) (by simp)
  | writeByte v => exact kept_runTransport (ms := writeByteSeq (.lit v)) h rfl (by simp)
  | readByte => exact kept_runTransport (ms := readByteSeq) h rfl (by simp [readByteEnd, RegOp.isBind, RegOp.isLatch])
  | transact bs => exact kept_runTransport h (keepsBoth_transactSeq _) (by simp)
  | dataWriteAutoinc => exact kept_execWire (w := .dataWriteAutoinc) h
  | readKeysCmd => exact kept_execWire (w := .readKeysCmd) h
  | displayOff => exact kept_execWire (w := .displayOff) h
  | displayOn b => exact kept_execWire (w := .displayOn b) h
  | setAddress n => exact kept_execWire (w := .setAddress n) h

end

/-! ### Steps -/

/-- The event of a tick keeps the parameters and the fault bits, whatever element it is. -/
theorem kept_tick {s t : State} (h : tick s = .next t) : Kept False False s t := by
  obtain ⟨m, rfl⟩ := tick_performs h
  exact kept_perform m s False.elim False.elim

/-- Taking the command at the port: the envelope of a state that differs in the port only. -/
theorem kept_accept (c : Command) (s : State) :
    Kept True True { s with host := { s.host with port := none } } (accept c s) := kept_envelope _ _

theorem faultSet_empty_has (c : FaultCode) : FaultSet.empty.has c = false := by
  cases c <;> rfl

/-! ### The statements -/

/-- Settles O10: of the five kinds of step only an act of the host can lose a fault bit, and that act is a power-on. -/
theorem faultBitsAreSticky : Obligations.FaultBitsAreSticky := by
  refine ⟨faultSet_empty_has, fun s t c h hc => ?_⟩
  cases step_outcome h with
  | device v _ => exact .inl hc
  | act a rest hdue =>
    rcases hostAct_cases a rest s with ⟨he, _⟩ | ⟨d, rfl, he, _⟩
    · exact .inl (by rw [he]; exact hc)
    · exact .inr ⟨d, rest, script_of_dueAct hdue, he⟩
  | accept cmd _ _ => exact .inl ((kept_accept cmd s).fault c hc)
  | tick _ _ _ _ ht => exact .inl ((kept_tick ht).fault c hc)
  | wait => exact .inl hc

/-- Settles O49: by the five kinds of step. -/
theorem noStepWritesParameters : Obligations.NoStepWritesParameters := by
  intro s t h
  cases step_outcome h with
  | device v _ => rfl
  | act a rest _ => exact hostAct_params a rest s
  | accept cmd _ _ => exact (kept_accept cmd s).params
  | tick _ _ _ _ ht => exact (kept_tick ht).params
  | wait => rfl

/-- Settles O48: what an instruction keeps, the binding under the premise that it is no INIT, KEYMASK under the premise that
it is not READ_KEYS. -/
theorem onlyInitBindsOnlyReadKeysWritesMask : Obligations.OnlyInitBindsOnlyReadKeysWritesMask := by
  intro i s t h
  obtain ⟨hparams, hbtn, hhost, -, hbinding, hmask⟩ :=
    kept_exec (B := ∀ c d p, i ≠ .init c d p) (K := i ≠ .readKeys) h id id
  exact ⟨hparams, hbtn, hhost, hbinding, hmask⟩

end Sys2Proof.Machine
end

section
/-! PROOF. The power-on state (spec 10_state.md R38), the segment table (R32) and the levels of the pins a rebinding
releases (R24, 70_reset_and_hazards.md R173). -/

namespace Sys2Proof.Machine

/-- Settles O9: State.reset and every power-on hold the power-on values of the engine and the Device. -/
theorem powerOnState : Obligations.PowerOnState := by
  intro s hs
  obtain ⟨he, hd⟩ : s.engine = Engine.reset ∧ s.device = Device.reset := by
    rcases hs with rfl | ⟨s0, rfl⟩
    · exact ⟨rfl, rfl⟩
    · exact ⟨powerOn_engine s0, powerOn_device s0⟩
  rw [he, hd]
  exact ⟨rfl, rfl, rfl, rfl, rfl, rfl, rfl, rfl, rfl, faultSet_empty_has, rfl, rfl, fun _ => rfl, rfl, rfl, rfl, rfl⟩

/-- Settles O50: an entry is seven bits, extended by a zero bit. -/
theorem segmentTableHasBit7Clear : Obligations.SegmentTableHasBit7Clear := by
  intro p d
  rw [Params.seg, BitVec.getLsbD_setWidth, BitVec.getLsbD_of_ge _ 7 (Nat.le_refl 7), Bool.and_false]

/-! ### Released pins, in any list -/

theorem mem_putLevel_self (p : PinId) (v : Level) (l : List (PinId × Level)) : (p, v) ∈ putLevel p v l := by
  induction l with
  | nil => exact List.mem_cons_self
  | cons e l ih =>
    rw [putLevel]
    split
    · exact List.mem_cons_self
    · split
      · exact List.mem_cons_self
      · exact List.mem_cons_of_mem _ ih

/-- Keeping the level of a pin leaves the entries of the other pins. -/
theorem mem_putLevel_of_ne {p : PinId} {v : Level} {e : PinId × Level} {l : List (PinId × Level)} (hne : e.1 ≠ p) (h : e ∈ l) :
    e ∈ putLevel p v l := by
  induction l with
  | nil => cases h
  | cons c l ih =>
    rw [putLevel]
    split
    · exact List.mem_cons_of_mem _ h
    · split
      · rename_i hpc
        rcases List.mem_cons.1 h with rfl | h
        · exact absurd hpc.symm hne
        · exact List.mem_cons_of_mem _ h
      · rcases List.mem_cons.1 h with rfl | h
        · exact List.mem_cons_self
        · exact List.mem_cons_of_mem _ (ih h)

theorem mem_releasePin_self {b : Pins} {p : PinId} (hb : b.has p = false) (v : Level) (l : List (PinId × Level)) :
    (p, v) ∈ releasePin b p v l := by
  rw [releasePin, hb, if_neg Bool.false_ne_true]
  exact mem_putLevel_self p v l

theorem mem_releasePin_of_ne (b : Pins) {p : PinId} (v : Level) {e : PinId × Level} {l : List (PinId × Level)} (hne : e.1 ≠ p)
    (h : e ∈ l) : e ∈ releasePin b p v l := by
  unfold releasePin
  split
  · exact h
  · exact mem_putLevel_of_ne hne h

theorem mem_dropLevel (p : PinId) (e : PinId × Level) (l : List (PinId × Level)) : e ∈ dropLevel p l ↔ e ∈ l ∧ e.1 ≠ p := by
  simp [dropLevel]

/-- No pin of the new binding is released. -/
theorem not_bound_of_mem_releasedAfter {e : Engine} {b : Pins} {x : PinId × Level} (h : x ∈ releasedAfter e b) :
    x.1 ≠ b.clk ∧ x.1 ≠ b.dio ∧ x.1 ≠ b.stb := by
  simp only [releasedAfter, mem_dropLevel] at h
  obtain ⟨⟨⟨_, hstb⟩, hdio⟩, hclk⟩ := h
  exact ⟨hclk, hdio, hstb⟩

/-- The three pins of the old binding with the levels of their lines. -/
def Engine.lineLevels (e : Engine) (b : Pins) : List (PinId × Level) := [(b.clk, e.clk), (b.dio, e.dio), (b.stb, e.stb)]

/-- A pin of the old binding that is not bound again keeps the level of its line, whatever was listed before: the three pins
being distinct, none takes the place of another. -/
theorem mem_releasedAfter_of_old {e : Engine} {old b : Pins} (hold : e.bind = some old) (h1 : old.clk ≠ old.dio)
    (h2 : old.dio ≠ old.stb) (h3 : old.clk ≠ old.stb) {x : PinId × Level} (hx : x ∈ e.lineLevels old) (hclk : x.1 ≠ b.clk)
    (hdio : x.1 ≠ b.dio) (hstb : x.1 ≠ b.stb) : x ∈ releasedAfter e b := by
  have hfree : b.has x.1 = false := by simp [Pins.has, hclk, hdio, hstb]
  simp only [releasedAfter, hold, mem_dropLevel]
  refine ⟨⟨⟨?_, hstb⟩, hdio⟩, hclk⟩
  simp only [Engine.lineLevels, List.mem_cons, List.not_mem_nil, or_false] at hx
  rcases hx with rfl | rfl | rfl
  · exact mem_releasePin_self hfree _ _
  · exact mem_releasePin_of_ne b _ h1.symm (mem_releasePin_self hfree _ _)
  · exact mem_releasePin_of_ne b _ h3.symm (mem_releasePin_of_ne b _ h2.symm (mem_releasePin_self hfree _ _))

theorem transactedAll_released (s : State) (fs : List (List Byte)) :
    (s.transactedAll fs).engine.released = s.engine.released := by
  induction fs generalizing s with
  | nil => rfl
  | cons vs fs ih => exact ih _

/-- The released pins after an INIT that completes. -/
theorem execInit_released {s : State} {c d t : PinId} (h : Accepts s (.init c d t)) :
    ∃ u, exec (.init c d t) s = .next u ∧ u.engine.released = releasedAfter s.engine { clk := c, dio := d, stb := t } :=
  ⟨_, runHostOp_init h, transactedAll_released _ _⟩

/-- Settles O34: each old pin not bound again is put in the list with its level, and the bound pins are taken out of it last. -/
theorem rebindingKeepsOldPinLevels : Obligations.RebindingKeepsOldPinLevels := by
  intro s old c d t h hold h1 h2 h3
  obtain ⟨u, hu, hrel⟩ := execInit_released h
  refine ⟨u, hu, fun p l hp hc hd ht => ?_, fun e he => ?_⟩
  · rw [hrel]
    exact mem_releasedAfter_of_old hold h1 h2 h3 (by simpa [Engine.lineLevels] using hp) hc hd ht
  · exact not_bound_of_mem_releasedAfter (hrel ▸ he)

end Sys2Proof.Machine
end

section
/-! PROOF. The order of the bits on the data line (spec 20_memory.md R50) and of the bytes of a key reply (R52,
41_command_layer.md R108, R110). -/

namespace Sys2Proof.Machine

/-! ### Bits of a byte -/

/-- Bit `j` of reply byte `i` is the answer to the `j`-th sample of that byte (R50). -/
theorem reply_getLsbD (v : Env) (i : Nat) {j : Nat} (hj : j < 8) : (v.reply i).getLsbD j = v.answer (8 * i + j) :=
  byteOf_getLsbD _ j hj

/-- The result of READ_BYTE stands in RXB (40_bit_transport.md R91). -/
theorem readOne_rxb (s : State) : s.readOne.engine.regs.rxb = s.env.reply 0 := rfl

/-- Settles O19: the byte sent is driven bit by bit from bit 0, and READ_BYTE assembles its answers from bit 0. -/
theorem bytesTravelLeastSignificantBitFirst : Obligations.BytesTravelLeastSignificantBitFirst := by
  refine ⟨fun s v hs hd hr => ⟨_, execWriteByte_of_out v hs hd hr, rfl⟩, fun s hs hd hr => ?_⟩
  refine ⟨s.readOne, (List.range 8).map s.env.answer, execReadByte_of_inp hs hd hr, by simp, rfl, fun i b hb => ?_⟩
  obtain ⟨hi, rfl⟩ : i < 8 ∧ s.env.answer i = b := by simpa [List.getElem?_eq_some_iff] using hb
  rw [readOne_rxb, reply_getLsbD s.env 0 hi, Nat.mul_zero, Nat.zero_add]

/-! ### The bits sampled by a list of events -/

/-- The bit of a `Sample` event. -/
def Event.bit? : Event → Option Bool
  | .sample b => some b
  | .issue _ | .mode _ | .clk _ | .stb _ | .dio _ | .dirIn | .dirOut | .wait | .done _ => none

/-- The bits sampled, in order. -/
def sampledBits (evs : List Event) : List Bool := evs.filterMap Event.bit?

@[simp] theorem sampledBits_nil : sampledBits [] = [] := rfl

@[simp] theorem sampledBits_cons (e : Event) (evs : List Event) :
    sampledBits (e :: evs) = e.bit?.toList ++ sampledBits evs := by
  cases h : e.bit? <;> simp [sampledBits, h]

@[simp] theorem sampledBits_append (a b : List Event) : sampledBits (a ++ b) = sampledBits a ++ sampledBits b :=
  List.filterMap_append

@[simp] theorem sampledBits_flatMap {α : Type} (l : List α) (f : α → List Event) :
    sampledBits (l.flatMap f) = l.flatMap fun x => sampledBits (f x) := List.filterMap_flatMap

@[simp] theorem sampledBits_writeByteEvents (v : Byte) : sampledBits (writeByteEvents v) = [] := by
  simp [writeByteEvents, writeBitEvents, Event.bit?]

@[simp] theorem sampledBits_transactEvents (bs : List Byte) : sampledBits (transactEvents bs) = [] := by
  simp [transactEvents, Event.bit?]

@[simp] theorem sampledBits_readByteEvents (bs : List Bool) : sampledBits (readByteEvents bs) = bs := by
  simp [readByteEvents, readBitEvents, Event.bit?]

/-- The key-read frame samples the 32 answers in order. -/
theorem sampledBits_keyFrameEvents (ans : Nat → Bool) :
    sampledBits (keyFrameEvents ans) = (List.range 4).flatMap fun i => (List.range 8).map fun j => ans (8 * i + j) := by
  simp [keyFrameEvents, Event.bit?]

/-! ### The key mask -/

/-- KACC after the combination of the reply bytes (41_command_layer.md R110). -/
def keyAcc (R : Nat → Byte) : BitVec 11 := 0 ||| keyTerm (R 0) 0 ||| keyTerm (R 1) 1 ||| keyTerm (R 2) 2 ||| keyTerm (R 3) 3

/-- KEYMASK of the reply bytes (R110). -/
def keyMask (R : Nat → Byte) : Byte := (keyAcc R).extractLsb' 0 8

theorem keyTerm_getLsbD (v : Byte) (i : Nat) {b : Nat} (hb : b < 8) :
    (keyTerm v i).getLsbD b = (decide (i ≤ b) && v.getLsbD (b - i)) := by
  have h1 : b < 11 := by omega
  by_cases h : i ≤ b
  · simp [keyTerm, h, h1, Nat.not_lt.2 h]
  · simp [keyTerm, h, h1, Nat.lt_of_not_le h]

/-- Bit `b` of the mask is the OR of bit `b - i` of reply byte `i`: each byte is placed shifted left by its number. -/
theorem keyMask_getLsbD (R : Nat → Byte) {b : Nat} (hb : b < 8) :
    (keyMask R).getLsbD b = (List.range 4).any fun i => decide (i ≤ b) && (R i).getLsbD (b - i) := by
  simp only [keyMask, keyAcc, BitVec.getLsbD_extractLsb', BitVec.getLsbD_or, Nat.zero_add, keyTerm_getLsbD _ _ hb]
  simp [hb, List.range_succ, Bool.or_assoc]

/-! ### READ_KEYS -/

/-- The combination of the reply bytes writes KACC and KEYMASK and nothing else (R110). -/
theorem regOps_keyCombination (s : State) :
    regOps ([.clearAcc] ++ (List.finRange 4).map .accKb ++ [.latchMask]) s.keysRead =
      { s.keysRead with engine := { s.keysRead.engine with
          regs := { s.keysRead.engine.regs with kacc := keyAcc s.env.reply }
          keymask := some (keyMask s.env.reply) } } := rfl

/-- READ_KEYS that is accepted: its events, its two frames, the mask of its reply (R105 to R110). -/
theorem exec_readKeys {s : State} (h : Accepts s .readKeys) :
    ∃ t, exec .readKeys s = .next t ∧
      t.engine.trace = s.engine.trace ++ ([.issue .readKeys] ++ transactEvents [0xC0#8] ++ keyFrameEvents s.env.answer ++
        [.done (some (keyMask s.env.reply))]) ∧
      t.engine.frames = s.engine.frames ++ [sentFrame [0xC0#8], keyFrame s.env.reply] ∧
      t.engine.keymask = some (keyMask s.env.reply) := by
  have hk := runHostOp_keys h
  rw [regOps_keyCombination] at hk
  exact ⟨_, hk, by simp [doneResult, State.keysRead, State.transacted], by simp [State.keysRead, State.transacted, sentFrame], rfl⟩

/-- Settles O54: the reply bytes are the answers taken eight at a time; the read frame and the mask are made of them. -/
theorem keyReplyBytesArriveInOrder : Obligations.KeyReplyBytesArriveInOrder := by
  intro s h
  obtain ⟨t, ht, htrace, hframes, hmask⟩ := exec_readKeys h
  refine ⟨t, s.env.reply, keyMask s.env.reply, ht, ?_, by rw [hframes, List.getLast?_append]; rfl, hmask, fun b => keyMask_getLsbD _⟩
  have hbits : sampledBits (t.engine.trace.drop s.engine.trace.length) =
      (List.range 4).flatMap fun i => (List.range 8).map fun j => s.env.answer (8 * i + j) := by
    rw [htrace, List.drop_left]
    simp [sampledBits_keyFrameEvents, Event.bit?]
  refine (List.filterMap_congr fun e _ => show _ = e.bit? by cases e <;> rfl).trans ?_
  refine Eq.trans hbits (List.flatMap_congr fun i _ => List.map_congr_left fun j hj => ?_)
  exact (reply_getLsbD s.env i (List.mem_range.1 hj)).symm

end Sys2Proof.Machine
end

section
/-! PROOF. Display memory is overwrite-only (spec 20_memory.md R57): what frames sent a second time leave at the Device, and
the operations that only send frames. -/

namespace Sys2Proof.Machine

/-! ### Several writes to display memory -/

/-- Writes at addresses of display memory, one after the other. -/
def Memory.writeAll (m : Memory) (qs : List (BitVec 4 × Byte)) : Memory := qs.foldl (fun m q => m.write q.1.toNat q.2) m

/-- The value of the last write at an address, if there is one. -/
def lastWritten (qs : List (BitVec 4 × Byte)) (a : Nat) : Option Byte :=
  qs.foldl (fun r q => if a = q.1.toNat then some q.2 else r) none

theorem Memory.wf_writeAll (m : Memory) (qs : List (BitVec 4 × Byte)) (hm : m.wf = true) : (m.writeAll qs).wf = true := by
  induction qs generalizing m with
  | nil => exact hm
  | cons q qs ih => exact ih _ (Memory.wf_write m q.1 q.2 hm)

theorem foldl_lastWritten (qs : List (BitVec 4 × Byte)) (a : Nat) (r : Option Byte) :
    qs.foldl (fun r q => if a = q.1.toNat then some q.2 else r) r = (lastWritten qs a).or r := by
  induction qs using List.reverseRecOn with
  | nil => rfl
  | append_singleton qs q ih =>
    simp only [lastWritten, List.foldl_append, List.foldl_cons, List.foldl_nil] at ih ⊢
    split
    · rfl
    · exact ih

/-- An address reads the last write to it, or as before. -/
theorem Memory.read_writeAll (m : Memory) (qs : List (BitVec 4 × Byte)) (a : Nat) :
    (m.writeAll qs).read a = (lastWritten qs a).or (m.read a) := by
  rw [← foldl_lastWritten]
  induction qs generalizing m with
  | nil => rfl
  | cons q qs ih =>
    have hq := ih (m.write q.1.toNat q.2)
    rw [Memory.read_write] at hq
    exact hq

/-- The same writes again change nothing. -/
theorem Memory.writeAll_writeAll (m : Memory) (qs : List (BitVec 4 × Byte)) (hm : m.wf = true) :
    (m.writeAll qs).writeAll qs = m.writeAll qs := by
  have h1 := Memory.wf_writeAll m qs hm
  refine Memory.ext_read _ _ 0 (Memory.wf_writeAll _ qs h1) h1 fun a => ?_
  rw [Memory.read_writeAll (m.writeAll qs), Memory.read_writeAll]
  cases lastWritten qs a <;> rfl

/-! ### Several frames at the Device -/

/-- The Device after a list of frames. -/
def Device.framesSent (t : Bool) (fs : List (List Byte)) (d : Device) : Device := fs.foldl (fun d vs => d.frameSent t vs) d

/-- Without TimingMet the Device is UNKNOWN after a list of frames that is not empty (42_wire_commands.md R130). -/
theorem framesSent_false (vs : List Byte) (fs : List (List Byte)) (d : Device) :
    d.framesSent false (vs :: fs) = { d.forget with frame := none } := by
  induction fs generalizing vs d with
  | nil => exact frameSent_false vs d
  | cons ws fs ih =>
    rw [Device.framesSent, List.foldl_cons, frameSent_false]
    exact ih ws _

/-- The frame F4 that writes a byte at an address (30_encoding.md R78). -/
def writeFrame (q : BitVec 4 × Byte) : List Byte := [encodeWire (.setAddress q.1), q.2]

/-- The display address after a list of such frames. -/
def addrAfter (qs : List (BitVec 4 × Byte)) (a : Option (BitVec 4)) : Option (BitVec 4) :=
  qs.foldl (fun _ q => nextAddr q.1) a

theorem addrAfter_addrAfter (qs : List (BitVec 4 × Byte)) (a : Option (BitVec 4)) :
    addrAfter qs (addrAfter qs a) = addrAfter qs a := by
  cases qs with
  | nil => rfl
  | cons q qs => rfl

/-- Frames F4 in write mode: the writes, in order (R133, R134). -/
theorem framesSent_writes (qs : List (BitVec 4 × Byte)) (d : Device) (hm : d.dmode = .writeAutoinc) (hf : d.frame = none) :
    d.framesSent true (qs.map writeFrame) = { d with disp := d.disp.writeAll qs, daddr := addrAfter qs d.daddr } := by
  induction qs generalizing d with
  | nil => rfl
  | cons q qs ih =>
    have hq : d.frameSent true (writeFrame q) = { d with disp := d.disp.write q.1.toNat q.2, daddr := nextAddr q.1 } := by
      rw [writeFrame, frameSent_pair q.1 q.2 d hm, ← hf]
    rw [List.map_cons, Device.framesSent, List.foldl_cons, hq]
    exact ih _ hm hf

/-- The mode frame F1, then frames F4. -/
theorem framesSent_mode_writes (qs : List (BitVec 4 × Byte)) (d : Device) :
    d.framesSent true ([0x40#8] :: qs.map writeFrame) =
      { d with disp := d.disp.writeAll qs, dmode := .writeAutoinc, daddr := addrAfter qs d.daddr, frame := none } := by
  rw [Device.framesSent, List.foldl_cons, frameSent_mode]
  exact framesSent_writes qs _ rfl rfl

/-- A zero at each of the sixteen addresses. -/
def zeroWrites : List (BitVec 4 × Byte) := (List.range 16).map fun a => (BitVec.ofNat 4 a, 0x00#8)

/-- The frames F1 and F5 of `clear` (41_command_layer.md R102). -/
theorem framesSent_clear (d : Device) :
    d.framesSent true [[0x40#8], zeroBytes] =
      { d with disp := d.disp.writeAll zeroWrites, dmode := .writeAutoinc, daddr := none, frame := none } := by
  rw [Device.framesSent, List.foldl_cons, frameSent_mode, List.foldl_cons, zeroBytes, frameSent_full _ rfl]
  rfl

/-! ### The frames of an operation -/

/-- The address bytes of 30_encoding.md R77 are SET_ADDRESS commands of places in display memory. -/
theorem digitAddr_eq_setAddress : ∀ p < 8, digitAddr p = encodeWire (.setAddress (BitVec.ofNat 4 (2 * p))) := by decide

theorem ledAddr_eq_setAddress : ∀ i < 8, ledAddr i = encodeWire (.setAddress (BitVec.ofNat 4 (2 * i + 1))) := by decide

theorem pairBytes_eq_writeFrame {q : Nat × Byte} (hq : q.1 < 8) : pairBytes q = writeFrame (BitVec.ofNat 4 (2 * q.1), q.2) := by
  rw [writeFrame, ← digitAddr_eq_setAddress _ hq]
  rfl

theorem ledBytes_eq_writeFrame (m : Byte) {i : Nat} (hi : i < 8) :
    ledBytes m i = writeFrame (BitVec.ofNat 4 (2 * i + 1), ledByte m i) := by
  rw [ledBytes_eq, ledAddr_eq_setAddress _ hi]
  rfl

/-- `showDigits` places at positions 0 to 7 only (41_command_layer.md R112, R114). -/
theorem showPairs_lt (seg : Fin 10 → Byte) (text : List Byte) (pos : Nat) (last : Byte) :
    ∀ q ∈ showPairs seg text pos last, q.1 < 8 := by
  induction text generalizing pos last with
  | nil => simp [showPairs]
  | cons c cs ih =>
    have placed : ∀ (p : Nat) (v : Byte) (pos' : Nat), p < 8 → ∀ q ∈ (p, v) :: showPairs seg cs pos' v, q.1 < 8 := by
      intro p v pos' hp q hq
      rcases List.mem_cons.1 hq with rfl | hq
      · exact hp
      · exact ih pos' v q hq
    rw [showPairs]
    split
    · simp
    · have hpos : pos < 8 := by omega
      split
      · exact placed _ _ _ hpos
      · split
        · exact placed _ _ _ hpos
        · split
          · exact placed _ _ _ (by omega)
          · exact ih _ _

/-- `setDiscreteLEDs` sends the mode frame, then writes (R104). -/
theorem framesOf_leds (p : Params) (m : Byte) :
    framesOf p (.setLeds m) =
      [0x40#8] :: ((List.range 8).map fun i => (BitVec.ofNat 4 (2 * i + 1), ledByte m i)).map writeFrame := by
  rw [framesOf, List.map_map]
  exact congrArg _ (List.map_congr_left fun i hi => ledBytes_eq_writeFrame m (List.mem_range.1 hi))

/-- `showDigits` sends the mode frame, then writes (R112 to R117). -/
theorem framesOf_show (p : Params) (x : List Byte) :
    framesOf p (.showDigits x) =
      [0x40#8] :: ((textPairs p x).map fun q => (BitVec.ofNat 4 (2 * q.1), q.2)).map writeFrame := by
  rw [framesOf, List.map_map]
  exact congrArg _ (List.map_congr_left fun q hq => pairBytes_eq_writeFrame (showPairs_lt _ _ _ _ q hq))

/-- The byte of `setBrightness` is a display-control command (41_command_layer.md R103). -/
theorem brightnessByte_cases (l : Byte) :
    brightnessByte l = encodeWire .displayOff ∨ ∃ b, brightnessByte l = encodeWire (.displayOn b) := by
  unfold brightnessByte
  dsimp only
  split
  · exact .inl rfl
  · exact .inr ⟨_, rfl⟩

theorem framesOf_ne_nil (p : Params) (o : HostOp) : ∃ vs fs, framesOf p o = vs :: fs := by
  cases o <;> exact ⟨_, _, rfl⟩

/-- The mode frame and writes, sent again, leave the same Device. -/
theorem framesSent_twice_of_writes (qs : List (BitVec 4 × Byte)) (d : Device) (hm : Memory.wf d.disp = true) :
    (d.framesSent true ([0x40#8] :: qs.map writeFrame)).framesSent true ([0x40#8] :: qs.map writeFrame) =
      d.framesSent true ([0x40#8] :: qs.map writeFrame) := by
  simp only [framesSent_mode_writes, Memory.writeAll_writeAll _ qs hm, addrAfter_addrAfter]

/-- The frames of an operation, sent again, leave the same Device (20_memory.md R57). -/
theorem framesSent_twice (t : Bool) (p : Params) (o : HostOp) (d : Device) (hm : Memory.wf d.disp = true) :
    (d.framesSent t (framesOf p o)).framesSent t (framesOf p o) = d.framesSent t (framesOf p o) := by
  cases t with
  | false =>
    obtain ⟨vs, fs, hfs⟩ := framesOf_ne_nil p o
    simp only [hfs, framesSent_false]
    rfl
  | true =>
    cases o with
    | init _ _ _ | clear => simp only [framesOf, framesSent_clear, Memory.writeAll_writeAll _ zeroWrites hm]
    | setBrightness l =>
      rcases brightnessByte_cases l with h | ⟨b, h⟩
      · rw [framesOf, h]; rfl
      · simp only [framesOf, h, Device.framesSent, List.foldl_cons, List.foldl_nil, frameSent_on]
    | setLeds m => rw [framesOf_leds]; exact framesSent_twice_of_writes _ d hm
    | readKeys => rfl
    | showDigits x => rw [framesOf_show]; exact framesSent_twice_of_writes _ d hm

/-! ### The operations that only send frames -/

/-- The operations but INIT and READ_KEYS: they send frames and end. -/
def onlySends : HostOp → Bool
  | .clear | .setBrightness _ | .setLeds _ | .showDigits _ => true
  | .init _ _ _ | .readKeys => false

/-- The state such an operation leaves. -/
def State.sentFrames (s : State) (o : HostOp) : State := finish ((issueOp o s).transactedAll (framesOf s.params o))

theorem exec_onlySends {s : State} {o : HostOp} (h : Accepts s o) (ho : onlySends o = true) :
    exec o.instr s = .next (s.sentFrames o) := by
  cases o with
  | init c d t => cases ho
  | clear => exact runHostOp_clear h
  | setBrightness l => exact runHostOp_brightness h
  | setLeds m => exact runHostOp_leds h
  | readKeys => cases ho
  | showDigits x => exact runHostOp_show h

theorem transactedAll_params (s : State) (fs : List (List Byte)) : (s.transactedAll fs).params = s.params := by
  induction fs generalizing s with
  | nil => rfl
  | cons vs fs ih => exact ih _

theorem sentFrames_params (s : State) (o : HostOp) : (s.sentFrames o).params = s.params := transactedAll_params _ _

theorem sentFrames_device (s : State) (o : HostOp) :
    (s.sentFrames o).device = s.device.framesSent s.params.timingMet (framesOf s.params o) := transactedAll_device _ _

theorem sentFrames_frames (s : State) (o : HostOp) :
    (s.sentFrames o).engine.frames = s.engine.frames ++ (framesOf s.params o).map sentFrame := by
  obtain ⟨vs, fs, hfs⟩ := framesOf_ne_nil s.params o
  rw [State.sentFrames, finish_engine, hfs, transactedAll_engine]
  rfl

theorem frameCloses_frame (t : Bool) (d : Device) : (d.frameCloses t).frame = none := by
  unfold Device.frameCloses
  split
  · assumption
  · split <;> rfl

theorem framesSent_frame (t : Bool) (fs : List (List Byte)) (d : Device) (hf : d.frame = none) :
    (d.framesSent t fs).frame = none := by
  induction fs generalizing d with
  | nil => exact hf
  | cons vs fs ih => exact ih _ (frameCloses_frame t _)

/-- After such an operation the same one is accepted again. -/
theorem accepts_sentFrames {s : State} {o : HostOp} (h : Accepts s o) : Accepts (s.sentFrames o) o := by
  obtain ⟨vs, fs, hfs⟩ := framesOf_ne_nil s.params o
  have he : (s.sentFrames o).engine = (finish ((issueOp o s).transactedAll (vs :: fs))).engine := by
    rw [State.sentFrames, hfs]
  rw [finish_engine, transactedAll_engine] at he
  exact {
    safe := by rw [Safe, State.stopped, he]; exact h.safe
    idle := by rw [he]
    dirOut := by rw [he]; exact h.dirOut
    noRx := (transactedAll_rx _ _).trans h.noRx
    noFrame := by rw [he]
    noDeviceFrame := by rw [sentFrames_device]; exact framesSent_frame _ _ _ h.noDeviceFrame
    bound := fun hi => by rw [he]; exact h.bound hi
    pins := fun c d t ho => by rw [sentFrames_params]; exact h.pins c d t ho }

/-- Settles O47: the operation sends the frames of its operand, and these leave the same Device the second time. -/
theorem repeatedOperationIsIdempotent : Obligations.RepeatedOperationIsIdempotent := by
  intro s o h hm ho
  have hsends : onlySends o = true := by
    rcases ho with rfl | ⟨l, rfl⟩ | ⟨m, rfl⟩ | ⟨x, rfl⟩ <;> rfl
  refine ⟨s.sentFrames o, (s.sentFrames o).sentFrames o, (framesOf s.params o).map sentFrame, exec_onlySends h hsends,
    exec_onlySends (accepts_sentFrames h) hsends, sentFrames_frames s o, ?_, ?_⟩
  · rw [sentFrames_frames, sentFrames_params]
  · rw [sentFrames_device, sentFrames_params, sentFrames_device]
    exact framesSent_twice _ _ _ _ hm

end Sys2Proof.Machine
end

section
/-! PROOF. The two encodings (spec 30_encoding.md R70 to R75): each is read back, and a byte that is read is the one encoded. -/

namespace Sys2Proof

/-! ### Wire command bytes -/

theorem decodeWire_encodeWire (w : WireCmd) : decodeWire (encodeWire w) = some w := by
  cases w with
  | dataWriteAutoinc | readKeysCmd | displayOff => rfl
  | displayOn b => exact Machine.decodeWire_displayOn b
  | setAddress n => exact Machine.decodeWire_setAddress n

/-- A byte is its fixed bits and its operand bits, for the mask of each of the two forms with an operand (R74, R75). -/
theorem masked_or_low3 (v : Byte) : (v &&& 0xF8#8) ||| (v.extractLsb' 0 3).zeroExtend 8 = v := by
  revert v; decide

theorem masked_or_low4 (v : Byte) : (v &&& 0xF0#8) ||| (v.extractLsb' 0 4).zeroExtend 8 = v := by
  revert v; decide

/-- A byte that is a wire command is that command's own byte: the match bits are checked, the rest is the operand. -/
theorem encodeWire_of_decodeWire {v : Byte} {w : WireCmd} (h : decodeWire v = some w) : encodeWire w = v := by
  unfold decodeWire at h
  split at h
  next hv => cases h; exact hv.symm
  split at h
  next hv => cases h; exact hv.symm
  split at h
  next hv => cases h; exact hv.symm
  split at h
  next hv => cases h; rw [encodeWire, ← hv]; exact masked_or_low3 v
  split at h
  next hv => cases h; rw [encodeWire, ← hv]; exact masked_or_low4 v
  cases h

theorem decode_wire_eq_ok {v : Byte} {i : Instr} : decode (.wire v) = .ok i ↔ ∃ w, decodeWire v = some w ∧ w.instr = i := by
  rw [decode]
  cases decodeWire v <;> simp

/-! ### Commands at the port -/

theorem decodePort_encodePort (o : HostOp) : decodePort (encodePort o) = .ok o := by
  cases o <;> rfl

/-- Tags 0b110 and 0b111 do not decode (R72). -/
theorem decodePort_reserved {c : Command} (h : c.tag = 0b110#3 ∨ c.tag = 0b111#3) :
    decodePort c = .error (.reservedTag c.tag) := by
  rcases h with h | h <;> simp [decodePort, h]

/-! ### Instructions -/

@[simp] theorem encode_hostOp (o : HostOp) : encode o.instr = some (.port (encodePort o)) := by
  cases o <;> rfl

@[simp] theorem encode_wireCmd (w : WireCmd) : encode w.instr = some (.wire (encodeWire w)) := by
  cases w <;> rfl

open Laws.Encodable (isTransport)

/-- The family `Encodable`, of every instruction. -/
theorem encode_isSome (i : Instr) : (encode i).isSome = !isTransport i := by
  cases i with
  | init c d t => exact Laws.Encodable.init c d t
  | clear => exact Laws.Encodable.clear
  | setBrightness l => exact Laws.Encodable.setBrightness l
  | setLeds m => exact Laws.Encodable.setLeds m
  | readKeys => exact Laws.Encodable.readKeys
  | showDigits t => exact Laws.Encodable.showDigits t
  | writeByte v => exact Laws.Encodable.writeByte v
  | readByte => exact Laws.Encodable.readByte
  | transact bs => exact Laws.Encodable.transact bs
  | dataWriteAutoinc => exact Laws.Encodable.dataWriteAutoinc
  | readKeysCmd => exact Laws.Encodable.readKeysCmd
  | displayOff => exact Laws.Encodable.displayOff
  | displayOn b => exact Laws.Encodable.displayOn b
  | setAddress n => exact Laws.Encodable.setAddress n

theorem encode_eq_none_iff {i : Instr} : encode i = none ↔ isTransport i = true := by
  rw [← Option.isSome_eq_false_iff.trans Option.isNone_iff_eq_none, encode_isSome, Bool.not_eq_false']

theorem isTransport_iff {i : Instr} :
    isTransport i = true ↔ (∃ v, i = .writeByte v) ∨ i = .readByte ∨ ∃ bs, i = .transact bs := by
  cases i <;> simp [isTransport]

/-- The three kinds of rows of the opcode table (R70, R73). -/
theorem hostOp_or_wireCmd_or_transport (i : Instr) :
    (∃ o : HostOp, i = o.instr) ∨ (∃ w : WireCmd, i = w.instr) ∨ isTransport i = true := by
  cases i with
  | init c d t => exact .inl ⟨.init c d t, rfl⟩
  | clear => exact .inl ⟨.clear, rfl⟩
  | setBrightness l => exact .inl ⟨.setBrightness l, rfl⟩
  | setLeds m => exact .inl ⟨.setLeds m, rfl⟩
  | readKeys => exact .inl ⟨.readKeys, rfl⟩
  | showDigits t => exact .inl ⟨.showDigits t, rfl⟩
  | writeByte _ | readByte | transact _ => exact .inr (.inr rfl)
  | dataWriteAutoinc => exact .inr (.inl ⟨.dataWriteAutoinc, rfl⟩)
  | readKeysCmd => exact .inr (.inl ⟨.readKeysCmd, rfl⟩)
  | displayOff => exact .inr (.inl ⟨.displayOff, rfl⟩)
  | displayOn b => exact .inr (.inl ⟨.displayOn b, rfl⟩)
  | setAddress n => exact .inr (.inl ⟨.setAddress n, rfl⟩)

/-- An instruction is read back from its encoding. -/
theorem decode_of_encode {i : Instr} {c : Code} (h : encode i = some c) : decode c = .ok i := by
  rcases hostOp_or_wireCmd_or_transport i with ⟨o, rfl⟩ | ⟨w, rfl⟩ | ht
  · rw [encode_hostOp] at h
    cases h
    rw [decode, decodePort_encodePort]
    rfl
  · rw [encode_wireCmd] at h
    cases h
    exact decode_wire_eq_ok.2 ⟨w, decodeWire_encodeWire w, rfl⟩
  · rw [encode_eq_none_iff.2 ht] at h
    cases h

/-- A byte that is read as an instruction is the encoding of that instruction. -/
theorem encode_of_decode_wire {v : Byte} {i : Instr} (h : decode (.wire v) = .ok i) : encode i = some (.wire v) := by
  obtain ⟨w, hw, rfl⟩ := decode_wire_eq_ok.1 h
  rw [encode_wireCmd, encodeWire_of_decodeWire hw]

/-- Settles O1: the round trip of each encoding, the converse for bytes, and the instructions without an encoding. -/
theorem decodeOfEncodeIsTheInstruction : Obligations.DecodeOfEncodeIsTheInstruction :=
  ⟨fun _ _ => decode_of_encode, fun _ _ => encode_of_decode_wire, fun _ => encode_eq_none_iff.trans isTransport_iff⟩

/-- Settles O2: each word is the encoding of its instruction, so it is read back. -/
theorem writtenWordsDecode : Obligations.WrittenWordsDecode := by
  refine ⟨?_, ?_, ?_, ?_, ?_, ?_, ?_, ?_, ?_, ?_, ?_⟩ <;> exact decode_of_encode rfl

end Sys2Proof
end

section
/-! PROOF. A command at the port of an idle engine (spec 30_encoding.md R72, 60_exceptions.md R155, R156). -/

namespace Sys2Proof.Machine

/-- With no byte at the Device, an engine that no fault has stopped takes the command at its port (log 4). -/
theorem step_takes_command {s : State} {c : Command} (hs : Safe s) (hrx : s.device.rx = none) (hport : s.host.port = some c) :
    step s = .next (accept c s) := by
  rw [step, hrx]
  show agentStep s = _
  rw [agentStep, hs, if_neg Bool.false_ne_true, hport]

theorem request_reserved {c : Command} (h : c.tag = 0b110#3 ∨ c.tag = 0b111#3) : Command.request c = .reserved c.tag := by
  rw [Command.request, decodePort_reserved h]

/-- The envelope of an idle engine raises RESERVED_OP before it looks at the binding (R156). -/
theorem envelope_reserved {s : State} (hb : s.engine.busy = false) (tag : BitVec 3) :
    envelope (.reserved tag) s = raiseFault (.reservedOp tag) s := by
  rw [envelope, hb, if_neg Bool.false_ne_true]

/-- Settles O17: the engine takes the command, whose tag does not decode, and the envelope raises the fault. -/
theorem reservedTagRaisesReservedOp : Obligations.ReservedTagRaisesReservedOp := by
  intro s c hs hrx hb hport htag
  rw [step_takes_command hs hrx hport, accept, request_reserved htag,
    envelope_reserved (s := { s with host := { s.host with port := none } }) hb]
  rfl

end Sys2Proof.Machine
end

section
/-! PROOF. The frames that operations send (spec 30_encoding.md R78): which ones, and that each has one of the six shapes. -/

namespace Sys2Proof.Machine

/-! ### Shapes -/

theorem encodeWire_displayOn_eq_add (b : BitVec 3) : encodeWire (.displayOn b) = 0x88#8 + b.zeroExtend 8 := by
  revert b; decide

theorem encodeWire_setAddress_eq_add (n : BitVec 4) : encodeWire (.setAddress n) = 0xC0#8 + n.zeroExtend 8 := by
  revert n; decide

theorem frameShape_brightness (l : Byte) : FrameShape (sentFrame [brightnessByte l]) := by
  rcases brightnessByte_cases l with h | ⟨b, h⟩
  · rw [h]; exact .displayOff
  · rw [h, encodeWire_displayOn_eq_add]; exact .displayOn b

theorem frameShape_write (q : BitVec 4 × Byte) : FrameShape (sentFrame (writeFrame q)) := by
  rw [writeFrame, encodeWire_setAddress_eq_add]
  exact .singleWrite q.1 q.2

/-- The mode frame F1 and frames F4. -/
theorem frameShape_mode_writes (qs : List (BitVec 4 × Byte)) :
    ∀ vs ∈ [0x40#8] :: qs.map writeFrame, FrameShape (sentFrame vs) := by
  simp only [List.forall_mem_cons, List.forall_mem_map]
  exact ⟨.mode, fun q _ => frameShape_write q⟩

theorem frameShape_clear : ∀ vs ∈ [[0x40#8], zeroBytes], FrameShape (sentFrame vs) := by
  simp only [List.forall_mem_cons, List.not_mem_nil, false_imp_iff, implies_true, and_true]
  exact ⟨.mode, .fullWrite⟩

theorem frameShape_keyFrame (reply : Nat → Byte) : FrameShape (keyFrame reply) := .keyRead _ _ _ _

/-- The frames of literal bytes that an operation sends. -/
theorem frameShape_framesOf (p : Params) (o : HostOp) : ∀ vs ∈ framesOf p o, FrameShape (sentFrame vs) := by
  cases o with
  | init _ _ _ | clear => exact frameShape_clear
  | setBrightness l => exact List.forall_mem_singleton.2 (frameShape_brightness l)
  | setLeds m => rw [framesOf_leds]; exact frameShape_mode_writes _
  | readKeys => exact List.forall_mem_singleton.2 .addressOnly
  | showDigits x => rw [framesOf_show]; exact frameShape_mode_writes _

/-! ### The frames an operation adds to the byte-level view -/

/-- All the frames of an operation accepted in this state: those of literal bytes, then the key-read frame of `readKeys`. -/
def State.framesAdded (s : State) (o : HostOp) : List Frame :=
  (framesOf s.params o).map sentFrame ++ if o = .readKeys then [keyFrame s.env.reply] else []

/-- No frame is open when INIT is accepted, so its `Stb(1)` closes none (41_command_layer.md R101). -/
theorem bound_frames {s : State} (h : s.engine.openFrame = none) (c d t : PinId) :
    (s.bound c d t).engine.frames = s.engine.frames := by
  simp [State.bound, h]

theorem framesAdded_of_ne {o : HostOp} (ho : o ≠ .readKeys) (s : State) :
    s.framesAdded o = (framesOf s.params o).map sentFrame := by
  rw [State.framesAdded, if_neg ho, List.append_nil]

theorem exec_init_frames {s : State} {c d p : PinId} (h : Accepts s (.init c d p)) :
    ∃ t, exec (.init c d p) s = .next t ∧ t.engine.frames = s.engine.frames ++ s.framesAdded (.init c d p) := by
  refine ⟨_, runHostOp_init h, ?_⟩
  rw [framesAdded_of_ne (o := .init c d p) nofun, finish_engine, framesOf, transactedAll_engine]
  exact congrArg (· ++ _) (bound_frames (s := issueOp (.init c d p) s) h.noFrame c d p)

theorem exec_onlySends_frames {s : State} {o : HostOp} (h : Accepts s o) (ho : onlySends o = true) :
    ∃ t, exec o.instr s = .next t ∧ t.engine.frames = s.engine.frames ++ s.framesAdded o := by
  have hne : o ≠ .readKeys := by rintro rfl; cases ho
  exact ⟨s.sentFrames o, exec_onlySends h ho, by rw [sentFrames_frames, framesAdded_of_ne hne]⟩

/-- Every accepted operation completes and adds exactly its frames (R100 to R112). -/
theorem exec_frames {s : State} {o : HostOp} (h : Accepts s o) :
    ∃ t, exec o.instr s = .next t ∧ t.engine.frames = s.engine.frames ++ s.framesAdded o := by
  cases o with
  | init c d p => exact exec_init_frames h
  | readKeys =>
    obtain ⟨t, ht, -, hframes, -⟩ := exec_readKeys h
    exact ⟨t, ht, hframes⟩
  | clear | setBrightness _ | setLeds _ | showDigits _ => exact exec_onlySends_frames h rfl

theorem frameShape_framesAdded (s : State) (o : HostOp) : ∀ f ∈ s.framesAdded o, FrameShape f := by
  rw [State.framesAdded, List.forall_mem_append, List.forall_mem_map]
  refine ⟨frameShape_framesOf s.params o, ?_⟩
  split
  · exact List.forall_mem_singleton.2 (frameShape_keyFrame _)
  · exact List.forall_mem_nil _

/-- Settles O42: the frames an operation adds are the ones of its rule, each of a shape of R78. -/
theorem operationsSendOnlyTheSixShapes : Obligations.OperationsSendOnlyTheSixShapes := by
  intro s o h
  obtain ⟨t, ht, hframes⟩ := exec_frames h
  exact ⟨t, s.framesAdded o, ht, hframes, frameShape_framesAdded s o⟩

end Sys2Proof.Machine
end

section
/-! PROOF. The transport primitives on their own (spec 40_bit_transport.md R90 to R92): WRITE_BYTE, READ_BYTE, TRANSACT. -/

namespace Sys2Proof.Machine

/-! ### A byte at the Device -/

/-- The step that takes a byte waiting at the Device acts on it (42_wire_commands.md R130). -/
theorem step_pendingByte {s : State} (v : Byte) (hr : s.device.rx = none) :
    step { s with device := { s.device with rx := some v } } = .next { s with device := s.device.act v } := by
  have hd : ({ s.device with rx := none } : Device) = s.device := by rw [← hr]
  refine (deviceStep_eq v _).trans ?_
  rw [hd]

/-- Settles O18: outside a frame the Device is left alone; inside one it goes to `Device.sent`, under TimingMet its own step. -/
theorem writeByteEffect : Obligations.WriteByteEffect := by
  intro s v hs hd hr
  refine ⟨(s.sentByte s.engine.regs v).device, execWriteByte_of_out v hs hd hr, fun ho => ?_, fun ho ht => ?_, fun ho ht => ?_⟩
  · simp [State.sentByte, ho]
  · simp [State.sentByte, ho, ht, Device.sent]
  · rw [step_pendingByte v hr]
    simp [State.sentByte, ho, ht, Device.sent]

/-- Settles O21: the byte of the eight answers is in RXB, and inside a frame `Device.supplied` is what the Device keeps of it. -/
theorem readByteEffect : Obligations.ReadByteEffect := by
  intro s hs hd hr
  refine ⟨s.env.reply 0, s.readOne.device, execReadByte_of_inp hs hd hr, fun j hj => ?_, fun ho => ?_, fun ho ht => ?_,
    fun ho ht => ?_⟩
  · simpa using reply_getLsbD s.env 0 hj
  · simp [State.readOne, State.heardByte, ho]
  · simp [State.readOne, State.heardByte, ho, ht, Device.supplied]
  · simp [State.readOne, State.heardByte, ho, ht, Device.supplied, Env.reply, receivedByte_hearsByte]

/-! ### A frame of no bytes -/

/-- A strobe event raises no fault, and the Device has no byte to act on after it. -/
theorem settle_perform_stb (b : Bool) {s : State} (hs : s.stopped = false) (hr : s.device.rx = none) :
    settle (perform (.plain (.stb b)) s) = if b then strobeHigh s else strobeLow s := by
  have hp : perform (.plain (.stb b)) s = if b then strobeHigh s else strobeLow s := by
    have hl : (strobeLow s).stopped = false := hs
    have hh : (strobeHigh s).stopped = false := hs
    cases b <;> simp [perform, Micro.plain, lineOp, completed, hs, hl, hh]
  rw [hp]
  cases b with
  | false => exact settle_of_noRx hr
  | true => exact settle_of_noRx ((frameCloses_rx _ _).trans hr)

/-- `transact([])` drives no data bit, so it completes in either direction (R92, 30_encoding.md R79). -/
theorem runMicros_transactSeq_nil {s : State} (hs : s.stopped = false) (hr : s.device.rx = none) :
    runMicros (transactSeq []) s = s.transacted [] := by
  refine (runMicros_cons_of (settle_perform_stb false hs hr) hs).trans ?_
  refine (runMicros_append_of (s := strobeLow s) (a := [.plain .wait]) hs (runMicros_wait _ hs hr) hs).trans ?_
  refine (runMicros_cons_of (settle_perform_stb true (s := (strobeLow s).emit .wait) hs hr) hs).trans ?_
  refine (runMicros_wait (strobeHigh ((strobeLow s).emit .wait)) hs ((frameCloses_rx _ _).trans hr)).trans ?_
  simp [State.transacted, State.emit, strobeLow, strobeHigh, transactEvents, Device.frameSent]

/-- TRANSACT completes with the data line an output, and with no bytes in either direction (R92). -/
theorem execTransact_completes {s : State} {bs : List Byte} (hs : s.stopped = false) (hr : s.device.rx = none)
    (h : s.engine.dir = .out ∨ bs = []) : execTransact bs s = .next (s.transacted bs) := by
  rcases h with hd | rfl
  · exact execTransact_of_out bs hs hd hr
  · exact runTransport_of_safe hs (runMicros_transactSeq_nil hs hr) hs

/-! ### The last byte of a frame -/

/-- TXB and BITI after a byte do not depend on the bytes before it. -/
theorem sentRegs_foldl_sentRegs (vs : List Byte) (r : Datapath) (v : Byte) : sentRegs (vs.foldl sentRegs r) v = sentRegs r v := by
  induction vs generalizing r with
  | nil => rfl
  | cons w vs ih => exact ih (sentRegs r w)

/-- The lines and the registers of `State.transacted` are those of the last byte, where there is one. -/
theorem transacted_eq (s : State) (bs : List Byte) :
    s.transacted bs = { s with
      engine := { s.engine with
        clk := if bs = [] then s.engine.clk else .high
        stb := .high
        dio := bs.getLast?.elim s.engine.dio fun v => .ofBool (v.getLsbD 7)
        regs := bs.getLast?.elim s.engine.regs (sentRegs s.engine.regs)
        seq := s.engine.seq + (4 + 41 * bs.length)
        trace := s.engine.trace ++ transactEvents bs
        frames := s.engine.frames ++ [sentFrame bs]
        openFrame := none }
      device := s.device.frameSent s.params.timingMet bs } := by
  rcases List.eq_nil_or_concat bs with rfl | ⟨vs, v, rfl⟩
  · rfl
  · simp [State.transacted, sentFrame, sentRegs_foldl_sentRegs]

/-! ### Counts of events -/

@[simp] theorem length_writeByteEvents (v : Byte) : (writeByteEvents v).length = 40 := rfl

@[simp] theorem waits_writeByteEvents (v : Byte) : waits (writeByteEvents v) = 16 := rfl

theorem length_transactEvents (bs : List Byte) : (transactEvents bs).length = 4 + 41 * bs.length := by
  simp [transactEvents, List.length_flatMap]
  omega

theorem waits_transactEvents (bs : List Byte) : waits (transactEvents bs) = 2 + 17 * bs.length := by
  have hb (v : Byte) : (writeByteEvents v ++ [Event.wait]).countP Event.isWait = 17 := rfl
  simp only [waits, transactEvents, List.countP_append, List.countP_flatMap, Function.comp_def, hb]
  simp [Event.isWait]
  omega

/-- Settles O23: the run is `State.transacted`, whose lines are the last byte's; the counts add up over the bytes. -/
theorem transactEffect : Obligations.TransactEffect := by
  refine ⟨fun s bs hs hr h => ⟨s.device.frameSent s.params.timingMet bs, ?_, frameCloses_frame _ _, fun ht => ?_⟩,
    fun bs => ⟨length_transactEvents bs, waits_transactEvents bs⟩⟩
  · refine (execTransact_completes hs hr h).trans ?_
    rw [transacted_eq]
    cases bs.getLast? <;> rfl
  · rw [ht, frameSent_false]

end Sys2Proof.Machine
end

section
/-! PROOF. A machine without a fault: the step that accepts a command (spec 41_command_layer.md R100), and that there always
is a next step (60_exceptions.md R150, R160). -/

namespace Sys2Proof.Machine

/-! ### A command that is accepted -/

theorem request_of_decodePort {c : Command} {o : HostOp} (h : decodePort c = .ok o) : Command.request c = .op o := by
  rw [Command.request, h]

/-- The envelope of an idle engine, bound unless the operation is INIT, issues the operation (R100). -/
theorem envelope_op {s : State} {o : HostOp} (hb : s.engine.busy = false)
    (hbound : o.isInit = false → s.engine.bind.isSome = true) : envelope (.op o) s = issueOp o s := by
  have hc : (!o.isInit && s.engine.bind.isNone) = false := by
    cases hi : o.isInit with
    | true => rfl
    | false => simpa using hbound hi
  simp [envelope, hb, hc]

/-- Settles O5: the engine takes the command at its port, and no check of the envelope fails. -/
theorem acceptedCommandIsIssued : Obligations.AcceptedCommandIsIssued := by
  intro s c o hs hrx hb hport hdec hbound
  rw [step_takes_command hs hrx hport, accept, request_of_decodePort hdec,
    envelope_op (s := { s with host := { s.host with port := none } }) hb hbound]
  rfl

/-! ### Progress -/

/-- Without a fault only the tick can stop the machine. -/
theorem agentStep_of_safe {s : State} (hs : Safe s) :
    (∃ t, agentStep s = .next t) ∨ (s.engine.busy = true ∧ agentStep s = tick s) := by
  rw [agentStep, hs, if_neg Bool.false_ne_true]
  cases s.host.port with
  | some c => exact .inl ⟨_, rfl⟩
  | none =>
    cases dueAct s with
    | some q => exact .inl ⟨_, rfl⟩
    | none =>
      cases hb : s.engine.busy with
      | true => exact .inr ⟨rfl, if_pos rfl⟩
      | false => exact .inl ⟨s, if_neg Bool.false_ne_true⟩

/-- Settles O53: the Device always answers, the port and the host too, and under the invariant the tick does. -/
theorem safeMachineAlwaysSteps : Obligations.SafeMachineAlwaysSteps := by
  intro s hi hs
  rw [step]
  cases s.device.rx with
  | some v => exact ⟨_, deviceStep_eq v s⟩
  | none =>
    rcases agentStep_of_safe hs with h | ⟨hb, h⟩
    · exact h
    · obtain ⟨t, ht, -⟩ := tick_cases s hi hs hb
      exact ⟨t, h.trans ht⟩

end Sys2Proof.Machine
end

section
/-! PROOF. The host operations that send frames of literal bytes, INIT among them (spec 41_command_layer.md R101 to R104,
R112 to R118): the whole next state. -/

namespace Sys2Proof.Machine

/-! ### The state after an operation's frames -/

theorem transactedAll_env (s : State) (fs : List (List Byte)) : (s.transactedAll fs).env = s.env := by
  induction fs generalizing s with
  | nil => rfl
  | cons vs fs ih => exact ih _

theorem transactedAll_host (s : State) (fs : List (List Byte)) : (s.transactedAll fs).host = s.host := by
  induction fs generalizing s with
  | nil => rfl
  | cons vs fs ih => exact ih _

/-- `Done` after frames, from outside a frame: the whole state. -/
theorem finish_transactedAll {s : State} (hf : s.engine.openFrame = none) (v : Byte) (vs : List Byte) (fs : List (List Byte)) :
    finish (s.transactedAll ((v :: vs) :: fs)) = { s with
      engine := { s.engine with
        clk := .high, stb := .high, dio := dioAfter ((v :: vs) :: fs) s.engine.dio
        regs := Config.freeRegs s.env.fresh, busy := false, cur := none, seq := 0
        trace := s.engine.trace ++ ((v :: vs) :: fs).flatMap transactEvents ++ [.done (doneResult s.engine)]
        frames := s.engine.frames ++ ((v :: vs) :: fs).map sentFrame }
      env := { s.env with fresh := s.env.fresh + 1 }
      device := s.device.framesSent s.params.timingMet ((v :: vs) :: fs) } := by
  have hfinish (t : State) : finish t = { engine := (finish t).engine, device := t.device, host := t.host, params := t.params
                                          env := { t.env with fresh := t.env.fresh + 1 } } := rfl
  rw [hfinish, finish_engine, transactedAll_engine, transactedAll_device, transactedAll_env, transactedAll_host,
    transactedAll_params, clkAfter_cons, ← hf]
  rfl

/-- An operation that only sends frames, whole. -/
theorem exec_onlySends_eq {s : State} {o : HostOp} (h : Accepts s o) (ho : onlySends o = true) {v : Byte} {vs : List Byte}
    {fs : List (List Byte)} (hfs : framesOf s.params o = (v :: vs) :: fs) :
    exec o.instr s = .next { s with
      engine := { s.engine with
        clk := .high, stb := .high, dio := dioAfter ((v :: vs) :: fs) s.engine.dio
        regs := Config.freeRegs s.env.fresh, busy := false, cur := none, seq := 0
        trace := s.engine.trace ++ [.issue o] ++ ((v :: vs) :: fs).flatMap transactEvents ++ [.done none]
        frames := s.engine.frames ++ ((v :: vs) :: fs).map sentFrame }
      env := { s.env with fresh := s.env.fresh + 1 }
      device := s.device.framesSent s.params.timingMet ((v :: vs) :: fs) } := by
  have hres : doneResult (issueOp o s).engine = none := if_neg (by rintro ⟨⟩; cases ho)
  rw [exec_onlySends h ho, State.sentFrames, hfs, finish_transactedAll (s := issueOp o s) h.noFrame, hres]
  rfl

/-! ### What the frames leave at a Device that is in no frame -/

/-- Outside a frame, closing one changes nothing of an UNKNOWN Device. -/
theorem forget_of_noFrame {d : Device} (hf : d.frame = none) : ({ d.forget with frame := none } : Device) = d.forget := by
  rw [← hf]
  rfl

theorem framesSent_clear_of_noFrame {d : Device} (hf : d.frame = none) (t : Bool) :
    d.framesSent t [[0x40#8], zeroBytes] =
      if t then { d with disp := d.disp.writeAll zeroWrites, dmode := .writeAutoinc, daddr := none } else d.forget := by
  cases t with
  | true => rw [framesSent_clear, ← hf]; rfl
  | false => rw [framesSent_false, forget_of_noFrame hf]; rfl

theorem framesSent_writes_of_noFrame {d : Device} (hf : d.frame = none) (t : Bool) (qs : List (BitVec 4 × Byte)) :
    d.framesSent t ([0x40#8] :: qs.map writeFrame) =
      if t then { d with disp := d.disp.writeAll qs, dmode := .writeAutoinc, daddr := addrAfter qs d.daddr }
      else d.forget := by
  cases t with
  | true => rw [framesSent_mode_writes, ← hf]; rfl
  | false => rw [framesSent_false, forget_of_noFrame hf]; rfl

theorem read_zeroWrites (m : Memory) (a : Nat) :
    (m.writeAll zeroWrites).read a = if a < 16 then some 0x00#8 else m.read a := read_full m a

/-! ### The last of several writes -/

/-- The data line after frames F4 is at bit 7 of the last byte written. -/
theorem dioAfter_writes (qs : List (BitVec 4 × Byte)) (l : Level) :
    dioAfter (qs.map writeFrame) l = qs.getLast?.elim l fun q => .ofBool (q.2.getLsbD 7) := by
  rcases List.eq_nil_or_concat qs with rfl | ⟨qs, q, rfl⟩
  · rfl
  · simp [dioAfter, writeFrame]

/-- After the mode byte the data line is low. -/
theorem dioAfter_mode (fs : List (List Byte)) (l : Level) : dioAfter ([0x40#8] :: fs) l = dioAfter fs .low := rfl

theorem addrAfter_eq (qs : List (BitVec 4 × Byte)) (a : Option (BitVec 4)) :
    addrAfter qs a = qs.getLast?.elim a fun q => nextAddr q.1 := by
  rcases List.eq_nil_or_concat qs with rfl | ⟨qs, q, rfl⟩
  · rfl
  · simp [addrAfter]

theorem lastWritten_eq_find? (qs : List (BitVec 4 × Byte)) (a : Nat) :
    lastWritten qs a = (qs.reverse.find? fun q => q.1.toNat == a).map Prod.snd := by
  induction qs using List.reverseRecOn with
  | nil => rfl
  | append_singleton qs q ih =>
    rw [lastWritten, List.foldl_append, ← lastWritten, ih, List.reverse_append]
    by_cases h : a = q.1.toNat
    · simp [h]
    · simp [h, Ne.symm h]

theorem lastWritten_eq_none {qs : List (BitVec 4 × Byte)} {a : Nat} (h : ∀ q ∈ qs, q.1.toNat ≠ a) :
    lastWritten qs a = none := by
  rw [lastWritten_eq_find?, Option.map_eq_none_iff, List.find?_eq_none]
  simpa using h

/-- At most one write to an address: it is the last one. -/
theorem lastWritten_of_mem {qs : List (BitVec 4 × Byte)} {q : BitVec 4 × Byte} (hq : q ∈ qs)
    (huniq : ∀ p ∈ qs, p.1.toNat = q.1.toNat → p = q) : lastWritten qs q.1.toNat = some q.2 := by
  rw [lastWritten_eq_find?]
  cases hfind : qs.reverse.find? fun p => p.1.toNat == q.1.toNat with
  | none => simpa using List.find?_eq_none.1 hfind q (List.mem_reverse.2 hq)
  | some p =>
    have hp : p.1.toNat = q.1.toNat := by simpa using List.find?_some hfind
    rw [huniq p (List.mem_reverse.1 (List.mem_of_find?_eq_some hfind)) hp]
    rfl

/-! ### CLEAR -/

/-- Settles O35: the frames F1 and F5, the second writing zero at all sixteen addresses. -/
theorem clearEffect : Obligations.ClearEffect := by
  intro s h
  refine ⟨Config.freeRegs s.env.fresh, s.env.fresh + 1, s.device.disp.writeAll zeroWrites,
    (exec_onlySends_eq h rfl rfl).trans ?_, read_zeroWrites _⟩
  rw [← framesSent_clear_of_noFrame h.noDeviceFrame]
  simp [dioAfter, zeroBytes, Level.ofBool]

/-! ### INIT -/

/-- INIT with three distinct configurable pins is accepted between operations, bound or not (R101). -/
theorem accepts_init {s : State} {c d t : PinId} (h : Ready s) (hg : pinsGood s.params c d t = true) :
    Accepts s (.init c d t) where
  toReady := h
  bound := nofun
  pins := by rintro _ _ _ ⟨⟩; exact hg

theorem pinsGood_of {p : Params} {c d t : PinId} (hcd : c ≠ d) (hdt : d ≠ t) (hct : c ≠ t) (hc : p.configurable c = true)
    (hd : p.configurable d = true) (ht : p.configurable t = true) : pinsGood p c d t = true := by
  simp [pinsGood, hcd, hdt, hct, hc, hd, ht]

/-- Settles O33: the pins are bound, the lines set, and CLEAR_BODY sent; the pin tables are those of the binding. -/
theorem initEffect : Obligations.InitEffect := by
  intro s c d t h hcd hdt hct hc hd ht
  refine ⟨Config.freeRegs s.env.fresh, s.env.fresh + 1, insertPin t (insertPin d (insertPin c s.engine.pinmode)),
    releasedAfter s.engine { clk := c, dio := d, stb := t },
    s.device.disp.writeAll zeroWrites, (runHostOp_init (accepts_init h (pinsGood_of hcd hdt hct hc hd ht))).trans ?_, fun p => ?_,
    fun hsorted => ?_, fun hsorted => ⟨releasedAfter_sorted _ _ hsorted, fun p l => ?_⟩, read_zeroWrites _⟩
  · rw [← framesSent_clear_of_noFrame h.noDeviceFrame, framesOf,
      finish_transactedAll (s := (issueOp (.init c d t) s).bound c d t) rfl]
    simp [State.bound, h.noFrame, dioAfter, zeroBytes, Level.ofBool, doneResult, releasedAfter]
  · simp only [mem_insertPin]
    tauto
  · exact insertPin_sorted t _ (insertPin_sorted d _ (insertPin_sorted c _ hsorted))
  · exact mem_releasedAfter s.engine { clk := c, dio := d, stb := t } hsorted p l

/-! ### SET_BRIGHTNESS -/

theorem brightnessByte_zero : brightnessByte 0x00#8 = encodeWire .displayOff := rfl

/-- The byte of a level other than 0 is the DISPLAY_ON command of the clamped level less one (R103). -/
theorem brightnessByte_of_ne_zero {l : Byte} (h : l ≠ 0x00#8) :
    brightnessByte l = encodeWire (.displayOn (BitVec.ofNat 3 (min l.toNat 8 - 1))) := by
  have hl : min l.toNat Config.brightMax ≠ 0 := by
    have : l.toNat ≠ 0 := fun h0 => h (BitVec.eq_of_toNat_eq h0)
    simp only [Config.brightMax]
    omega
  rw [brightnessByte]
  exact if_neg hl

/-- DISPLAY_ON of a number below 8, as a sum (30_encoding.md R74). -/
theorem encodeWire_displayOn_ofNat : ∀ n < 8, encodeWire (.displayOn (BitVec.ofNat 3 n)) = 0x88#8 + BitVec.ofNat 8 n := by
  decide

theorem brightnessByte_getLsbD_seven (l : Byte) : (brightnessByte l).getLsbD 7 = true := by
  have hon : ∀ b : BitVec 3, (encodeWire (.displayOn b)).getLsbD 7 = true := by decide
  rcases brightnessByte_cases l with h | ⟨b, h⟩
  · rw [h]; rfl
  · rw [h, hon b]

/-- The frame F2 of `setBrightness`, at a Device that is in no frame (42_wire_commands.md R136, R137). -/
theorem framesSent_brightness_of_noFrame {d : Device} (hf : d.frame = none) (t : Bool) (l : Byte) :
    d.framesSent t [[brightnessByte l]] =
      if t = false then d.forget
      else if l = 0x00#8 then { d with don := some false }
      else { d with don := some true, dbright := some (BitVec.ofNat 3 (min l.toNat 8 - 1)) } := by
  cases t with
  | false => rw [framesSent_false, forget_of_noFrame hf, if_pos rfl]
  | true =>
    rw [if_neg (show ¬ true = false by decide)]
    by_cases h : l = 0x00#8
    · subst h
      exact (frameSent_off d).trans (by rw [if_pos rfl, ← hf])
    · rw [if_neg h, brightnessByte_of_ne_zero h]
      exact (frameSent_on _ d).trans (by rw [← hf])

/-- Settles O36: one frame F2, whose byte is DISPLAY_OFF at level 0 and DISPLAY_ON of the clamped level otherwise. -/
theorem setBrightnessEffect : Obligations.SetBrightnessEffect := by
  intro s level h
  refine ⟨Config.freeRegs s.env.fresh, s.env.fresh + 1, brightnessByte level, fun h0 => ?_, fun h0 => ?_,
    (exec_onlySends_eq h rfl rfl).trans ?_⟩
  · rw [h0]; rfl
  · rw [brightnessByte_of_ne_zero h0, encodeWire_displayOn_ofNat _ (by omega)]
  · rw [← framesSent_brightness_of_noFrame h.noDeviceFrame]
    simp [dioAfter, brightnessByte_getLsbD_seven, Level.ofBool]

/-! ### SET_LEDS -/

/-- The writes of `setDiscreteLEDs` (R104): LED `i` at address `2 i + 1`. -/
def ledWrites (m : Byte) : List (BitVec 4 × Byte) := (List.range 8).map fun i => (BitVec.ofNat 4 (2 * i + 1), ledByte m i)

theorem ledAddr_toNat {i : Nat} (hi : i < 8) : (BitVec.ofNat 4 (2 * i + 1)).toNat = 2 * i + 1 := by
  rw [BitVec.toNat_ofNat, Nat.mod_eq_of_lt (by omega)]

theorem lastWritten_ledWrites (m : Byte) {i : Nat} (hi : i < 8) : lastWritten (ledWrites m) (2 * i + 1) = some (ledByte m i) := by
  have hmem : (BitVec.ofNat 4 (2 * i + 1), ledByte m i) ∈ ledWrites m := List.mem_map.2 ⟨i, List.mem_range.2 hi, rfl⟩
  have h := lastWritten_of_mem hmem fun p hp hpi => by
    obtain ⟨k, hk, rfl⟩ := List.mem_map.1 hp
    rw [ledAddr_toNat (List.mem_range.1 hk), ledAddr_toNat hi] at hpi
    rw [show k = i by omega]
  rwa [ledAddr_toNat hi] at h

theorem lastWritten_ledWrites_even (m : Byte) {a : Nat} (ha : a % 2 = 0 ∨ 16 ≤ a) : lastWritten (ledWrites m) a = none := by
  refine lastWritten_eq_none fun p hp => ?_
  obtain ⟨k, hk, rfl⟩ := List.mem_map.1 hp
  have hk8 := List.mem_range.1 hk
  rw [ledAddr_toNat hk8]
  omega

theorem ledFrames_eq (m : Byte) : (List.range 8).map (ledBytes m) = (ledWrites m).map writeFrame :=
  (List.cons.inj (framesOf_leds (default : Params) m)).2

/-- A mask byte of one LED is 0 or 1, so the data line ends low. -/
theorem dioAfter_leds (m : Byte) (l : Level) : dioAfter ([0x40#8] :: (List.range 8).map (ledBytes m)) l = .low := by
  have h : (ledByte m 7).getLsbD 7 = false := bitByte_getLsbD _ 7
  rw [ledFrames_eq, dioAfter_mode, dioAfter_writes]
  show Level.ofBool ((ledByte m 7).getLsbD 7) = .low
  rw [h]
  rfl

/-- The last LED stands at address 15, past which DADDR is UNKNOWN (R135). -/
theorem addrAfter_ledWrites (m : Byte) (a : Option (BitVec 4)) : addrAfter (ledWrites m) a = none := rfl

/-- Settles O37: the mode frame and the eight writes at the odd addresses, the last at address 15. -/
theorem setLedsEffect : Obligations.SetLedsEffect := by
  intro s m h
  refine ⟨Config.freeRegs s.env.fresh, s.env.fresh + 1, s.device.disp.writeAll (ledWrites m),
    (exec_onlySends_eq h rfl rfl).trans ?_, fun i hi => ?_, fun a ha => ?_⟩
  · have hdev := framesSent_writes_of_noFrame h.noDeviceFrame s.params.timingMet (ledWrites m)
    rw [← ledFrames_eq, addrAfter_ledWrites] at hdev
    rw [dioAfter_leds, hdev]
    simp [List.flatMap_map, Function.comp_def]
  · rw [Memory.read_writeAll, lastWritten_ledWrites m hi]
    rfl
  · rw [Memory.read_writeAll, lastWritten_ledWrites_even m ha]
    rfl

/-! ### SHOW_DIGITS -/

/-- The writes of the pairs of a text (R114 to R116): position `p` at address `2 p`. -/
def pairWrites (ps : List (Nat × Byte)) : List (BitVec 4 × Byte) := ps.map fun q => (BitVec.ofNat 4 (2 * q.1), q.2)

theorem pairFrames_eq (p : Params) (x : List Byte) :
    (textPairs p x).map pairBytes = (pairWrites (textPairs p x)).map writeFrame := (List.cons.inj (framesOf_show p x)).2

theorem textPairs_lt (p : Params) (x : List Byte) : ∀ q ∈ textPairs p x, q.1 < 8 := showPairs_lt _ _ _ _

theorem digitAddr_toNat {p : Nat} (hp : p < 8) : (BitVec.ofNat 4 (2 * p)).toNat = 2 * p := by
  rw [BitVec.toNat_ofNat, Nat.mod_eq_of_lt (by omega)]

theorem nextAddr_digit : ∀ p < 8, nextAddr (BitVec.ofNat 4 (2 * p)) = some (BitVec.ofNat 4 (2 * p + 1)) := by decide

theorem dioAfter_pairWrites (ps : List (Nat × Byte)) (l : Level) :
    dioAfter ((pairWrites ps).map writeFrame) l = ps.getLast?.elim l fun q => .ofBool (q.2.getLsbD 7) := by
  rw [dioAfter_writes, pairWrites, List.getLast?_map]
  cases ps.getLast? <;> rfl

theorem addrAfter_pairWrites {ps : List (Nat × Byte)} (hps : ∀ q ∈ ps, q.1 < 8) (a : Option (BitVec 4)) :
    addrAfter (pairWrites ps) a = ps.getLast?.elim a fun q => some (BitVec.ofNat 4 (2 * q.1 + 1)) := by
  rw [addrAfter_eq, pairWrites, List.getLast?_map]
  cases hlast : ps.getLast? with
  | none => rfl
  | some q => exact nextAddr_digit q.1 (hps q (List.mem_of_getLast? hlast))

theorem read_pairWrites {ps : List (Nat × Byte)} (hps : ∀ q ∈ ps, q.1 < 8) (m : Memory) (a : Nat) :
    (m.writeAll (pairWrites ps)).read a = (ps.reverse.find? fun q => 2 * q.1 == a).elim (m.read a) fun q => some q.2 := by
  have hfind : ps.reverse.find? (fun q => (BitVec.ofNat 4 (2 * q.1)).toNat == a) = ps.reverse.find? (fun q => 2 * q.1 == a) :=
    List.find?_congr fun q hq => by rw [digitAddr_toNat (hps q (List.mem_reverse.1 hq))]
  rw [Memory.read_writeAll, lastWritten_eq_find?, pairWrites, ← List.map_reverse, List.find?_map, ← hfind]
  show (((ps.reverse.find? fun q => (BitVec.ofNat 4 (2 * q.1)).toNat == a).map _).map _).or _ = _
  cases ps.reverse.find? (fun q => (BitVec.ofNat 4 (2 * q.1)).toNat == a) <;> rfl

/-- Settles O40: the mode frame and one write for each pair of the text. -/
theorem showDigitsEffect : Obligations.ShowDigitsEffect := by
  intro s x h
  have hlt := textPairs_lt s.params x
  refine ⟨Config.freeRegs s.env.fresh, s.env.fresh + 1, s.device.disp.writeAll (pairWrites (textPairs s.params x)),
    (exec_onlySends_eq h rfl rfl).trans ?_, fun a => ?_⟩
  · have hdev := framesSent_writes_of_noFrame h.noDeviceFrame s.params.timingMet (pairWrites (textPairs s.params x))
    rw [← pairFrames_eq, addrAfter_pairWrites hlt] at hdev
    rw [dioAfter_mode, pairFrames_eq, dioAfter_pairWrites, ← pairFrames_eq, hdev]
    cases (textPairs s.params x).getLast? <;> simp [List.flatMap_map, Function.comp_def]
  · rw [read_pairWrites hlt]
    cases (textPairs s.params x).reverse.find? (fun q => 2 * q.1 == a) <;> rfl

/-- A character adds at most one pair (R118). -/
theorem showPairs_length_le (seg : Fin 10 → Byte) (text : List Byte) (pos : Nat) (last : Byte) :
    (showPairs seg text pos last).length ≤ text.length := by
  induction text generalizing pos last with
  | nil => exact Nat.le_refl 0
  | cons c cs ih =>
    have placed (q : Nat × Byte) (pos' : Nat) (last' : Byte) :
        (q :: showPairs seg cs pos' last').length ≤ (c :: cs).length := Nat.succ_le_succ (ih pos' last')
    rw [showPairs]
    split
    · exact Nat.zero_le _
    · split
      · exact placed _ _ _
      · split
        · exact placed _ _ _
        · split
          · exact placed _ _ _
          · exact Nat.le_succ_of_le (ih pos last)

/-- Settles O41: at most one pair for each character, and the frames sent are the mode frame and those of the pairs. -/
theorem showDigitsFrameBound : Obligations.ShowDigitsFrameBound := by
  intro s x h
  refine ⟨showPairs_length_le _ _ _ _, textPairs_lt s.params x, s.sentFrames (.showDigits x), exec_onlySends h rfl, ?_⟩
  rw [sentFrames_frames, List.length_append, List.length_map, framesOf, List.length_cons, List.length_map, Nat.add_comm 1]

end Sys2Proof.Machine
end

section
/-! PROOF. READ_KEYS (spec 41_command_layer.md R105 to R111): the whole next state, and the mask of an ideal reply. -/

namespace Sys2Proof.Machine

/-! ### The whole next state -/

/-- What READ_KEYS leaves at a Device that is in no frame: the address frame F3, then the key-read frame F6 (R106, R107). -/
theorem device_keysRead {d : Device} (hf : d.frame = none) (t : Bool) (r : Nat → Byte) :
    ((List.range 4).foldl (fun d i => d.supplied t (r i)) ((d.frameSent t [0xC0#8]).frameOpens.sent t 0x42#8)).frameCloses t =
      if t then { d with dmode := .readKeys, daddr := some 0 } else d.forget := by
  cases t with
  | true => exact (frameSent_keys r _).trans (by rw [show d.frameSent true [0xC0#8] = _ from frameSent_address 0 d, ← hf]; rfl)
  | false => exact (frameSent_keys_false r _).trans (by rw [frameSent_false, ← forget_of_noFrame hf]; rfl)

/-- READ_KEYS that is accepted, whole. -/
theorem exec_readKeys_eq {s : State} (h : Accepts s .readKeys) :
    exec .readKeys s = .next { s with
      engine := { s.engine with
        clk := .high, stb := .high, dio := .x, dir := .out, regs := Config.freeRegs (s.env.answered 32).fresh
        busy := false, cur := none, seq := 0, keymask := some (keyMask s.env.reply)
        trace := s.engine.trace ++ [.issue .readKeys] ++ transactEvents [0xC0#8] ++ keyFrameEvents s.env.answer
          ++ [.done (some (keyMask s.env.reply))]
        frames := s.engine.frames ++ [sentFrame [0xC0#8], keyFrame s.env.reply] }
      env := { s.env.answered 32 with fresh := (s.env.answered 32).fresh + 1 }
      device := if s.params.timingMet then { s.device with dmode := .readKeys, daddr := some 0 } else s.device.forget } := by
  have hk := runHostOp_keys h
  rw [regOps_keyCombination] at hk
  refine hk.trans ?_
  rw [← device_keysRead h.noDeviceFrame s.params.timingMet s.env.reply]
  simp [finish, State.log, doneResult, State.keysRead, State.transacted, sentFrame, h.noFrame]

/-- Settles O38: the reply bytes are the answers taken eight at a time, and the mask is their combination. -/
theorem readKeysEffect : Obligations.ReadKeysEffect := by
  intro s h
  refine ⟨_, _, keyMask s.env.reply, exec_readKeys_eq h, fun b hb => ?_⟩
  rw [keyMask_getLsbD _ hb]
  congr 1
  funext i
  rw [reply_getLsbD s.env i (by omega)]

/-! ### The ideal reply -/

/-- Bit `8 i + j` of bits listed a byte at a time. -/
theorem getElem?_bytes (f : Nat → Nat → Bool) (n : Nat) {i j : Nat} (hi : i < n) (hj : j < 8) :
    ((List.range n).flatMap fun i => (List.range 8).map (f i))[8 * i + j]? = some (f i j) := by
  have hlen (m : Nat) : ((List.range m).flatMap fun i => (List.range 8).map (f i)).length = 8 * m := by
    simp [List.length_flatMap, Nat.mul_comm]
  induction n with
  | zero => omega
  | succ n ih =>
    rw [List.range_succ (n := n), List.flatMap_append]
    rcases Nat.lt_or_ge i n with h | h
    · rw [List.getElem?_append_left (by rw [hlen]; omega), ih h]
    · obtain rfl : i = n := by omega
      rw [List.getElem?_append_right (by rw [hlen]; omega), hlen]
      simp [hj]

/-- Under IdealKeyReply the answers are the bits of the ideal reply (42_wire_commands.md R143). -/
theorem answer_of_ideal {s : State} (h : IdealKeyReply s) {i j : Nat} (hi : i < 4) (hj : j < 8) :
    s.env.answer (8 * i + j) = (idealReply s.env.btn i).getLsbD j := by
  have hbits : (s.env.draws.take 32)[8 * i + j]? = some ((idealReply s.env.btn i).getLsbD j) := by
    rw [h]
    exact getElem?_bytes (fun i j => (idealReply s.env.btn i).getLsbD j) 4 hi hj
  rw [List.getElem?_take_of_lt (by omega)] at hbits
  rw [Env.answer, hbits]

theorem reply_of_ideal {s : State} (h : IdealKeyReply s) {i : Nat} (hi : i < 4) : s.env.reply i = idealReply s.env.btn i :=
  BitVec.eq_of_getLsbD_eq fun j hj => by rw [reply_getLsbD s.env i hj, answer_of_ideal h hi hj]

/-- Byte `i` of the ideal reply carries button `i + 1` in bit 0 and button `i + 5` in bit 4. -/
theorem idealReply_getLsbD (btn : BitVec 8) (i : Nat) {j : Nat} (hj : j < 8) :
    (idealReply btn i).getLsbD j = ((decide (j = 0) && btn.getLsbD i) || (decide (j = 4) && btn.getLsbD (i + 4))) := by
  rw [idealReply, BitVec.getLsbD_or, bitByte_getLsbD, BitVec.getLsbD_shiftLeft, bitByte_getLsbD]
  congr 1
  by_cases h : j < 4
  · simp [h, show j ≠ 4 by omega]
  · simp [h, hj, show j - 4 = 0 ↔ j = 4 by omega]

/-- Each button has its own bit of the mask of the ideal reply (41_command_layer.md R111). -/
theorem keyMask_idealReply (btn : BitVec 8) : keyMask (idealReply btn) = btn := by
  refine BitVec.eq_of_getLsbD_eq fun b hb => ?_
  have hbit (i : Nat) : (idealReply btn i).getLsbD (b - i) =
      ((decide (b - i = 0) && btn.getLsbD i) || (decide (b - i = 4) && btn.getLsbD (i + 4))) :=
    idealReply_getLsbD btn i (by omega)
  simp only [keyMask_getLsbD _ hb, hbit]
  interval_cases b <;> simp [List.range_succ]

/-- The mask depends on the four reply bytes only. -/
theorem keyMask_congr {R Q : Nat → Byte} (h : ∀ i < 4, R i = Q i) : keyMask R = keyMask Q := by
  rw [keyMask, keyMask, keyAcc, keyAcc, h 0 (by decide), h 1 (by decide), h 2 (by decide), h 3 (by decide)]

/-- Settles O39: the reply bytes are the ideal ones, and their mask is the buttons. -/
theorem idealKeyReplyGivesButtons : Obligations.IdealKeyReplyGivesButtons := by
  intro s h hideal
  have hmask : keyMask s.env.reply = s.env.btn :=
    (keyMask_congr fun _ hi => reply_of_ideal hideal hi).trans (keyMask_idealReply _)
  refine ⟨_, exec_readKeys_eq h, congrArg some hmask, ?_⟩
  rw [hmask]
  exact List.getLast?_concat

end Sys2Proof.Machine
end

section
/-! PROOF. What the Device does with a byte it has received: the five wire commands and the data bytes (spec
42_wire_commands.md R130 to R137). -/

namespace Sys2Proof.Machine

/-! ### Wire commands -/

/-- The instruction of a wire command acts on the Device as its byte does (R131 to R137). -/
theorem exec_wireCmd (w : WireCmd) (s : State) : exec w.instr s = .next { s with device := wireEffect w s.device } := by
  rw [← execWire_eq]
  cases w <;> rfl

/-- The Device takes a byte as a command exactly when it is the first of a frame and decodes (30_encoding.md R73). -/
theorem command_eq_some {d : Device} {v : Byte} {w : WireCmd} :
    d.command v = some w ↔ d.frame = some [] ∧ decodeWire v = some w := by
  by_cases hf : d.frame = some [] <;> simp [Device.command, hf]

/-- The first byte of a frame, when it is a wire command, has the effect of that command (R130). -/
theorem act_command {d : Device} {v : Byte} {w : WireCmd} (hf : d.frame = some []) (hw : decodeWire v = some w) :
    d.act v = wireEffect w d := by
  rw [Device.act, command_eq_some.2 ⟨hf, hw⟩]

/-- The step that takes a pending byte is the Device acting on it (R130). -/
theorem step_of_rx {s : State} {v : Byte} (hrx : s.device.rx = some v) :
    step s = .next { s with device := { s.device with rx := none }.act v } := by
  rw [step, hrx]
  exact deviceStep_eq v s

/-- Settles O3: both sides are the effect of the wire command that the byte decodes to. -/
theorem stepRunsReceivedWireCommand : Obligations.StepRunsReceivedWireCommand := by
  intro s v i hrx hf hdec
  obtain ⟨w, hw, rfl⟩ := decode_wire_eq_ok.1 hdec
  rw [step_of_rx hrx, act_command (d := { s.device with rx := none }) hf hw, exec_wireCmd]

/-- Settles O25: the effect of the byte 0x40. -/
theorem dataWriteAutoincEffect : Obligations.DataWriteAutoincEffect := exec_wireCmd .dataWriteAutoinc

/-- Settles O26: the effect of the byte 0x42. -/
theorem readKeysCmdEffect : Obligations.ReadKeysCmdEffect := exec_wireCmd .readKeysCmd

/-- Settles O27: the byte in the frame is the command's own, written as a sum. -/
theorem displayControlEffect : Obligations.DisplayControlEffect := by
  refine ⟨exec_wireCmd .displayOff, fun s b => ?_⟩
  rw [← encodeWire_displayOn_eq_add]
  exact exec_wireCmd (.displayOn b) s

/-- Settles O28: the byte in the frame is the command's own, written as a sum. -/
theorem setAddressEffect : Obligations.SetAddressEffect := by
  intro s n
  rw [← encodeWire_setAddress_eq_add]
  exact exec_wireCmd (.setAddress n) s

/-! ### Data bytes -/

theorem isSetAddress_add (n : BitVec 4) : isSetAddress (0xC0#8 + n.zeroExtend 8) = true := by
  rw [← encodeWire_setAddress_eq_add]
  exact isSetAddress_setAddress n

/-- In write mode, at a known address, the byte is written there (R133). -/
theorem data_of_write {d : Device} {a : BitVec 4} (hm : d.dmode = .writeAutoinc) (ha : d.daddr = some a) (v : Byte) :
    d.data v = { d with disp := d.disp.write a.toNat v, daddr := nextAddr a } := by
  rw [Device.data, if_pos hm, ha]

/-- Outside write mode, or at UNKNOWN DADDR, display memory becomes UNKNOWN (R133, R135). -/
theorem data_of_unknown {d : Device} (h : d.dmode ≠ .writeAutoinc ∨ d.daddr = none) (v : Byte) :
    d.data v = { d with disp := [] } := by
  by_cases hm : d.dmode = .writeAutoinc
  · rw [Device.data, if_pos hm, h.resolve_left (not_not_intro hm)]
  · rw [Device.data, if_neg hm]

/-- The step that takes a byte inside a SET_ADDRESS frame. -/
theorem step_of_data {s : State} {v a : Byte} {rest : Frame} (hrx : s.device.rx = some v)
    (hf : s.device.frame = some (.out a :: rest)) (ha : isSetAddress a = true) :
    step s = .next { s with device :=
      { ({ s.device with rx := none } : Device).data v with frame := some (.out a :: rest ++ [.out v]) } } := by
  rw [step_of_rx hrx]
  exact congrArg (fun d => Host.Outcome.next { s with device := d }) (sent_data v a rest { s.device with rx := none } hf ha)

/-- Settles O29: the step is `Device.data`, which writes at a known DADDR in write mode and forgets DISP otherwise. -/
theorem dataByteIsWrittenAtDisplayAddress : Obligations.DataByteIsWrittenAtDisplayAddress := by
  intro s v n rest hrx hf
  have hstep := step_of_data hrx hf (isSetAddress_add n)
  refine ⟨fun a hm ha => ⟨s.device.disp.write a.toNat v, ?_, Memory.read_write_same _ _ _, fun b => Memory.read_write_other _ v⟩,
    fun h => ⟨[], ?_, fun _ => rfl⟩⟩
  · rw [hstep, data_of_write (d := { s.device with rx := none }) hm ha]
    rfl
  · rw [hstep, data_of_unknown (d := { s.device with rx := none }) h]

end Sys2Proof.Machine
end

section
/-! PROOF. What whole frames leave at the Device, with and without TimingMet (spec 42_wire_commands.md R130 to R138), and
which frames have a known shape (30_encoding.md R78). -/

namespace Sys2Proof.Machine

/-! ### Known shapes -/

theorem setAddress_of_isSetAddress {v : Byte} (h : isSetAddress v = true) : ∃ n : BitVec 4, v = 0xC0#8 + n.zeroExtend 8 := by
  refine ⟨v.extractLsb' 0 4, ?_⟩
  rw [← encodeWire_setAddress_eq_add, encodeWire, ← eq_of_beq h, masked_or_low4]

theorem displayOff_or_on_of_isDisplayControl {v : Byte} (h : isDisplayControl v = true) :
    v = 0x80#8 ∨ ∃ b : BitVec 3, v = 0x88#8 + b.zeroExtend 8 := by
  simp only [isDisplayControl, Bool.or_eq_true, beq_iff_eq] at h
  refine h.imp id fun hb => ⟨v.extractLsb' 0 3, ?_⟩
  rw [← encodeWire_displayOn_eq_add, encodeWire, ← hb, masked_or_low3]

/-- The Device knows the frames of the six shapes and an address alone (log 9). -/
theorem shape_or_address_of_known {f : Frame} (h : f.known = true) :
    FrameShape f ∨ ∃ n : BitVec 4, f = [.out (0xC0#8 + n.zeroExtend 8)] := by
  unfold Frame.known at h
  split at h
  next v =>
    simp only [Bool.or_eq_true, beq_iff_eq] at h
    rcases h with (rfl | hc) | ha
    · exact .inl .mode
    · rcases displayOff_or_on_of_isDisplayControl hc with rfl | ⟨b, rfl⟩
      · exact .inl .displayOff
      · exact .inl (.displayOn b)
    · obtain ⟨n, rfl⟩ := setAddress_of_isSetAddress ha
      exact .inr ⟨n, rfl⟩
  next a v =>
    obtain ⟨n, rfl⟩ := setAddress_of_isSetAddress h
    exact .inl (.singleWrite n v)
  next v r0 r1 r2 r3 =>
    obtain rfl := eq_of_beq h
    exact .inl (.keyRead r0 r1 r2 r3)
  next a rest _ _ _ =>
    simp only [Bool.and_eq_true, beq_iff_eq] at h
    obtain ⟨rfl, rfl⟩ := h
    exact .inl .fullWrite
  next => cases h

/-! ### A frame of no known shape -/

theorem other_frame {d : Device} {f : Frame} (hf : d.frame = some f) (v : Byte) : (d.other v).frame = some (f ++ [.out v]) := by
  unfold Device.other
  rw [hf]
  split
  next first rest heq =>
    cases heq
    split <;> rfl
  next heq => cases heq; rfl
  next heq => cases heq

/-- A byte the Device acts on is added to the frame it is receiving. -/
theorem act_frame {d : Device} {f : Frame} (hf : d.frame = some f) (v : Byte) : (d.act v).frame = some (f ++ [.out v]) := by
  cases hc : d.command v with
  | some w =>
    obtain ⟨hopen, hw⟩ := command_eq_some.1 hc
    obtain rfl : f = [] := Option.some.inj (hf.symm.trans hopen)
    rw [act_command hopen hw, ← encodeWire_of_decodeWire hw]
    cases w <;> rfl
  | none =>
    rw [Device.act, hc]
    exact other_frame hf v

/-- The bytes sent under TimingMet stand in the frame the Device is receiving. -/
theorem foldl_sent_frame (vs : List Byte) {d : Device} {f : Frame} (hf : d.frame = some f) :
    (vs.foldl (fun d v => d.sent true v) d).frame = some (f ++ vs.map .out) := by
  induction vs generalizing d f with
  | nil => simpa using hf
  | cons v vs ih =>
    have hv : (d.sent true v).frame = some (f ++ [.out v]) := act_frame hf v
    rw [List.foldl_cons, ih hv]
    simp

/-- A frame of no known shape leaves the Device UNKNOWN, whatever its bytes did (R138). -/
theorem frameSent_of_not_known {vs : List Byte} (h : Frame.known (sentFrame vs) = false) (d : Device) :
    d.frameSent true vs = { d.forget with frame := none } := by
  have hf : (vs.foldl (fun d v => d.sent true v) d.frameOpens).frame = some (sentFrame vs) := 
    foldl_sent_frame vs (d := d.frameOpens) (f := []) rfl
  have hrx : (vs.foldl (fun d v => d.sent true v) d.frameOpens).rx = d.rx := foldl_sent_rx true vs _
  rw [Device.frameSent, Device.frameCloses, hf]
  simp [h, Device.forget, hrx]

/-! ### A single write outside write mode -/

/-- Frame F4 outside write mode (R133). -/
theorem frameSent_pair_outside (n : BitVec 4) (v : Byte) (d : Device) (h : d.dmode ≠ .writeAutoinc) :
    d.frameSent true [encodeWire (.setAddress n), v] = { d with disp := [], daddr := some n, frame := none } := by
  have hopen : d.frameOpens.sent true (encodeWire (.setAddress n)) =
      { d with daddr := some n, frame := some [.out (encodeWire (.setAddress n))] } :=
    act_command rfl (decodeWire_setAddress n)
  rw [Device.frameSent, List.foldl_cons, hopen, List.foldl_cons, sent_data v _ [] _ rfl (isSetAddress_setAddress n)]
  simp [Device.data, h, Device.frameCloses, Frame.known, isSetAddress_setAddress]

/-- Settles O30: the run is `State.transacted`, whose Device is `Device.frameSent`: one lemma for each shape. -/
theorem sentFrameAtDevice : Obligations.SentFrameAtDevice := by
  intro s bs hs hdir hrx ht
  have hdev : (s.transacted bs).device = s.device.frameSent true bs := congrArg (s.device.frameSent · bs) ht
  refine ⟨s.transacted bs, execTransact_completes hs hrx hdir, ?_⟩
  rw [hdev]
  simp only [← encodeWire_displayOn_eq_add, ← encodeWire_setAddress_eq_add]
  refine ⟨?_, ?_, ?_, ?_, ?_, ?_, ?_, ?_, ?_⟩
  · rintro rfl
    exact frameSent_mode _
  · rintro rfl
    exact frameSent_off _
  · rintro b rfl
    exact frameSent_on b _
  · rintro n rfl
    exact frameSent_address n _
  · rintro n v rfl hm
    exact ⟨_, frameSent_pair n v _ hm, Memory.read_write_same _ _ _, fun b => Memory.read_write_other _ v⟩
  · rintro n v rfl hm
    exact ⟨_, frameSent_pair_outside n v _ hm, fun _ => rfl⟩
  · rintro rfl hm
    exact ⟨_, frameSent_full _ hm, read_full _⟩
  · rintro rfl hm
    exact ⟨_, frameSent_full_outside _ hm, fun _ => rfl⟩
  · intro hshape haddr
    refine frameSent_of_not_known (Bool.eq_false_iff.2 fun hknown => ?_) _
    rcases shape_or_address_of_known hknown with h | ⟨n, h⟩
    · exact hshape h
    · rw [← encodeWire_setAddress_eq_add] at h
      exact haddr n (List.map_injective_iff.2 (fun _ _ => Item.out.inj) (h : sentFrame bs = sentFrame [_]))

/-! ### Operations without TimingMet -/

/-- Without TimingMet an accepted operation leaves the Device UNKNOWN (R130). -/
theorem exec_device_of_not_timingMet {s : State} {o : HostOp} (h : Accepts s o) (ht : s.params.timingMet = false) :
    ∃ t, exec o.instr s = .next t ∧ t.device = s.device.forget := by
  have hforget : { s.device.forget with frame := none } = s.device.forget := forget_of_noFrame h.noDeviceFrame
  obtain ⟨vs, fs, hfs⟩ := framesOf_ne_nil s.params o
  have hsent : s.device.framesSent s.params.timingMet (framesOf s.params o) = s.device.forget := by
    rw [ht, hfs, framesSent_false, hforget]
  cases o with
  | init c d p => exact ⟨_, runHostOp_init h, (transactedAll_device _ _).trans hsent⟩
  | readKeys => exact ⟨_, exec_readKeys_eq h, by simp [ht]⟩
  | clear | setBrightness _ | setLeds _ | showDigits _ =>
    exact ⟨_, exec_onlySends h rfl, (sentFrames_device s _).trans hsent⟩

/-- Settles O31: the Device is forgotten whole. -/
theorem withoutTimingMetDeviceIsUnknown : Obligations.WithoutTimingMetDeviceIsUnknown := by
  intro s o h ht
  obtain ⟨t, hexec, hdev⟩ := exec_device_of_not_timingMet h ht
  exact ⟨t, hexec, by rw [hdev]; exact ⟨fun _ => rfl, rfl, rfl, rfl, rfl⟩⟩

end Sys2Proof.Machine
end

section
/-! PROOF. What the display shows after an operation (spec 42_wire_commands.md R139). -/

namespace Sys2Proof.Machine

/-! ### What is shown at an address -/

theorem shows_of_off {d : Device} (h : d.don = some false) (a : Nat) : d.shows a = .dark := by
  rw [Device.shows, h]

theorem shows_of_on {d : Device} {a : Nat} {v : Byte} (h : d.don = some true) (hv : d.disp.read a = some v) :
    d.shows a = .lit v := by
  rw [Device.shows, h, hv]

theorem led_of_shows {d : Device} {i : Fin 8} {v : Byte} (h : d.shows (2 * i.val + 1) = .lit v) :
    d.led i = .lit (v.getLsbD 0) := by
  rw [Device.led, h]

/-- Where display memory reads the same, the same is shown, the display being on or off as before. -/
theorem shows_congr {d e : Device} {a : Nat} (hon : d.don = e.don) (hr : d.disp.read a = e.disp.read a) :
    d.shows a = e.shows a := by
  rw [Device.shows, Device.shows, hon, hr]

theorem led_congr {d e : Device} {i : Fin 8} (h : d.shows (2 * i.val + 1) = e.shows (2 * i.val + 1)) : d.led i = e.led i := by
  rw [Device.led, Device.led, h]

/-! ### The operations -/

/-- A bound engine that accepts `clear` accepts every operation but INIT (41_command_layer.md R100). -/
theorem Accepts.of_clear {s : State} (h : Accepts s .clear) {o : HostOp} (ho : o.isInit = false) : Accepts s o where
  toReady := h.toReady
  bound := fun _ => h.bound rfl
  pins := by rintro c d t rfl; cases ho

/-- Under TimingMet an operation that only sends frames completes with these frames at the Device. -/
theorem exec_onlySends_device {s : State} {o : HostOp} (h : Accepts s o) (ho : onlySends o = true) (ht : TimingMet s) :
    ∃ t, exec o.instr s = .next t ∧ t.device = s.device.framesSent true (framesOf s.params o) :=
  ⟨_, exec_onlySends h ho, by rw [sentFrames_device, ht]⟩

/-- `setBrightness(0)` turns the display off (R136). -/
theorem exec_brightness_zero_shows {s : State} (h : Accepts s .clear) (ht : TimingMet s) :
    ∃ t, exec (.setBrightness 0x00#8) s = .next t ∧ ∀ a, t.device.shows a = .dark := by
  obtain ⟨t, hexec, hdev⟩ := exec_onlySends_device (h.of_clear (o := .setBrightness 0x00#8) rfl) rfl ht
  have hoff : t.device = { s.device with don := some false, frame := none } := hdev
  exact ⟨t, hexec, shows_of_off (by rw [hoff])⟩

/-- An operation that sends the mode frame and writes: display memory has the writes, the display is on or off as before. -/
theorem exec_writes_device {s : State} {o : HostOp} (h : Accepts s o) (ho : onlySends o = true) (ht : TimingMet s)
    {qs : List (BitVec 4 × Byte)} (hfs : framesOf s.params o = [0x40#8] :: qs.map writeFrame) :
    ∃ t, exec o.instr s = .next t ∧ t.device.don = s.device.don ∧ t.device.disp = s.device.disp.writeAll qs := by
  obtain ⟨t, hexec, hdev⟩ := exec_onlySends_device h ho ht
  rw [hfs, framesSent_mode_writes] at hdev
  exact ⟨t, hexec, by rw [hdev], by rw [hdev]⟩

theorem ledByte_getLsbD_zero (m : Byte) (i : Nat) : (ledByte m i).getLsbD 0 = m.getLsbD i :=
  bitByte_getLsbD _ 0

/-- `setDiscreteLEDs` (R104): the LEDs show the mask, the digits stay. -/
theorem exec_leds_shows {s : State} (h : Accepts s .clear) (ht : TimingMet s) (hon : s.device.don = some true) (m : Byte) :
    ∃ t, exec (.setLeds m) s = .next t ∧
      ∀ k : Fin 8, t.device.led k = .lit (m.getLsbD k.val) ∧ t.device.digit k = s.device.digit k := by
  obtain ⟨t, hexec, hdon, hdisp⟩ :=
    exec_writes_device (h.of_clear (o := .setLeds m) rfl) rfl ht (qs := ledWrites m) (framesOf_leds _ m)
  refine ⟨t, hexec, fun k => ⟨?_, ?_⟩⟩
  · have hread : t.device.disp.read (2 * k.val + 1) = some (ledByte m k.val) := by
      rw [hdisp, Memory.read_writeAll, lastWritten_ledWrites m k.isLt]
      rfl
    rw [led_of_shows (shows_of_on (hdon.trans hon) hread), ledByte_getLsbD_zero]
  · refine shows_congr hdon ?_
    rw [hdisp, Memory.read_writeAll, lastWritten_ledWrites_even m (.inl (by omega))]
    rfl

/-- The pairs of a text are written at even addresses, position `p` at `2 p`. -/
theorem read_pairWrites_digit {ps : List (Nat × Byte)} (hps : ∀ q ∈ ps, q.1 < 8) (m : Memory) (p : Nat) :
    (m.writeAll (pairWrites ps)).read (2 * p) = (ps.reverse.find? fun q => q.1 == p).elim (m.read (2 * p)) fun q => some q.2 := by
  have hpos : ps.reverse.find? (fun q => 2 * q.1 == 2 * p) = ps.reverse.find? fun q => q.1 == p :=
    List.find?_congr fun q _ => by simp
  rw [read_pairWrites hps, hpos]

theorem read_pairWrites_led {ps : List (Nat × Byte)} (hps : ∀ q ∈ ps, q.1 < 8) (m : Memory) (i : Nat) :
    (m.writeAll (pairWrites ps)).read (2 * i + 1) = m.read (2 * i + 1) := by
  have hnone : ps.reverse.find? (fun q => 2 * q.1 == 2 * i + 1) = none :=
    List.find?_eq_none.2 fun q _ => by rw [beq_iff_eq]; omega
  rw [read_pairWrites hps, hnone]
  rfl

/-- `showDigits` (R112 to R117): each position shows its last pair, the LEDs stay. -/
theorem exec_show_shows {s : State} (h : Accepts s .clear) (ht : TimingMet s) (hon : s.device.don = some true) (x : List Byte) :
    ∃ t, exec (.showDigits x) s = .next t ∧
      ∀ k : Fin 8, t.device.led k = s.device.led k ∧ t.device.digit k =
        ((textPairs s.params x).reverse.find? fun q => q.1 == k.val).elim (s.device.digit k) fun q => .lit q.2 := by
  have hlt := textPairs_lt s.params x
  obtain ⟨t, hexec, hdon, hdisp⟩ :=
    exec_writes_device (h.of_clear (o := .showDigits x) rfl) rfl ht (qs := pairWrites (textPairs s.params x)) (framesOf_show _ x)
  refine ⟨t, hexec, fun k => ⟨led_congr (shows_congr hdon ?_), ?_⟩⟩
  · rw [hdisp, read_pairWrites_led hlt]
  · have hread := read_pairWrites_digit hlt s.device.disp k.val
    rw [← hdisp] at hread
    cases hq : (textPairs s.params x).reverse.find? fun q => q.1 == k.val with
    | none => rw [hq] at hread; exact shows_congr hdon hread
    | some q => rw [hq] at hread; exact shows_of_on (hdon.trans hon) hread

/-- Settles O32: the display is off after brightness 0; the writes of the other two are read back where R139 looks. -/
theorem displayShowsWhatWasSent : Obligations.DisplayShowsWhatWasSent := by
  intro s h ht
  refine ⟨?_, fun m hon => exec_leds_shows h ht hon m, fun x hon => ?_⟩
  · obtain ⟨t, hexec, hdark⟩ := exec_brightness_zero_shows h ht
    exact ⟨t, hexec, fun k => ⟨hdark _, by rw [Device.led, hdark]⟩⟩
  · obtain ⟨t, hexec, hshows⟩ := exec_show_shows h ht hon x
    refine ⟨t, hexec, fun k => ⟨(hshows k).1, (hshows k).2.trans ?_⟩⟩
    cases (textPairs s.params x).reverse.find? fun q => q.1 == k.val <;> rfl

end Sys2Proof.Machine
end

section
/-! PROOF. Which operations send DISPLAY_ON (spec 42_wire_commands.md R137, 41_command_layer.md R103). -/

namespace Sys2Proof.Machine

/-- The wire command that opens a frame. -/
def openingCommand : Frame → Option WireCmd
  | .out v :: _ => decodeWire v
  | _ => none

theorem openingCommand_displayOn (b : BitVec 3) (rest : Frame) :
    openingCommand (.out (0x88#8 + b.zeroExtend 8) :: rest) = some (.displayOn b) := by
  rw [← encodeWire_displayOn_eq_add]
  exact decodeWire_displayOn b

/-- The mode frame F1 and frames F4 open with 0x40 and with SET_ADDRESS. -/
theorem openingCommand_mode_writes (qs : List (BitVec 4 × Byte)) (b : BitVec 3) :
    ∀ vs ∈ [0x40#8] :: qs.map writeFrame, openingCommand (sentFrame vs) ≠ some (.displayOn b) := by
  simp only [List.forall_mem_cons, List.forall_mem_map]
  refine ⟨nofun, fun q _ => ?_⟩
  have hq : openingCommand (sentFrame (writeFrame q)) = some (.setAddress q.1) := decodeWire_setAddress q.1
  rw [hq]
  nofun

/-- No frame but that of `setBrightness` of a level other than 0 opens with DISPLAY_ON. -/
theorem openingCommand_framesOf (p : Params) {o : HostOp} (ho : ∀ level, o = .setBrightness level → level = 0x00#8)
    (b : BitVec 3) : ∀ vs ∈ framesOf p o, openingCommand (sentFrame vs) ≠ some (.displayOn b) := by
  cases o with
  | init _ _ _ | clear =>
    simp only [framesOf, List.forall_mem_cons, List.not_mem_nil, false_imp_iff, implies_true, and_true]
    exact ⟨nofun, nofun⟩
  | setBrightness l =>
    obtain rfl := ho l rfl
    exact List.forall_mem_singleton.2 nofun
  | setLeds m => rw [framesOf_leds]; exact openingCommand_mode_writes _ b
  | readKeys => exact List.forall_mem_singleton.2 nofun
  | showDigits x => rw [framesOf_show]; exact openingCommand_mode_writes _ b

theorem openingCommand_framesAdded (s : State) {o : HostOp} (ho : ∀ level, o = .setBrightness level → level = 0x00#8)
    (b : BitVec 3) : ∀ f ∈ s.framesAdded o, openingCommand f ≠ some (.displayOn b) := by
  rw [State.framesAdded, List.forall_mem_append, List.forall_mem_map]
  refine ⟨openingCommand_framesOf s.params ho b, ?_⟩
  split
  · exact List.forall_mem_singleton.2 nofun
  · exact List.forall_mem_nil _

/-- `setBrightness` of a level other than 0 adds the one frame of DISPLAY_ON (41_command_layer.md R103). -/
theorem framesAdded_brightness (s : State) {level : Byte} (h0 : level ≠ 0x00#8) :
    s.framesAdded (.setBrightness level) =
      [[.out (0x88#8 + (BitVec.ofNat 3 (min level.toNat 8 - 1)).zeroExtend 8)]] := by
  rw [framesAdded_of_ne (o := .setBrightness level) nofun, framesOf, brightnessByte_of_ne_zero h0, encodeWire_displayOn_eq_add]
  rfl

/-- Settles O55: the effect is the command's; the frames of each operation are known, and so is the command that opens each. -/
theorem displayOnIsSentBySetBrightness : Obligations.DisplayOnIsSentBySetBrightness := by
  refine ⟨fun s b => ⟨_, exec_wireCmd (.displayOn b) s, rfl, rfl, rfl⟩, fun s level h h0 => ?_, fun s o h ho => ?_,
    decode_of_encode rfl⟩
  · obtain ⟨t, hexec, hframes⟩ := exec_frames h
    refine ⟨t, BitVec.ofNat 3 (min level.toNat 8 - 1), hexec, ?_, by rw [hframes, framesAdded_brightness s h0]⟩
    rw [BitVec.toNat_ofNat, Nat.mod_eq_of_lt (by omega)]
  · obtain ⟨t, hexec, hframes⟩ := exec_frames h
    refine ⟨t, s.framesAdded o, hexec, hframes, ?_⟩
    rintro _ hf b rest rfl
    exact openingCommand_framesAdded s ho b _ hf (openingCommand_displayOn b rest)

end Sys2Proof.Machine
end

section
/-! PROOF. The transport primitives on their own with the data line turned the wrong way: CONTENTION at the first event that
the direction refuses (spec 60_exceptions.md R152, 40_bit_transport.md R90 to R92). -/

namespace Sys2Proof.Machine

/-- An event that is refused after `Clk(0)` and its register updates stops a sequence there. -/
theorem runMicros_refused {pre : List RegOp} {op : LineOp} {s : State} {r : FaultRecord} (ms : List Micro) (hs : Safe s)
    (hrx : s.device.rx = none) (hpre : ∀ o ∈ pre, o.isBind = false)
    (hop : lineOp op (driveClk false (regOps pre s)) = raiseFault r (driveClk false (regOps pre s))) :
    runMicros ({ pre := pre, op := .clk false } :: .plain op :: ms) s = raiseFault r (driveClk false (regOps pre s)) := by
  have hs1 : (regOps pre s).stopped = false := (regOps_stopped pre hpre s).trans hs
  have hs2 : (driveClk false (regOps pre s)).stopped = false := hs1
  have hrx2 : (driveClk false (regOps pre s)).device.rx = none := by rw [driveClk_device, regOps_device, hrx]
  have hrx3 : (raiseFault r (driveClk false (regOps pre s))).device.rx = none := hrx2
  have hclk : perform { pre := pre, op := .clk false } s = driveClk false (regOps pre s) := by
    rw [regOps] at hs1 hs2 ⊢
    simp [perform, hs1, lineOp, hs2, completed]
  have hrefused : perform (.plain op) (driveClk false (regOps pre s)) = raiseFault r (driveClk false (regOps pre s)) := by
    simp [perform, Micro.plain, hs2, hop]
  refine (runMicros_cons_of (t := driveClk false (regOps pre s)) ?_ hs2).trans
    (runMicros_cons_stop (t := raiseFault r (driveClk false (regOps pre s))) ?_ (stopped_raiseFault _ _))
  · rw [hclk, settle_of_noRx hrx2]
  · rw [hrefused, settle_of_noRx hrx3]

/-- A transport primitive that a fault stops: the state of the fault, without the last register updates. -/
theorem runTransport_of_raised {ms : List Micro} {post : List RegOp} {s t : State} {r : FaultRecord} (hs : Safe s)
    (h : runMicros ms s = raiseFault r t) : runTransport ms post s = .next (raiseFault r t) := by
  simp [runTransport, hs, h]

theorem driveDio_of_inp {s : State} (hd : s.engine.dir = .inp) (b : Bool) :
    driveDio b s = raiseFault (.contention (.dio b)) s := by
  rw [driveDio, hd]

theorem sampleOp_of_out {s : State} (hd : s.engine.dir = .out) : sampleOp s = raiseFault (.contention .sample) s := by
  rw [sampleOp, hd]

/-- Where `writeByte(v)` stands after its first `Clk(0)`. -/
def State.writeStarted (s : State) (v : Byte) : State :=
  driveClk false (s.setRegs { s.engine.regs with txb := v, biti := 0 })

/-- `writeByte(v)` with the data line an input stops at its first `Dio` event, whatever was to follow (R90, R152). -/
theorem runMicros_writeByteSeq_of_inp (v : Byte) (ms : List Micro) {s : State} (hs : Safe s) (hd : s.engine.dir = .inp)
    (hrx : s.device.rx = none) :
    runMicros (writeByteSeq (.lit v) ++ ms) s = raiseFault (.contention (.dio (v.getLsbD 0))) (s.writeStarted v) :=
  runMicros_refused (pre := [.loadTx (.lit v), .bit 0]) (op := .dioTx) _ hs hrx (by simp [RegOp.isBind])
    (driveDio_of_inp (s := s.writeStarted v) hd _)

/-- Settles O20: the first bit of `writeByte` is refused after its `Clk(0)`. -/
theorem writeByteWhileInputRaisesContention : Obligations.WriteByteWhileInputRaisesContention := by
  intro s v hs hd hrx
  have hrun := runMicros_writeByteSeq_of_inp v [] hs hd hrx
  rw [List.append_nil] at hrun
  exact runTransport_of_raised (post := []) hs hrun

/-- Settles O22: the first sample of `readByte` is refused after its `Clk(0)`, before an answer is drawn. -/
theorem readByteWhileOutputRaisesContention : Obligations.ReadByteWhileOutputRaisesContention := fun s hs hd hrx =>
  runTransport_of_raised hs (runMicros_refused (pre := [.clearRx, .bit 0]) (op := .sample) _ hs hrx
    (by simp [RegOp.isBind]) (sampleOp_of_out hd))

/-- Settles O24: the strobe and its delay open the frame, then the first byte is refused as `writeByte` is. -/
theorem transactWhileInputRaisesContention : Obligations.TransactWhileInputRaisesContention := by
  intro s v bs hs hd hrx
  have hfirst := runMicros_writeByteSeq_of_inp (s := (strobeLow s).emit .wait) v
    ([.plain .wait] ++ (bs.map Src.lit).flatMap sendSeq ++ [.plain (.stb true), .plain .wait]) hs hd hrx
  have hseq : transactSeq ((v :: bs).map .lit) = .plain (.stb false) :: ([.plain .wait] ++ (writeByteSeq (.lit v) ++
      ([.plain .wait] ++ (bs.map Src.lit).flatMap sendSeq ++ [.plain (.stb true), .plain .wait]))) := by
    simp [transactSeq, sendSeq]
  have hrun : runMicros (transactSeq ((v :: bs).map .lit)) s =
      raiseFault (.contention (.dio (v.getLsbD 0))) (((strobeLow s).emit .wait).writeStarted v) := by
    rw [hseq, runMicros_cons_of (settle_perform_stb false hs hrx) hs]
    exact (runMicros_append_of (s := strobeLow s) hs (runMicros_wait _ hs hrx) hs).trans hfirst
  refine (runTransport_of_raised hs hrun).trans ?_
  simp [State.writeStarted, driveClk, State.emit, State.setRegs, strobeLow, raiseFault, Device.frameOpens, FaultSet.add,
    FaultRecord.code, Level.ofBool]

end Sys2Proof.Machine
end

section
/-! PROOF. A host operation that does not come to its first event: the engine is stopped, busy or unbound, or the pins of an
INIT fail their check (spec 60_exceptions.md R150, R151, R153, R154, 41_command_layer.md R100, R101). -/

namespace Sys2Proof.Machine

/-! ### The envelope refuses -/

theorem exec_hostOp (o : HostOp) (s : State) : exec o.instr s = runHostOp o s := by
  cases o <;> rfl

/-- The envelope of a busy engine raises BUSY before any other check (R156). -/
theorem envelope_of_busy {s : State} (hb : s.engine.busy = true) (r : Request) : envelope r s = raiseFault (.busy r) s :=
  if_pos hb

theorem envelope_of_unbound {s : State} {o : HostOp} (hb : s.engine.busy = false) (hi : o.isInit = false)
    (hbind : s.engine.bind = none) : envelope (.op o) s = raiseFault (.notInitialized o) s := by
  simp [envelope, hb, hi, hbind]

/-- The envelope of an idle engine refuses an operation for its missing binding only (R100, R151). -/
theorem envelope_op_of_idle {s : State} (hb : s.engine.busy = false) (o : HostOp) :
    envelope (.op o) s = raiseFault (.notInitialized o) s ∨ envelope (.op o) s = issueOp o s := by
  by_cases hbound : o.isInit = false → s.engine.bind.isSome = true
  · exact .inr (envelope_op hb hbound)
  · obtain ⟨hi, hbind⟩ := Classical.not_imp.1 hbound
    exact .inl (envelope_of_unbound hb hi (by simpa using hbind))

/-- An operation that its envelope refuses performs no event. -/
theorem runHostOp_of_raised {s : State} {o : HostOp} {f : FaultRecord} (hs : Safe s)
    (h : envelope (.op o) s = raiseFault f s) : runHostOp o s = .next (raiseFault f s) := by
  simp [runHostOp, hs, h]

/-- An operation that its envelope accepts performs its event sequence. -/
theorem runHostOp_of_issued {s : State} {o : HostOp} (hs : Safe s) (h : envelope (.op o) s = issueOp o s) :
    runHostOp o s = .next (runMicros (opSeq o) (issueOp o s)) := by
  have hs' : (issueOp o s).stopped = false := hs
  simp [runHostOp, hs, h, hs']

/-- Settles O16: the first check of the envelope fails. -/
theorem operationWhileBusyRaisesBusy : Obligations.OperationWhileBusyRaisesBusy := by
  intro s o hs hb
  rw [exec_hostOp, runHostOp_of_raised hs (envelope_of_busy hb (.op o))]
  rfl

/-- Settles O12: the last check of the envelope fails. -/
theorem unboundOperationRaisesNotInitialized : Obligations.UnboundOperationRaisesNotInitialized := by
  intro s o hs hb hi hbind
  rw [exec_hostOp, runHostOp_of_raised hs (envelope_of_unbound hb hi hbind)]
  rfl

/-- Settles O14: the engine takes the command, and the envelope raises BUSY whatever it decodes to. -/
theorem commandWhileBusyRaisesBusy : Obligations.CommandWhileBusyRaisesBusy := by
  intro s c hs hrx hb hport
  rw [step_takes_command hs hrx hport, accept,
    envelope_of_busy (s := { s with host := { s.host with port := none } }) hb]
  rfl

/-! ### The pin check of INIT -/

/-- Two equal pins, or one that is not configurable, fail the check (R101). -/
theorem pinsGood_eq_false {p : Params} {c d t : PinId} (h : c = d ∨ d = t ∨ c = t ∨ p.configurable c = false ∨
    p.configurable d = false ∨ p.configurable t = false) : pinsGood p c d t = false := by
  rcases h with h | h | h | h | h | h <;> simp [pinsGood, h]

/-- An element whose pin check fails performs no event. -/
theorem perform_bindPins_bad {s : State} {c d t : PinId} (h : pinsGood s.params c d t = false) (op : LineOp) :
    perform { pre := [.bindPins c d t], op := op } s = raiseFault (.badPin c d t) s := by
  simp [perform, regOp, bindOp, h]

/-- Settles O13: the envelope issues the INIT, and its first element fails the pin check. -/
theorem initWithBadPinsRaisesBadPin : Obligations.InitWithBadPinsRaisesBadPin := by
  intro s c d t hs hb hrx hpins
  have hperform := perform_bindPins_bad (s := issueOp (.init c d t) s) (pinsGood_eq_false hpins) (.mode c)
  have hrun : runMicros (opSeq (.init c d t)) (issueOp (.init c d t) s) =
      raiseFault (.badPin c d t) (issueOp (.init c d t) s) :=
    runMicros_cons_stop (by rw [hperform]; exact settle_of_noRx hrx) (stopped_raiseFault _ _)
  refine (runHostOp_of_issued hs (envelope_op (o := .init c d t) hb nofun)).trans ?_
  rw [hrun]
  rfl

/-! ### A stopped engine -/

/-- In a stopped machine no act but a power-on is due (R159). -/
theorem dueAct_of_stopped {s : State} (hs : s.stopped = true) (h : ∀ d rest, s.host.script ≠ .powerOn d :: rest) :
    dueAct s = none := by
  have hany : s.engine.fault.any = true := hs
  unfold dueAct
  cases hsc : s.host.script with
  | nil => rfl
  | cons a rest =>
    cases a with
    | call d c => simp [HostAct.isDue, hany]
    | buttons d b => simp [HostAct.isDue, hany]
    | powerOn d => exact absurd hsc (h d rest)

theorem runHostOp_of_stopped {s : State} (hs : s.stopped = true) (o : HostOp) : runHostOp o s = .fault .engineStopped := by
  rw [runHostOp, if_pos hs]

theorem runTransport_of_stopped {s : State} (hs : s.stopped = true) (ms : List Micro) (post : List RegOp) :
    runTransport ms post s = .fault .engineStopped := by
  rw [runTransport, if_pos hs]

/-- Settles O11: the step finds no act that is due; operations and primitives ask for an empty FAULT first. -/
theorem stoppedEngineTakesNoStep : Obligations.StoppedEngineTakesNoStep := by
  intro s hs
  refine ⟨fun hrx hscript => ?_, fun o => (exec_hostOp o s).trans (runHostOp_of_stopped hs o),
    fun v => runTransport_of_stopped hs _ _, runTransport_of_stopped hs _ _, fun bs => runTransport_of_stopped hs _ _⟩
  rw [step, hrx]
  show agentStep s = _
  rw [agentStep, if_pos hs, dueAct_of_stopped hs hscript]

end Sys2Proof.Machine
end

section
/-! PROOF. The sequencer (spec 60_exceptions.md R160, 10_state.md R27): what performing one element does to BUSY, CUR and SEQ
in any state; the step of a busy engine; a host that waits for `Done`; and the steps that amount to a whole operation. -/

namespace Sys2Proof.Machine

/-! ### What an element does to the sequencer -/

/-- `BUSY`, `CUR`, `SEQ` (R27), and the fault bit that only a command at the port sets (60_exceptions.md R154). -/
def Engine.sequencer (e : Engine) : Bool × Option HostOp × Nat × Bool := (e.busy, e.cur, e.seq, e.fault.busy)

theorem regOp_sequencer (o : RegOp) (s : State) : (regOp o s).engine.sequencer = s.engine.sequencer := by
  cases o with
  | bindPins c d t =>
    show (bindOp c d t s).engine.sequencer = _
    unfold bindOp
    split <;> rfl
  | _ => rfl

theorem regOps_sequencer (pre : List RegOp) (s : State) : (regOps pre s).engine.sequencer = s.engine.sequencer := by
  induction pre generalizing s with
  | nil => rfl
  | cons o pre ih => exact (ih _).trans (regOp_sequencer o s)

theorem completed_sequencer (k : Mark) (s : State) : (completed k s).engine.sequencer = s.engine.sequencer := by
  unfold completed
  split <;> rfl

/-- An event other than `Done` is refused, or takes SEQ one further and nothing else of the sequencer. -/
theorem lineOp_sequencer {o : LineOp} (ho : o ≠ .done) (s : State) :
    (∃ r, lineOp o s = raiseFault (.contention r) s) ∨
    (lineOp o s).engine.sequencer = (s.engine.busy, s.engine.cur, s.engine.seq + 1, s.engine.fault.busy) := by
  cases o with
  | done => exact absurd rfl ho
  | stb b => cases b <;> exact .inr rfl
  | dioTx =>
    cases hd : s.engine.dir with
    | inp => exact .inl ⟨_, driveDio_of_inp hd _⟩
    | out =>
      right
      show (driveDio _ s).engine.sequencer = _
      rw [driveDio, hd]
      rfl
  | sample =>
    cases hd : s.engine.dir with
    | out => exact .inl ⟨_, sampleOp_of_out hd⟩
    | inp =>
      right
      show (sampleOp s).engine.sequencer = _
      rw [sampleOp, hd]
      rfl
  | _ => exact .inr rfl

/-- Performing an element ends after the register updates, after the event, or with the byte it completes. -/
theorem perform_cases (m : Micro) (s : State) :
    ((regOps m.pre s).stopped = true ∧ perform m s = regOps m.pre s) ∨
    ((lineOp m.op (regOps m.pre s)).stopped = true ∧ perform m s = lineOp m.op (regOps m.pre s)) ∨
    ((lineOp m.op (regOps m.pre s)).stopped = false ∧ perform m s = completed m.mark (lineOp m.op (regOps m.pre s))) := by
  by_cases h1 : (regOps m.pre s).stopped = true
  · exact .inl ⟨h1, if_pos h1⟩
  · by_cases h2 : (lineOp m.op (regOps m.pre s)).stopped = true
    · exact .inr (.inl ⟨h2, (if_neg h1).trans (if_pos h2)⟩)
    · exact .inr (.inr ⟨Bool.eq_false_iff.2 h2, (if_neg h1).trans (if_neg h2)⟩)

theorem lineOp_fault_busy (o : LineOp) (s : State) : (lineOp o s).engine.fault.busy = s.engine.fault.busy := by
  by_cases ho : o = .done
  · subst ho; rfl
  · rcases lineOp_sequencer ho s with ⟨r, h⟩ | h
    · rw [h]; rfl
    · exact congrArg (·.2.2.2) h

/-- No element raises BUSY. -/
theorem perform_fault_busy (m : Micro) (s : State) : (perform m s).engine.fault.busy = s.engine.fault.busy := by
  have hpre : (regOps m.pre s).engine.fault.busy = s.engine.fault.busy := congrArg (·.2.2.2) (regOps_sequencer m.pre s)
  have hline := (lineOp_fault_busy m.op (regOps m.pre s)).trans hpre
  rcases perform_cases m s with ⟨-, h⟩ | ⟨-, h⟩ | ⟨-, h⟩
  · rw [h, hpre]
  · rw [h, hline]
  · rw [h, ← hline]
    exact congrArg (·.2.2.2) (completed_sequencer _ _)

/-- An element other than `Done` that raises no fault takes SEQ one further (R160). -/
theorem perform_sequencer {m : Micro} (hm : m.op ≠ .done) {s : State} (hs : Safe (perform m s)) :
    (perform m s).engine.sequencer = (s.engine.busy, s.engine.cur, s.engine.seq + 1, s.engine.fault.busy) := by
  have hpre := regOps_sequencer m.pre s
  simp only [Engine.sequencer, Prod.mk.injEq] at hpre
  obtain ⟨hbusy, hcur, hseq, hfault⟩ := hpre
  rcases perform_cases m s with ⟨hst, h⟩ | ⟨hst, h⟩ | ⟨hst, h⟩
  · rw [← h, hs] at hst; cases hst
  · rw [← h, hs] at hst; cases hst
  · rcases lineOp_sequencer hm (regOps m.pre s) with ⟨r, hr⟩ | hr
    · rw [hr, stopped_raiseFault] at hst; cases hst
    · rw [h, completed_sequencer, hr, hbusy, hcur, hseq, hfault]

/-! ### The step of a busy engine -/

/-- With nothing at the Device or the port and no act due, the step of a busy engine is its tick (log 4). -/
theorem step_of_busy {s : State} (hs : Safe s) (hrx : s.device.rx = none) (hport : s.host.port = none)
    (hdue : dueAct s = none) (hb : s.engine.busy = true) : step s = tick s := by
  rw [step, hrx]
  show agentStep s = _
  rw [agentStep, hs, if_neg Bool.false_ne_true, hport, hdue]
  exact if_pos hb

/-- Settles O6: the four things a tick can do; the binding of INIT is one event with the pins it binds. -/
theorem busyStepPerformsOneEvent : Obligations.BusyStepPerformsOneEvent := by
  intro s hi hs hrx hport hdue hb
  obtain ⟨t, ht, hcases⟩ := tick_cases s hi hs hb
  refine ⟨t, (step_of_busy hs hrx hport hdue hb).trans ht, ?_⟩
  rcases hcases with ⟨o, m, -, -, hp, -, -⟩ | ⟨o, m, -, -, -, rfl, -, hpre, -⟩ | ⟨c, d, p, hcur, hseq, hgood, rfl⟩ |
    ⟨c, d, p, -, -, -, -, rfl⟩
  · obtain ⟨e, htrace⟩ := hp.trace
    have hst : Safe t := by rw [Safe, stopped_eq, hp.fault]; exact hs
    exact .inl ⟨e, htrace, hp.busy.trans hb, hp.cur, hp.seq, hst⟩
  · have htrace : (regOps m.pre s).engine.trace = s.engine.trace := (regOps_updated m.pre hpre s).trace
    have hst : Safe (finish (regOps m.pre s)) := (regOps_stopped m.pre hpre s).trans hs
    exact .inr (.inl ⟨doneResult (regOps m.pre s).engine, by rw [finish_engine, htrace], rfl, rfl, rfl, hst⟩)
  · exact .inr (.inr ⟨c, d, p, hcur, hgood, hseq, rfl, rfl, rfl, hb, rfl, hseq, rfl⟩)
  · exact .inl ⟨.mode c, rfl, hb, rfl, rfl, hs⟩

/-! ### A host that waits for `Done` -/

/-- The act that the host performs meets the condition of its kind (R159, R184). -/
theorem isDue_of_dueAct {s : State} {a : HostAct} {rest : List HostAct} (h : dueAct s = some (a, rest)) :
    a.isDue s.engine = true := by
  simpa [dueAct, script_of_dueAct h] using h

/-- A call that waits for `Done` is due when the engine is idle only. -/
theorem idle_of_call_isDue {d : Option Nat} {c : Command} {e : Engine} (hw : (HostAct.call d c).waitsForDone = true)
    (h : (HostAct.call d c).isDue e = true) : e.busy = false := by
  cases d with
  | some k => cases hw
  | none =>
    simp only [HostAct.isDue, Machine.isDue, Bool.and_eq_true, Bool.or_false, Bool.not_eq_true'] at h
    exact h.2

/-- The envelope of an idle engine does not raise BUSY (R154). -/
theorem envelope_fault_busy {s : State} (hb : s.engine.busy = false) (r : Request) :
    (envelope r s).engine.fault.busy = s.engine.fault.busy := by
  cases r with
  | reserved tag => rw [envelope_reserved hb]; rfl
  | op o =>
    rcases envelope_op_of_idle hb o with he | he <;> rw [he] <;> rfl

/-- Settles O15: of the five kinds of step only an act of the host puts a command at the port, when the engine is idle, and
only the envelope of a busy engine raises BUSY. -/
theorem waitingHostNeverRaisesBusy : Obligations.WaitingHostNeverRaisesBusy := by
  rintro s t ⟨hscript, hport⟩ h
  cases step_outcome h with
  | device v _ => exact ⟨⟨hscript, hport⟩, id⟩
  | act a rest hdue =>
    rw [script_of_dueAct hdue, List.forall_mem_cons] at hscript
    obtain ⟨ha, hrest⟩ := hscript
    cases a with
    | call d c =>
      have hidle : s.engine.busy = false := idle_of_call_isDue ha (isDue_of_dueAct hdue)
      exact ⟨⟨hrest, fun _ => hidle⟩, id⟩
    | buttons d b => exact ⟨⟨hrest, hport⟩, id⟩
    | powerOn d => exact ⟨⟨hrest, nofun⟩, nofun⟩
  | accept c _ hc =>
    have hhost : (accept c s).host = { s.host with port := none } := (kept_accept c s).host
    have hidle : s.engine.busy = false := hport (by rw [hc]; rfl)
    refine ⟨⟨by rw [hhost]; exact hscript, fun hp => by rw [hhost] at hp; cases hp⟩, fun hf => ?_⟩
    exact (envelope_fault_busy (s := { s with host := { s.host with port := none } }) hidle _).symm.trans hf
  | tick _ _ _ hb ht =>
    have hhost : t.host = s.host := (kept_tick ht).host
    refine ⟨⟨by rw [hhost]; exact hscript, fun hp => ?_⟩, fun hf => ?_⟩
    · rw [hport (hhost ▸ hp)] at hb; cases hb
    · obtain ⟨m, rfl⟩ := tick_performs ht
      exact (perform_fault_busy m s).symm.trans hf
  | wait => exact ⟨⟨hscript, hport⟩, id⟩

/-! ### The steps of a whole operation -/

/-- The engine is in the middle of `o`, with no command at the port and a host that waits for its `Done`. -/
structure Running (o : HostOp) (s : State) : Prop where
  busy : s.engine.busy = true
  cur : s.engine.cur = some o
  port : s.host.port = none
  waits : ∀ a ∈ s.host.script.head?, a.waitsForDone = true

/-- No act of a host that waits for `Done` is due while the engine is busy (R184). -/
theorem dueAct_of_waits {s : State} (hs : Safe s) (hb : s.engine.busy = true)
    (hw : ∀ a ∈ s.host.script.head?, a.waitsForDone = true) : dueAct s = none := by
  have hany : s.engine.fault.any = false := hs
  have hdue (d : Option Nat) (hd : d.isNone = true) : isDue d s.engine = false := by
    cases Option.isNone_iff_eq_none.1 hd
    simp [isDue, hb]
  unfold dueAct
  cases hsc : s.host.script with
  | nil => rfl
  | cons a rest =>
    have ha : a.waitsForDone = true := hw a (by rw [hsc]; rfl)
    cases a <;> simp [HostAct.isDue, hany, hdue _ ha]

/-- The step of a running operation performs its element at SEQ. -/
theorem Running.step_eq {o : HostOp} {s : State} {m : Micro} (h : Running o s) (hs : Safe s) (hrx : s.device.rx = none)
    (hm : (opSeq o)[s.engine.seq]? = some m) : step s = .next (perform m s) := by
  rw [step_of_busy hs hrx h.port (dueAct_of_waits hs h.busy h.waits) h.busy, tick, h.cur]
  simp only [hm]

/-- An element of an operation's sequence that is not the last is not its `Done` (R27). -/
theorem op_ne_done_of_lt {o : HostOp} {n : Nat} {m : Micro} (hm : (opSeq o)[n]? = some m) (hlt : n + 1 < (opSeq o).length) :
    m.op ≠ .done := by
  have hfits {c : Ctl} (h : m.fits c = true) : m.op ≠ .done := fun hop => by simp [Micro.fits, hop] at h
  rcases complete_from_start o Ctl.idle rfl rfl (fun _ => rfl) with ⟨-, hc⟩ | ⟨a, d, t, ms, rfl, heq, hc⟩
  · rcases element_of_complete hc n m hm with ⟨hf, -⟩ | ⟨-, -, hlast, -⟩
    · exact hfits hf
    · omega
  · rw [heq] at hm hlt
    cases n with
    | zero =>
      cases hm
      nofun
    | succ n =>
      rcases element_of_complete hc n m hm with ⟨hf, -⟩ | ⟨-, -, hlast, -⟩
      · exact hfits hf
      · simp only [List.length_cons] at hlt
        omega

theorem settle_rx (s : State) : (settle s).device.rx = none := by
  cases hrx : s.device.rx with
  | none => rw [settle_of_noRx hrx, hrx]
  | some v => rw [settle_of_rx hrx]; exact act_rx v _

theorem settle_engine (s : State) : (settle s).engine = s.engine := by
  cases hrx : s.device.rx with
  | none => rw [settle_of_noRx hrx]
  | some v => rw [settle_of_rx hrx]

/-- An element of a running operation that is neither its last nor raises a fault leaves it running, one element further. -/
theorem Running.next {o : HostOp} {s : State} {m : Micro} (h : Running o s) (hm : m.op ≠ .done) (hs : Safe (perform m s)) :
    Running o (settle (perform m s)) ∧ (settle (perform m s)).engine.seq = s.engine.seq + 1 := by
  have hseq := perform_sequencer hm hs
  simp only [Engine.sequencer, Prod.mk.injEq] at hseq
  obtain ⟨hbusy, hcur, hseq, -⟩ := hseq
  have hkept : Kept False False s (settle (perform m s)) :=
    (kept_perform m s False.elim False.elim).trans (kept_settle _)
  have hengine := settle_engine (perform m s)
  refine ⟨⟨?_, ?_, by rw [hkept.host]; exact h.port, by rw [hkept.host]; exact h.waits⟩, by rw [hengine, hseq]⟩
  · rw [hengine, hbusy, h.busy]
  · rw [hengine, hcur, h.cur]

/-- Some number of steps leads from `s` to `t`. -/
def Reaches (s t : State) : Prop := ∃ n, Host.Core.run Sys2Proof.core n s = .next t

theorem Reaches.refl (s : State) : Reaches s s := ⟨0, run_zero Sys2Proof.core s⟩

theorem Reaches.of_step {s t : State} (h : step s = .next t) : Reaches s t :=
  ⟨1, (run_next Sys2Proof.core s t 0 h).trans (run_zero Sys2Proof.core t)⟩

theorem Reaches.trans {s t u : State} (h : Reaches s t) (h' : Reaches t u) : Reaches s u :=
  have ⟨a, ha⟩ := h
  have ⟨b, hb⟩ := h'
  ⟨a + b, (run_append Sys2Proof.core a b s t ha).trans hb⟩

/-- The Device acts on a byte that waits at it in a step of its own. -/
theorem reaches_settle (s : State) : Reaches s (settle s) := by
  cases hrx : s.device.rx with
  | none => rw [settle_of_noRx hrx]; exact .refl s
  | some v => rw [settle_of_rx hrx]; exact .of_step (step_of_rx hrx)

/-- The steps of a running operation perform what is left of its sequence, or stop at the fault that stops it. -/
theorem Running.reaches_runMicros {o : HostOp} {ms : List Micro} {s : State} (h : Running o s) (hs : Safe s)
    (hrx : s.device.rx = none) (hms : (opSeq o).drop s.engine.seq = ms) : Reaches s (runMicros ms s) := by
  induction ms generalizing s with
  | nil => exact .refl s
  | cons m ms ih =>
    have hm : (opSeq o)[s.engine.seq]? = some m := by rw [← List.head?_drop, hms]; rfl
    have hlen : (opSeq o).length - s.engine.seq = ms.length + 1 := by rw [← List.length_drop, hms]; rfl
    have hone : Reaches s (settle (perform m s)) := (Reaches.of_step (h.step_eq hs hrx hm)).trans (reaches_settle _)
    cases hst : (settle (perform m s)).stopped with
    | true => rw [runMicros_cons_stop rfl hst]; exact hone
    | false =>
      rw [runMicros_cons_of rfl hst]
      cases ms with
      | nil => exact hone
      | cons m' ms' =>
        have hdone : m.op ≠ .done := op_ne_done_of_lt hm (by simp only [List.length_cons] at hlen; omega)
        obtain ⟨hrun, hseq⟩ := h.next hdone ((stopped_settle _).symm.trans hst)
        refine hone.trans (ih hrun hst (settle_rx _) ?_)
        rw [hseq, ← List.tail_drop, hms, List.tail_cons]

/-- Settles O4: the first step is the envelope, which raises a fault or issues the operation, and the steps after it perform
the sequence. -/
theorem stepsRunTheHostOperation : Obligations.StepsRunTheHostOperation := by
  intro s c o hs hrx hport hdec hw
  generalize hs0 : ({ s with host := { s.host with port := none } } : State) = s0
  have hsafe : Safe s0 := hs0 ▸ hs
  have hfirst : step s = .next (envelope (.op o) s0) := by
    rw [step_takes_command hs hrx hport, accept, request_of_decodePort hdec, hs0]
  have hraised (f : FaultRecord) (he : envelope (.op o) s0 = raiseFault f s0) :
      ∃ n, Host.Core.run Sys2Proof.core n s = runHostOp o s0 := by
    rw [runHostOp_of_raised hsafe he, ← he]
    exact Reaches.of_step hfirst
  rw [exec_hostOp]
  cases hb : s0.engine.busy with
  | true => exact hraised _ (envelope_of_busy hb _)
  | false =>
    rcases envelope_op_of_idle hb o with he | he
    · exact hraised _ he
    · rw [he] at hfirst
      rw [runHostOp_of_issued hsafe he]
      have hrun : Running o (issueOp o s0) := ⟨rfl, rfl, by rw [← hs0]; rfl, by rw [← hs0]; exact hw⟩
      exact (Reaches.of_step hfirst).trans (hrun.reaches_runMicros hsafe (by rw [← hs0]; exact hrx) rfl)

end Sys2Proof.Machine
end

section
/-! PROOF. An engine with nothing to do waits, and a host that waits for `Done` calls an idle engine (spec
70_reset_and_hazards.md R170, R184). -/

namespace Sys2Proof.Machine

/-- With nothing at the Device or the port, no act due and no operation running, a step changes nothing (R170). -/
theorem step_of_idle {s : State} (hs : Safe s) (hrx : s.device.rx = none) (hport : s.host.port = none)
    (hdue : dueAct s = none) (hb : s.engine.busy = false) : step s = .next s := by
  rw [step, hrx]
  show agentStep s = _
  rw [agentStep, hs, if_neg Bool.false_ne_true, hport, hdue]
  exact if_neg (by rw [hb]; exact Bool.false_ne_true)

/-- With nothing at the Device or the port of a machine without a fault, a step performs the act that is due (log 4). -/
theorem step_of_due {s : State} {a : HostAct} {rest : List HostAct} (hs : Safe s) (hrx : s.device.rx = none)
    (hport : s.host.port = none) (hdue : dueAct s = some (a, rest)) : step s = .next (hostAct a rest s) := by
  rw [step, hrx]
  show agentStep s = _
  rw [agentStep, hs, if_neg Bool.false_ne_true, hport, hdue]

/-- Settles O7: none of the agents has anything to do, at power-on as elsewhere. -/
theorem idleEngineWaits : Obligations.IdleEngineWaits :=
  ⟨fun _ => step_of_idle, step_of_idle rfl rfl rfl rfl rfl⟩

/-- A call that waits for `Done` is due when the engine is idle (R184). -/
theorem dueAct_of_idle_call {s : State} {c : Command} {rest : List HostAct} (hs : Safe s)
    (hscript : s.host.script = .call none c :: rest) (hb : s.engine.busy = false) :
    dueAct s = some (.call none c, rest) := by
  have hany : s.engine.fault.any = false := hs
  simp [dueAct, hscript, HostAct.isDue, isDue, hany, hb]

/-- Settles O8: the call is the act that is due for an idle engine; for a busy one no act is. -/
theorem waitingHostCallsWhenIdle : Obligations.WaitingHostCallsWhenIdle := by
  intro s c rest hs hrx hport hscript
  refine ⟨fun hb => step_of_due hs hrx hport (dueAct_of_idle_call hs hscript hb), fun hb => ?_⟩
  have hwaits : ∀ a ∈ s.host.script.head?, a.waitsForDone = true := by
    rw [hscript]
    rintro a ⟨⟩
    rfl
  exact step_of_busy hs hrx hport (dueAct_of_waits hs hb hwaits) hb

end Sys2Proof.Machine
end

section
/-! PROOF. What the events of every operation keep (spec 70_reset_and_hazards.md): a `Wait` in each half-period of the clock
(R181), the direction rules of the data line (R182), frame integrity (R185). Each of the three is a check that reads the
events one by one; all three follow the same rules through the pieces of an operation (`EventRules`). -/

namespace Sys2Proof.Machine

/-! ### The events of an operation -/

/-- The events of INIT before its CLEAR_BODY (41_command_layer.md R101). -/
def bindEvents (c d t : PinId) : List Event := [.mode c, .mode d, .mode t, .clk true, .stb true]

/-- The events an operation begins with, before its frames. -/
def lineEvents : HostOp → List Event
  | .init c d t => bindEvents c d t
  | .clear | .setBrightness _ | .setLeds _ | .readKeys | .showDigits _ => []

/-- The events of an operation accepted in this state, between its `Issue` and its `Done`. -/
def State.eventsAdded (s : State) (o : HostOp) : List Event :=
  lineEvents o ++ (framesOf s.params o).flatMap transactEvents ++ if o = .readKeys then keyFrameEvents s.env.answer else []

/-- What an accepted operation leaves of the trace, the byte-level view and STB. -/
structure Ran (s : State) (o : HostOp) (r : Option Byte) (t : State) : Prop where
  trace : t.engine.trace = s.engine.trace ++ .issue o :: s.eventsAdded o ++ [.done r]
  frames : t.engine.frames = s.engine.frames ++ s.framesAdded o
  stb : t.engine.stb = .high

theorem Ran.trace_append {s t : State} {o : HostOp} {r : Option Byte} (h : Ran s o r t) :
    t.engine.trace = s.engine.trace ++ (.issue o :: s.eventsAdded o ++ [.done r]) :=
  h.trace.trans (List.append_assoc _ _ _)

theorem eventsAdded_of_onlySends {o : HostOp} (ho : onlySends o = true) (s : State) :
    s.eventsAdded o = (framesOf s.params o).flatMap transactEvents := by
  cases o with
  | init _ _ _ | readKeys => cases ho
  | clear | setBrightness _ | setLeds _ | showDigits _ => simp [State.eventsAdded, lineEvents]

theorem ran_onlySends {s : State} {o : HostOp} (h : Accepts s o) (ho : onlySends o = true) {v : Byte} {vs : List Byte}
    {fs : List (List Byte)} (hfs : framesOf s.params o = (v :: vs) :: fs) :
    ∃ t, exec o.instr s = .next t ∧ Ran s o none t := by
  have hne : o ≠ .readKeys := by rintro rfl; cases ho
  refine ⟨_, exec_onlySends_eq h ho hfs, ?_, ?_, rfl⟩
  · rw [eventsAdded_of_onlySends ho, hfs]
    simp
  · rw [framesAdded_of_ne hne, hfs]

theorem ran_init {s : State} {c d p : PinId} (h : Accepts s (.init c d p)) :
    ∃ t, exec (.init c d p) s = .next t ∧ Ran s (.init c d p) none t := by
  refine ⟨_, runHostOp_init h, ?_⟩
  rw [framesOf, finish_transactedAll (s := (issueOp (.init c d p) s).bound c d p) rfl]
  exact {
    trace := by simp [State.bound, State.eventsAdded, lineEvents, bindEvents, framesOf, doneResult]
    frames := by
      rw [framesAdded_of_ne (o := .init c d p) nofun, framesOf]
      exact congrArg (· ++ _) (bound_frames (s := issueOp (.init c d p) s) h.noFrame c d p)
    stb := rfl }

theorem ran_readKeys {s : State} (h : Accepts s .readKeys) :
    ∃ t, exec .readKeys s = .next t ∧ Ran s .readKeys (some (keyMask s.env.reply)) t :=
  ⟨_, exec_readKeys_eq h, by simp [State.eventsAdded, lineEvents, framesOf], rfl, rfl⟩

/-- Every accepted operation completes, its events between `Issue` and `Done` known (R100 to R112). -/
theorem exec_ran {s : State} {o : HostOp} (h : Accepts s o) : ∃ t r, exec o.instr s = .next t ∧ Ran s o r t := by
  cases o with
  | init c d p =>
    obtain ⟨t, ht, hran⟩ := ran_init h
    exact ⟨t, none, ht, hran⟩
  | readKeys =>
    obtain ⟨t, ht, hran⟩ := ran_readKeys h
    exact ⟨t, _, ht, hran⟩
  | clear | setBrightness _ | setLeds _ | showDigits _ =>
    obtain ⟨t, ht, hran⟩ := ran_onlySends h rfl rfl
    exact ⟨t, none, ht, hran⟩

/-! ### Checking a list of events piece by piece -/

/-- From any state in `P` the check gets through these events to a state in `Q`: what comes after decides. -/
def Passes {σ : Type} (check : σ → List Event → Bool) (P : σ → Prop) (evs : List Event) (Q : σ → Prop) : Prop :=
  ∀ st rest, P st → (∀ st', Q st' → check st' rest = true) → check st (evs ++ rest) = true

section
variable {σ : Type} {check : σ → List Event → Bool} {P Q R : σ → Prop}

theorem Passes.nil : Passes check P [] P := fun st _ hP hrest => hrest st hP

theorem Passes.of_eq {a b : σ} {evs : List Event} (h : ∀ rest, check a (evs ++ rest) = check b rest) :
    Passes check (· = a) evs (· = b) := by
  rintro _ rest rfl hrest
  rw [h]
  exact hrest b rfl

theorem Passes.append {a b : List Event} (ha : Passes check P a Q) (hb : Passes check Q b R) : Passes check P (a ++ b) R := by
  intro st rest hP hrest
  rw [List.append_assoc]
  exact ha st _ hP fun st' hQ => hb st' rest hQ hrest

theorem Passes.flatMap {α : Type} {f : α → List Event} (h : ∀ x, Passes check P (f x) P) (l : List α) :
    Passes check P (l.flatMap f) P := by
  induction l with
  | nil => exact .nil
  | cons x l ih => exact (h x).append ih

end

/-- The rules a check of an operation's events follows: `outside` its frames, `sending` inside a frame with the data line
an output, `reading` with the line an input. -/
structure EventRules {σ : Type} (check : σ → List Event → Bool) (outside sending reading : σ → Prop) : Prop where
  issue : ∀ o, Passes check outside [.issue o] outside
  bind : ∀ c d t, Passes check outside (bindEvents c d t) outside
  opens : Passes check outside [.stb false, .wait] sending
  writeBit : ∀ b, Passes check sending (writeBitEvents b) sending
  sendWait : Passes check sending [.wait] sending
  turnIn : Passes check sending [.dirIn] reading
  readBit : ∀ b, Passes check reading (readBitEvents b) reading
  readWait : Passes check reading [.wait] reading
  turnOut : Passes check reading [.dirOut] sending
  closes : Passes check sending [.stb true, .wait] outside
  done : ∀ r, Passes check outside [.done r] outside
  ends : ∀ st, outside st → check st [] = true

section
variable {σ : Type} {check : σ → List Event → Bool} {outside sending reading : σ → Prop}

theorem EventRules.writeByte (h : EventRules check outside sending reading) (v : Byte) :
    Passes check sending (writeByteEvents v) sending :=
  .flatMap (fun _ => h.writeBit _) _

theorem EventRules.readByte (h : EventRules check outside sending reading) (bs : List Bool) :
    Passes check reading (readByteEvents bs) reading :=
  .flatMap h.readBit bs

/-- A frame sent by `transact` (40_bit_transport.md R92). -/
theorem EventRules.transact (h : EventRules check outside sending reading) (vs : List Byte) :
    Passes check outside (transactEvents vs) outside :=
  (h.opens.append (.flatMap (fun v => (h.writeByte v).append h.sendWait) vs)).append h.closes

/-- The key-read frame (41_command_layer.md R107 to R109). -/
theorem EventRules.keyFrame (h : EventRules check outside sending reading) (ans : Nat → Bool) :
    Passes check outside (keyFrameEvents ans) outside :=
  (((h.opens.append (h.writeByte _)).append (h.sendWait.append h.turnIn)).append
    (.flatMap (fun _ => (h.readByte _).append h.readWait) _)).append (h.turnOut.append h.closes)

theorem EventRules.lines (h : EventRules check outside sending reading) (o : HostOp) :
    Passes check outside (lineEvents o) outside := by
  cases o with
  | init c d t => exact h.bind c d t
  | clear | setBrightness _ | setLeds _ | readKeys | showDigits _ => exact .nil

theorem EventRules.eventsAdded (h : EventRules check outside sending reading) (s : State) (o : HostOp) :
    Passes check outside (s.eventsAdded o) outside := by
  refine ((h.lines o).append (.flatMap h.transact _)).append ?_
  split
  · exact h.keyFrame _
  · exact .nil

/-- A check that follows the rules accepts the events of every operation, `Issue` and `Done` included. -/
theorem EventRules.operation (h : EventRules check outside sending reading) (s : State) (o : HostOp) (r : Option Byte) {st : σ}
    (hst : outside st) : check st (.issue o :: s.eventsAdded o ++ [.done r]) = true := by
  have hall := ((h.issue o).append (h.eventsAdded s o)).append (h.done r) st [] hst h.ends
  rwa [List.append_nil] at hall

end

/-! ### A Wait in each half-period -/

/-- The clock's last level, if it has one, is high. -/
def ClockHigh (st : Option (Bool × Bool)) : Prop := ∀ q ∈ st, q.1 = true

/-- The clock's last level, if it has one, is high, and a `Wait` has come since. -/
def ClockRested (st : Option (Bool × Bool)) : Prop := ∀ q ∈ st, q = (true, true)

theorem ClockHigh.wait {st : Option (Bool × Bool)} (h : ClockHigh st) : ClockRested (st.map fun q => (q.1, true)) := by
  intro q hq
  obtain ⟨p, hp, rfl⟩ := Option.mem_map.1 hq
  rw [h p hp]

theorem ClockRested.high {st : Option (Bool × Bool)} (h : ClockRested st) : ClockHigh st := fun q hq => by rw [h q hq]

/-- A bit period keeps the rule, whatever data event it has (40_bit_transport.md R90, R91). -/
theorem passes_halfPeriods_bit {e : Event} (he : ∀ st es, halfPeriods st (e :: es) = halfPeriods st es) :
    Passes halfPeriods ClockRested [.clk false, e, .wait, .clk true, .wait] ClockRested := by
  intro st rest hst hrest
  have hnext : halfPeriods (some (true, true)) rest = true := hrest _ (by rintro q ⟨⟩; rfl)
  cases st with
  | none => simp [halfPeriods, he, hnext]
  | some q =>
    obtain rfl := hst q rfl
    simp [halfPeriods, he, hnext]

theorem eventRules_halfPeriods : EventRules halfPeriods ClockHigh ClockRested ClockRested where
  issue _ _ _ hst hrest := hrest _ hst
  bind _ _ _ st rest hst hrest := by
    have hnext : halfPeriods (some (true, false)) rest = true := hrest _ (by rintro q ⟨⟩; rfl)
    cases st with
    | none => simp [bindEvents, halfPeriods, hnext]
    | some q => simp [bindEvents, halfPeriods, hst q rfl, hnext]
  opens _ _ hst hrest := hrest _ hst.wait
  writeBit _ := passes_halfPeriods_bit fun _ _ => rfl
  sendWait _ _ hst hrest := hrest _ hst.high.wait
  turnIn _ _ hst hrest := hrest _ hst
  readBit _ := passes_halfPeriods_bit fun _ _ => rfl
  readWait _ _ hst hrest := hrest _ hst.high.wait
  turnOut _ _ hst hrest := hrest _ hst
  closes _ _ hst hrest := hrest _ hst.high.wait.high
  done _ _ _ hst hrest := hrest _ hst
  ends _ _ := rfl

/-- Settles O43: the clock rests high outside the bit periods, and each of those has a `Wait` after each clock event. -/
theorem halfPeriodsHaveWait : Obligations.HalfPeriodsHaveWait := by
  intro s o h
  obtain ⟨t, r, ht, hran⟩ := exec_ran h
  refine ⟨t, .issue o :: s.eventsAdded o ++ [.done r], ht, hran.trace_append, ?_⟩
  exact eventRules_halfPeriods.operation s o r (st := none) nofun

/-! ### Frame integrity -/

theorem eventRules_framed : EventRules framed (· = false) (· = true) (· = true) where
  issue _ := .of_eq fun _ => rfl
  bind _ _ _ := .of_eq fun _ => rfl
  opens := .of_eq fun _ => rfl
  writeBit _ := .of_eq fun _ => rfl
  sendWait := .of_eq fun _ => rfl
  turnIn := .of_eq fun _ => rfl
  readBit _ := .of_eq fun _ => rfl
  readWait := .of_eq fun _ => rfl
  turnOut := .of_eq fun _ => rfl
  closes := .of_eq fun _ => rfl
  done _ := .of_eq fun _ => rfl
  ends := by rintro _ rfl; rfl

/-- Settles O45: every frame of an operation opens outside one and closes, and STB is high after the last. -/
theorem frameIntegrity : Obligations.FrameIntegrity := by
  intro s o h
  obtain ⟨t, r, ht, hran⟩ := exec_ran h
  exact ⟨t, .issue o :: s.eventsAdded o ++ [.done r], ht, hran.trace_append,
    eventRules_framed.operation s o r rfl, hran.stb⟩

/-! ### The direction rules -/

theorem eventRules_directions : EventRules directions (· = .out) (· = .out) (· = .inp) where
  issue _ := .of_eq fun _ => rfl
  bind _ _ _ := .of_eq fun _ => rfl
  opens := .of_eq fun _ => rfl
  writeBit _ := .of_eq fun _ => rfl
  sendWait := .of_eq fun _ => rfl
  turnIn := .of_eq fun _ => rfl
  readBit _ := .of_eq fun _ => rfl
  readWait := .of_eq fun _ => rfl
  turnOut := .of_eq fun _ => rfl
  closes := .of_eq fun _ => rfl
  done _ := .of_eq fun _ => rfl
  ends := by rintro _ rfl; rfl

theorem dirIn_notMem_writeByteEvents (v : Byte) : Event.dirIn ∉ writeByteEvents v := by
  simp [writeByteEvents, writeBitEvents]

theorem dirIn_notMem_transactEvents (vs : List Byte) : Event.dirIn ∉ transactEvents vs := by
  simp [transactEvents, dirIn_notMem_writeByteEvents]

theorem dirIn_notMem_frames (fs : List (List Byte)) : Event.dirIn ∉ fs.flatMap transactEvents := by
  simp [dirIn_notMem_transactEvents]

theorem dirIn_notMem_lineEvents (o : HostOp) : Event.dirIn ∉ lineEvents o := by
  cases o <;> simp [lineEvents, bindEvents]

/-- The key-read frame up to its `SetDir(IN)`: the whole byte 0x42 of an open frame (41_command_layer.md R107). -/
def keyFrameHead : List Event := [.stb false, .wait] ++ writeByteEvents 0x42#8 ++ [.wait]

/-- The key-read frame after its `SetDir(IN)` (R108, R109). -/
def keyFrameTail (ans : Nat → Bool) : List Event :=
  (List.range 4).flatMap (fun i => readByteEvents ((List.range 8).map fun j => ans (8 * i + j)) ++ [.wait])
    ++ [.dirOut, .stb true, .wait]

theorem keyFrameEvents_eq (ans : Nat → Bool) : keyFrameEvents ans = keyFrameHead ++ .dirIn :: keyFrameTail ans := by
  simp [keyFrameEvents, keyFrameHead, keyFrameTail]

theorem dirIn_notMem_keyFrameHead : Event.dirIn ∉ keyFrameHead := by
  simp [keyFrameHead, dirIn_notMem_writeByteEvents]

theorem dirIn_notMem_keyFrameTail (ans : Nat → Bool) : Event.dirIn ∉ keyFrameTail ans := by
  simp [keyFrameTail, readByteEvents, readBitEvents]

theorem strobe_mem_keyFrameTail (ans : Nat → Bool) : Event.stb true ∈ keyFrameTail ans := by
  simp [keyFrameTail]

/-- Nothing before the key-read frame turns the data line. -/
theorem dirIn_notMem_before (p : Params) (o : HostOp) :
    Event.dirIn ∉ .issue o :: lineEvents o ++ (framesOf p o).flatMap transactEvents := by
  rw [List.mem_append, List.mem_cons, or_assoc]
  rintro (h | h | h)
  · cases h
  · exact dirIn_notMem_lineEvents o h
  · exact dirIn_notMem_frames _ h

/-- Only the key-read frame turns the data line to an input, once: directly after its head, with a `Stb(1)` to come
(R182). -/
theorem split_at_dirIn {s : State} {o : HostOp} {r : Option Byte} {before after : List Event}
    (h : .issue o :: s.eventsAdded o ++ [.done r] = before ++ .dirIn :: after) :
    (∃ early, before = early ++ keyFrameHead) ∧ .stb true ∈ after := by
  have hsent := dirIn_notMem_before s.params o
  by_cases ho : o = .readKeys
  · have hsplit : .issue o :: s.eventsAdded o ++ [.done r] =
        (.issue o :: lineEvents o ++ (framesOf s.params o).flatMap transactEvents ++ keyFrameHead) ++
          .dirIn :: (keyFrameTail s.env.answer ++ [.done r]) := by
      simp [State.eventsAdded, ho, keyFrameEvents_eq]
    have hbefore := List.mem_append.not.2 (not_or.2 ⟨hsent, dirIn_notMem_keyFrameHead⟩)
    have hafter : .dirIn ∉ keyFrameTail s.env.answer ++ [.done r] := by simp [dirIn_notMem_keyFrameTail]
    obtain ⟨rfl, -, rfl⟩ := (List.append_cons_inj_of_notMem hbefore hafter).1 (hsplit.symm.trans h)
    exact ⟨⟨_, rfl⟩, List.mem_append_left _ (strobe_mem_keyFrameTail _)⟩
  · have hno : Event.dirIn ∉ .issue o :: s.eventsAdded o ++ [.done r] := by
      rw [State.eventsAdded, if_neg ho, List.append_nil, List.mem_append]
      rintro (hmem | hmem)
      · exact hsent hmem
      · simp at hmem
    rw [h] at hno
    exact absurd (by simp) hno

/-- Settles O44: the check passes, and the one `SetDir(IN)` is that of the key-read frame. -/
theorem directionRules : Obligations.DirectionRules := by
  intro s o h
  obtain ⟨t, r, ht, hran⟩ := exec_ran h
  exact ⟨t, .issue o :: s.eventsAdded o ++ [.done r], ht, hran.trace_append,
    eventRules_directions.operation s o r rfl, fun _ _ => split_at_dirIn⟩

end Sys2Proof.Machine
end

section
/-! PROOF. The counts of frames, events and `Wait` events of each operation, and its least duration (spec
70_reset_and_hazards.md R180, R187). -/

namespace Sys2Proof.Machine

/-! ### Counts -/

@[simp] theorem waits_nil : waits [] = 0 := rfl

theorem waits_cons (e : Event) (evs : List Event) : waits (e :: evs) = waits evs + if e.isWait then 1 else 0 :=
  List.countP_cons

@[simp] theorem waits_append (a b : List Event) : waits (a ++ b) = waits a + waits b := List.countP_append

theorem length_frames (fs : List (List Byte)) :
    (fs.flatMap transactEvents).length = (fs.map fun vs => 4 + 41 * vs.length).sum := by
  simp [List.length_flatMap, length_transactEvents]

theorem waits_frames (fs : List (List Byte)) :
    waits (fs.flatMap transactEvents) = (fs.map fun vs => 2 + 17 * vs.length).sum := by
  rw [waits, List.countP_flatMap]
  exact congrArg List.sum (List.map_congr_left fun vs _ => waits_transactEvents vs)

theorem length_readByteEvents (bs : List Bool) : (readByteEvents bs).length = 5 * bs.length := by
  simp [readByteEvents, readBitEvents, Nat.mul_comm]

theorem waits_readByteEvents (bs : List Bool) : waits (readByteEvents bs) = 2 * bs.length := by
  have hb (b : Bool) : (readBitEvents b).countP Event.isWait = 2 := rfl
  simp [waits, readByteEvents, List.countP_flatMap, Function.comp_def, hb, Nat.mul_comm]

/-- A reply byte and the `Wait` after it (41_command_layer.md R108). -/
theorem waits_replies (f : Nat → List Bool) (hf : ∀ i, (f i).length = 8) (n : Nat) :
    waits ((List.range n).flatMap fun i => readByteEvents (f i) ++ [.wait]) = 17 * n := by
  have hb (i : Nat) : (readByteEvents (f i)).countP Event.isWait = 16 := by
    rw [← waits, waits_readByteEvents, hf]
  have hw : [Event.wait].countP Event.isWait = 1 := rfl
  simp [waits, List.countP_flatMap, Function.comp_def, hb, hw, Nat.mul_comm]

theorem length_keyFrameEvents (ans : Nat → Bool) : (keyFrameEvents ans).length = 211 := by
  simp [keyFrameEvents, length_readByteEvents]

theorem waits_keyFrameEvents (ans : Nat → Bool) : waits (keyFrameEvents ans) = 87 := by
  simp only [keyFrameEvents, waits_append, waits_writeByteEvents]
  rw [waits_replies _ (by simp)]
  rfl

/-- The events between `Issue` and `Done` (R187). -/
theorem length_eventsAdded (s : State) (o : HostOp) : (s.eventsAdded o).length = (opCounts s.params o).2.1 := by
  rw [State.eventsAdded, List.length_append, List.length_append, length_frames]
  cases o with
  | showDigits x => simp [lineEvents, framesOf, opCounts, pairBytes, Function.comp_def]; omega
  | setLeds m => simp [lineEvents, framesOf, opCounts, ledBytes, Function.comp_def]
  | readKeys => rw [if_pos rfl, length_keyFrameEvents]; rfl
  | init _ _ _ | clear | setBrightness _ => rfl

/-- The `Wait` events among them (R187). -/
theorem waits_eventsAdded (s : State) (o : HostOp) : waits (s.eventsAdded o) = (opCounts s.params o).2.2 := by
  rw [State.eventsAdded, waits_append, waits_append, waits_frames]
  cases o with
  | showDigits x => simp [lineEvents, framesOf, opCounts, pairBytes, Function.comp_def]; omega
  | setLeds m => simp [lineEvents, framesOf, opCounts, ledBytes, Function.comp_def]
  | readKeys => rw [if_pos rfl, waits_keyFrameEvents]; rfl
  | init _ _ _ | clear | setBrightness _ => rfl

/-- The frames of an operation (R187). -/
theorem length_framesAdded (s : State) (o : HostOp) : (s.framesAdded o).length = (opCounts s.params o).1 := by
  cases o with
  | showDigits x => simp [State.framesAdded, framesOf, opCounts]; omega
  | init _ _ _ | clear | setBrightness _ | setLeds _ | readKeys => rfl

/-! ### Duration -/

/-- Each `Wait` takes at least T_DELAY and the other events no less than nothing (R180). -/
theorem waits_mul_tDelay_le_duration (p : Params) {tm : Timing} (h : tm.admissible p = true) :
    waits (tm.map Prod.fst) * p.tDelay ≤ tm.duration := by
  induction tm with
  | nil => exact Nat.le_of_eq (Nat.zero_mul _)
  | cons e tm ih =>
    obtain ⟨he, hrest⟩ : (e.1.isWait = true → p.tDelay ≤ e.2) ∧ Timing.admissible p tm = true := by
      simpa [Timing.admissible, imp_iff_not_or] using h
    have hcons : Timing.duration (e :: tm) = e.2 + Timing.duration tm := rfl
    rw [List.map_cons, waits_cons, hcons, Nat.add_mul, Nat.add_comm]
    refine Nat.add_le_add ?_ (ih hrest)
    split
    · rw [Nat.one_mul]; exact he ‹_›
    · rw [Nat.zero_mul]; exact Nat.zero_le _

/-- Settles O46: the counts of the events and frames of each operation, and the bound of R180 added up over the events. -/
theorem operationCountsAndDuration : Obligations.OperationCountsAndDuration := by
  intro s o h
  obtain ⟨t, r, ht, hran⟩ := exec_ran h
  refine ⟨t, s.eventsAdded o, r, ht, hran.trace, ?_, length_eventsAdded s o, waits_eventsAdded s o, fun tm htm hadm => ?_⟩
  · rw [hran.frames, List.length_append, length_framesAdded]
  · rw [← waits_eventsAdded, ← htm]
    exact waits_mul_tDelay_le_duration s.params hadm

end Sys2Proof.Machine
end
